-- ==== Sys2Proof/Word.lean ====
section
/-! DEFINITION. The word and byte types of the CORE (spec/00_scope.md R10, R11): every register, pc and
address value is 32 bits, memory is bytes. Arithmetic on them wraps modulo 2^32, as R11 says. -/

namespace Sys2Proof

/-- A byte of memory or of a cache line (R27, R28). -/
abbrev Byte := BitVec 8

/-- A register, pc, address or instruction word (R10). -/
abbrev Word := BitVec 32

end Sys2Proof
end

