-- ==== Sys2Proof/Machine/Flags.lean ====
section
/-! DEFINITION. The CORE has no flags and no condition codes (spec/10_state.md R26): a comparison puts its
0 or 1 into a general register, and a branch compares two registers directly. What stands here is those
comparisons (spec/41_rtype.md R211, R212; spec/43_branch.md R240). -/

namespace Sys2Proof.Machine

/-- The 0 or 1 a comparison writes (R211). -/
def truth (b : Bool) : Word := if b then 1#32 else 0#32

/-- The exact two's-complement comparison of `slt` and `slti` (R211, R253). -/
def lessSigned (a b : Word) : Bool := decide (a.toInt < b.toInt)

/-- The unsigned comparison of `sltu` and `sltiu` (R212, R254). -/
def lessUnsigned (a b : Word) : Bool := decide (a.toNat < b.toNat)

/-- The comparison of all 32 bits that `beq` and `bne` make (R240). -/
def sameWord (a b : Word) : Bool := decide (a = b)

end Sys2Proof.Machine
end

