-- ==== Sys2Proof/Syntax.lean ====
section
/-! DEFINITION. The 27 instructions (spec/00_scope.md R2, spec/opcode_table.json), one constructor per row
of the table, holding the fields the instruction uses (spec/30_encoding.md R152); the fields it ignores
(R157) are not part of it. Operands stand in the assembler's order (R160). -/

namespace Sys2Proof

/-- A register number 0..31; all 32 are legal in every position (R152). -/
abbrev Reg := BitVec 5

/-- A shift count 0..31 (R152). -/
abbrev Shamt := BitVec 5

/-- The 16-bit immediate (R151). -/
abbrev Imm16 := BitVec 16

/-- The 26-bit jump target (R151). -/
abbrev Target := BitVec 26

/-- The closed instruction set (R2). -/
inductive Instr where
  -- R-type (R201 to R212, R216)
  | sll (rd rt : Reg) (shamt : Shamt)
  | srl (rd rt : Reg) (shamt : Shamt)
  | jr (rs : Reg)
  | add (rd rs rt : Reg)
  | addu (rd rs rt : Reg)
  | sub (rd rs rt : Reg)
  | subu (rd rs rt : Reg)
  | and (rd rs rt : Reg)
  | or (rd rs rt : Reg)
  | xor (rd rs rt : Reg)
  | nor (rd rs rt : Reg)
  | slt (rd rs rt : Reg)
  | sltu (rd rs rt : Reg)
  -- Jump (R230, R231)
  | j (target : Target)
  | jal (target : Target)
  -- Branch (R241, R242)
  | beq (rs rt : Reg) (imm : Imm16)
  | bne (rs rt : Reg) (imm : Imm16)
  -- Immediate ALU (R251 to R258)
  | addi (rt rs : Reg) (imm : Imm16)
  | addiu (rt rs : Reg) (imm : Imm16)
  | slti (rt rs : Reg) (imm : Imm16)
  | sltiu (rt rs : Reg) (imm : Imm16)
  | andi (rt rs : Reg) (imm : Imm16)
  | ori (rt rs : Reg) (imm : Imm16)
  | xori (rt rs : Reg) (imm : Imm16)
  | lui (rt : Reg) (imm : Imm16)
  -- Memory (R271, R272)
  | lw (rt rs : Reg) (imm : Imm16)
  | sw (rt rs : Reg) (imm : Imm16)
deriving DecidableEq, Repr

/-- The five classes of the dispatch table (R2, R188). -/
inductive InstrClass where
  | rType
  | jump
  | branch
  | immAlu
  | memory
deriving DecidableEq, Repr

/-- The class of each instruction is the row of the source's table it stands in; `jr` is R-type (R188). -/
def Instr.cls : Instr → InstrClass
  | .sll _ _ _ | .srl _ _ _ | .jr _ | .add _ _ _ | .addu _ _ _ | .sub _ _ _ | .subu _ _ _
  | .and _ _ _ | .or _ _ _ | .xor _ _ _ | .nor _ _ _ | .slt _ _ _ | .sltu _ _ _ => .rType
  | .j _ | .jal _ => .jump
  | .beq _ _ _ | .bne _ _ _ => .branch
  | .addi _ _ _ | .addiu _ _ _ | .slti _ _ _ | .sltiu _ _ _ | .andi _ _ _ | .ori _ _ _
  | .xori _ _ _ | .lui _ _ => .immAlu
  | .lw _ _ _ | .sw _ _ _ => .memory

end Sys2Proof
end

