-- ==== Sys2Proof/Decode.lean ====
section
/-! DEFINITION. Byte order, decoding and encoding (spec/20_memory.md R71; spec/30_encoding.md R150 to R158,
R162). The encoder is written after the decoder, from the same tables. -/

namespace Sys2Proof

/-! ### Byte order (R71) -/

/-- `BE32`: the byte at the lowest address is the most significant (R71). -/
def be32 (b0 b1 b2 b3 : Byte) : Word := b0 ++ b1 ++ b2 ++ b3

/-- `BEbytes`: the four bytes of a word in ascending address order (R71). -/
def beBytes (w : Word) : List Byte :=
  [w.extractLsb' 24 8, w.extractLsb' 16 8, w.extractLsb' 8 8, w.extractLsb' 0 8]

/-! ### Fields (R151, R152) -/

/-- `op = ir[31:26]`. -/
def opField (ir : Word) : BitVec 6 := ir.extractLsb' 26 6
/-- `rs = ir[25:21]`. -/
def rsField (ir : Word) : Reg := ir.extractLsb' 21 5
/-- `rt = ir[20:16]`. -/
def rtField (ir : Word) : Reg := ir.extractLsb' 16 5
/-- `rd = ir[15:11]`. -/
def rdField (ir : Word) : Reg := ir.extractLsb' 11 5
/-- `shamt = ir[10:6]`. -/
def shamtField (ir : Word) : Shamt := ir.extractLsb' 6 5
/-- `funct = ir[5:0]`. -/
def functField (ir : Word) : BitVec 6 := ir.extractLsb' 0 6
/-- `imm = ir[15:0]`. -/
def immField (ir : Word) : Imm16 := ir.extractLsb' 0 16
/-- `target = ir[25:0]`. -/
def targetField (ir : Word) : Target := ir.extractLsb' 0 26

/-! ### Decoding (R154 to R158) -/

/-- The function map for `op = 0` (R156). Nothing but `funct` takes part in the selection (R154, R157). -/
def decodeRType (ir : Word) : Option Instr :=
  match functField ir with
  | 0x00#6 => some (.sll (rdField ir) (rtField ir) (shamtField ir))
  | 0x02#6 => some (.srl (rdField ir) (rtField ir) (shamtField ir))
  | 0x08#6 => some (.jr (rsField ir))
  | 0x20#6 => some (.add (rdField ir) (rsField ir) (rtField ir))
  | 0x21#6 => some (.addu (rdField ir) (rsField ir) (rtField ir))
  | 0x22#6 => some (.sub (rdField ir) (rsField ir) (rtField ir))
  | 0x23#6 => some (.subu (rdField ir) (rsField ir) (rtField ir))
  | 0x24#6 => some (.and (rdField ir) (rsField ir) (rtField ir))
  | 0x25#6 => some (.or (rdField ir) (rsField ir) (rtField ir))
  | 0x26#6 => some (.xor (rdField ir) (rsField ir) (rtField ir))
  | 0x27#6 => some (.nor (rdField ir) (rsField ir) (rtField ir))
  | 0x2A#6 => some (.slt (rdField ir) (rsField ir) (rtField ir))
  | 0x2B#6 => some (.sltu (rdField ir) (rsField ir) (rtField ir))
  | _ => none

/-- The primary opcode map (R155). `none` is the unsupported instruction (R158). -/
def decodeWord (ir : Word) : Option Instr :=
  match opField ir with
  | 0x00#6 => decodeRType ir
  | 0x02#6 => some (.j (targetField ir))
  | 0x03#6 => some (.jal (targetField ir))
  | 0x04#6 => some (.beq (rsField ir) (rtField ir) (immField ir))
  | 0x05#6 => some (.bne (rsField ir) (rtField ir) (immField ir))
  | 0x08#6 => some (.addi (rtField ir) (rsField ir) (immField ir))
  | 0x09#6 => some (.addiu (rtField ir) (rsField ir) (immField ir))
  | 0x0A#6 => some (.slti (rtField ir) (rsField ir) (immField ir))
  | 0x0B#6 => some (.sltiu (rtField ir) (rsField ir) (immField ir))
  | 0x0C#6 => some (.andi (rtField ir) (rsField ir) (immField ir))
  | 0x0D#6 => some (.ori (rtField ir) (rsField ir) (immField ir))
  | 0x0E#6 => some (.xori (rtField ir) (rsField ir) (immField ir))
  | 0x0F#6 => some (.lui (rtField ir) (immField ir))
  | 0x23#6 => some (.lw (rtField ir) (rsField ir) (immField ir))
  | 0x2B#6 => some (.sw (rtField ir) (rsField ir) (immField ir))
  | _ => none

/-- Why a byte sequence is no instruction. -/
inductive DecodeError where
  /-- Fewer than the 4 bytes every instruction occupies (R150, R159). -/
  | truncated
  /-- A word outside the closed set (R158). -/
  | unsupported (ir : Word)
deriving DecidableEq, Repr

/-- Decode the instruction that stands at the head of a byte sequence in memory order, and give the rest:
exactly 4 bytes are consumed (R150, R159). -/
def decode : List Byte → Except DecodeError (Instr × List Byte)
  | b0 :: b1 :: b2 :: b3 :: rest =>
    match decodeWord (be32 b0 b1 b2 b3) with
    | some i => .ok (i, rest)
    | none => .error (.unsupported (be32 b0 b1 b2 b3))
  | _ => .error .truncated

/-- The instruction the decoder reads from a table word: `nbits` of `w` are given and every bit above them
is 0; the word is laid out big-endian (R150, R71) and handed to `decode`. -/
def decodeTableWord (nbits w : Nat) : Option Instr :=
  match decode (beBytes (BitVec.ofNat 32 (w % 2 ^ nbits))) with
  | .ok (i, _) => some i
  | .error _ => none

/-! ### Encoding (R151, R155, R156) -/

/-- An R-format word (R151). -/
def rWord (rs rt rd : Reg) (shamt : Shamt) (funct : BitVec 6) : Word :=
  0#6 ++ rs ++ rt ++ rd ++ shamt ++ funct

/-- An I-format word (R151). -/
def iWord (op : BitVec 6) (rs rt : Reg) (imm : Imm16) : Word := op ++ rs ++ rt ++ imm

/-- A J-format word (R151). -/
def jWord (op : BitVec 6) (target : Target) : Word := op ++ target

/-- The canonical word of an instruction: the fields it ignores are 0. -/
def encode : Instr → Word
  | .sll rd rt shamt => rWord 0 rt rd shamt 0x00#6
  | .srl rd rt shamt => rWord 0 rt rd shamt 0x02#6
  | .jr rs => rWord rs 0 0 0 0x08#6
  | .add rd rs rt => rWord rs rt rd 0 0x20#6
  | .addu rd rs rt => rWord rs rt rd 0 0x21#6
  | .sub rd rs rt => rWord rs rt rd 0 0x22#6
  | .subu rd rs rt => rWord rs rt rd 0 0x23#6
  | .and rd rs rt => rWord rs rt rd 0 0x24#6
  | .or rd rs rt => rWord rs rt rd 0 0x25#6
  | .xor rd rs rt => rWord rs rt rd 0 0x26#6
  | .nor rd rs rt => rWord rs rt rd 0 0x27#6
  | .slt rd rs rt => rWord rs rt rd 0 0x2A#6
  | .sltu rd rs rt => rWord rs rt rd 0 0x2B#6
  | .j target => jWord 0x02#6 target
  | .jal target => jWord 0x03#6 target
  | .beq rs rt imm => iWord 0x04#6 rs rt imm
  | .bne rs rt imm => iWord 0x05#6 rs rt imm
  | .addi rt rs imm => iWord 0x08#6 rs rt imm
  | .addiu rt rs imm => iWord 0x09#6 rs rt imm
  | .slti rt rs imm => iWord 0x0A#6 rs rt imm
  | .sltiu rt rs imm => iWord 0x0B#6 rs rt imm
  | .andi rt rs imm => iWord 0x0C#6 rs rt imm
  | .ori rt rs imm => iWord 0x0D#6 rs rt imm
  | .xori rt rs imm => iWord 0x0E#6 rs rt imm
  | .lui rt imm => iWord 0x0F#6 0 rt imm
  | .lw rt rs imm => iWord 0x23#6 rs rt imm
  | .sw rt rs imm => iWord 0x2B#6 rs rt imm

/-- The (match, mask) pairs of spec/opcode_table.json, in the table's order (R157). -/
def opcodeRows : List (Word × Word) :=
  [(0x00000000#32, 0xFC00003F#32), (0x00000002#32, 0xFC00003F#32), (0x00000008#32, 0xFC00003F#32),
   (0x00000020#32, 0xFC00003F#32), (0x00000021#32, 0xFC00003F#32), (0x00000022#32, 0xFC00003F#32),
   (0x00000023#32, 0xFC00003F#32), (0x00000024#32, 0xFC00003F#32), (0x00000025#32, 0xFC00003F#32),
   (0x00000026#32, 0xFC00003F#32), (0x00000027#32, 0xFC00003F#32), (0x0000002A#32, 0xFC00003F#32),
   (0x0000002B#32, 0xFC00003F#32), (0x08000000#32, 0xFC000000#32), (0x0C000000#32, 0xFC000000#32),
   (0x10000000#32, 0xFC000000#32), (0x14000000#32, 0xFC000000#32), (0x20000000#32, 0xFC000000#32),
   (0x24000000#32, 0xFC000000#32), (0x28000000#32, 0xFC000000#32), (0x2C000000#32, 0xFC000000#32),
   (0x30000000#32, 0xFC000000#32), (0x34000000#32, 0xFC000000#32), (0x38000000#32, 0xFC000000#32),
   (0x3C000000#32, 0xFC000000#32), (0x8C000000#32, 0xFC000000#32), (0xAC000000#32, 0xFC000000#32)]

/-- The `mask` of the instruction's row in spec/opcode_table.json (R157). -/
def tableMask (i : Instr) : Word :=
  match i.cls with
  | .rType => 0xFC00003F#32
  | .jump | .branch | .immAlu | .memory => 0xFC000000#32

/-- The bits of the word the instruction's operands and its selection use; every other bit is ignored
(R157). From the `encoding` column of spec/opcode_table.json. -/
def usedBits : Instr → Word
  | .sll _ _ _ | .srl _ _ _ => 0xFC1FFFFF#32
  | .jr _ => 0xFFE0003F#32
  | .add _ _ _ | .addu _ _ _ | .sub _ _ _ | .subu _ _ _ | .and _ _ _ | .or _ _ _ | .xor _ _ _
  | .nor _ _ _ | .slt _ _ _ | .sltu _ _ _ => 0xFFFFF83F#32
  | .lui _ _ => 0xFC1FFFFF#32
  | .j _ | .jal _ | .beq _ _ _ | .bne _ _ _ | .addi _ _ _ | .addiu _ _ _ | .slti _ _ _
  | .sltiu _ _ _ | .andi _ _ _ | .ori _ _ _ | .xori _ _ _ | .lw _ _ _ | .sw _ _ _ => 0xFFFFFFFF#32

end Sys2Proof
end

