-- ==== Sys2Proof/Config.lean ====
section
/-! DEFINITION. The static parameters of the CORE (spec/00_scope.md R6, R8, R9) and the free values the
spec leaves open (spec/93_implementation_defined.md U2, U3). -/

namespace Sys2Proof

/-- The replacement policies `REPL` may name (R6). -/
inductive ReplPolicy where
  | random
  | fifo
  | lru
  | clock
deriving DecidableEq, Repr

/-- The write policies `WPOL` may name (R6). -/
inductive WritePolicy where
  | writeBack
  | writeThrough
deriving DecidableEq, Repr

/-- The configuration record the CORE samples at reset (R6, R51). No instruction reads or writes it. -/
structure Config where
  /-- `MEM_SIZE` in bytes. -/
  memSize : Nat
  /-- `CACHE_SIZE` in data bytes. -/
  cacheSize : Nat
  /-- `LINE_SIZE` in bytes. -/
  lineSize : Nat
  /-- `WAYS`, lines per set. -/
  ways : Nat
  /-- `REPL`. -/
  repl : ReplPolicy
  /-- `WPOL`. -/
  wpol : WritePolicy
  /-- `MISS_PENALTY`, cycles added per miss. -/
  missPenalty : Nat
  /-- `HALT_PC`, the sentinel. -/
  haltPc : Word
  /-- `RESET_REG[1..31]`: entry `i` is the reset value of register `i + 1`. -/
  resetReg : Vector Word 31
deriving DecidableEq, Repr

/-- `SET_COUNT = CACHE_SIZE / (LINE_SIZE * WAYS)` (R8). -/
def Config.setCount (c : Config) : Nat := c.cacheSize / (c.lineSize * c.ways)

/-- `HIT_TIME`, fixed at 1 (R6). -/
def Config.hitTime : Nat := 1

/-- The configuration `State.reset` samples: the reference values of R9 and, for the parameters the spec
leaves open, the values spec/95_test_vectors.md uses throughout. DESIGN CHOICE, unsafe: log entries 1 and 2. -/
def Config.reference : Config where
  memSize := 4096
  cacheSize := 256
  lineSize := 64
  ways := 4
  repl := .lru
  wpol := .writeBack
  missPenalty := 1000
  haltPc := 0xFFFFFFFF#32
  resetReg := Vector.replicate 31 0#32

/-- `UNSPEC32` (R12, U2): the `n`-th unspecified 32-bit value. It has no body, so a statement about it
holds for every draw. Log entry 3, safe. -/
opaque Config.freeWord : Nat → Word

/-- The `n`-th draw of the `Random` policy (R38, U3), before it is brought into `0 .. WAYS-1`. It has no
body, so a statement about it holds for every choice of ways. Log entry 4, safe. -/
opaque Config.freeWay : Nat → Nat

end Sys2Proof
end

