-- ==== Sys2Proof/Machine/State.lean ====
section
/-! DEFINITION. The state of one CORE instance (spec/10_state.md R20 to R39), its reset value, and the
reasons a step can stop. State is plain data. -/

namespace Sys2Proof.Machine

/-- Main memory as (address, byte) pairs; an unlisted address reads as 0, the reset value of every byte
(R39). Its canonical form is `Memory.wf` (Sys2Proof/Machine/Ops.lean). -/
abbrev Memory := List Host.Cell

/-- A CacheLine (R28). -/
structure Line where
  /-- The `LINE_SIZE` bytes of the resident block. -/
  data : List Byte
  /-- `blk div SET_COUNT` of the resident block. -/
  tag : Nat
  valid : Bool
  dirty : Bool
  /-- `stat.nInstr` at the last hit on, or fill of, this line. -/
  lru : Nat
  /-- The second-chance flag. -/
  sc : Bool
deriving DecidableEq, Repr

/-- A CacheSet: its ways and the FIFO cursor (R29). -/
structure CacheSet where
  lines : List Line
  fifo : Nat
deriving DecidableEq, Repr

/-- The eleven counters of the Statistics Collector, unbounded naturals (R31). -/
structure Stats where
  nInstr : Nat
  nRType : Nat
  nJump : Nat
  nBranch : Nat
  nBranchTaken : Nat
  nImmAlu : Nat
  nMemory : Nat
  nMemAccess : Nat
  nHit : Nat
  nMiss : Nat
  cycles : Nat
deriving DecidableEq, Repr

/-- Why a run ended normally (R32). -/
inductive HaltReason where
  | sentinel
  | pcOutOfRange
deriving DecidableEq, Repr

/-- Whether the CORE may take a step (R32). -/
inductive RunState where
  | running
  | halted (why : HaltReason)
  | faulted
deriving DecidableEq, Repr

/-- The data accesses that can be rejected (R301). -/
inductive DataSource where
  | load
  | store
deriving DecidableEq, Repr

/-- What an alignment error came from (R301). -/
inductive Source where
  | fetch
  | data (d : DataSource)
deriving DecidableEq, Repr

/-- A report record (R301). -/
inductive Report where
  | alignmentError (src : Source) (addr : Word)
  | rangeError (src : DataSource) (addr : Word)
  | unsupportedInstruction (pc ir : Word)
deriving DecidableEq, Repr

/-- The complete state (R20). -/
structure State where
  /-- The configuration sampled at reset, constant until the next reset (R6, R51). -/
  cfg : Config
  /-- The register file; slot 0 is never read and never written (R21, R22). -/
  regs : Vector Word 32
  /-- The program counter (R24). -/
  pc : Word
  /-- Main memory (R27). -/
  mem : Memory
  /-- `cache.set[0 .. SET_COUNT-1]` (R29). -/
  cache : List CacheSet
  /-- The statistics (R31). -/
  stat : Stats
  /-- The run state (R32). -/
  run : RunState
  /-- The report records so far, oldest first (R33). -/
  reports : List Report
  /-- The MODEL's own: how many `UNSPEC32` values have been drawn (log entry 3). -/
  wordDraws : Nat
  /-- The MODEL's own: how many `Random` victims have been drawn (log entry 4). -/
  wayDraws : Nat
deriving DecidableEq, Repr

/-- Why a step stops with a fault. -/
inductive Fault where
  /-- Raised by `step` when the cache of the state has not the number of sets, ways, line bytes or the
  cursor range its configuration gives it; no run from a reset reaches such a state (R28, R29). Safe. -/
  | cacheShape
deriving DecidableEq, Repr

/-- Why a step is refused. -/
inductive Refusal where
  /-- Raised by an arm of `exec` whose instruction has no meaning yet. Safe. -/
  | notModelled (mnemonic : String)
  /-- Raised by `step` when the configuration is not legal: the spec refuses it (R7, U4). Safe. -/
  | illegalConfig
deriving DecidableEq, Repr

/-- An invalid line with every field zeroed (R39). -/
def Line.reset (lineSize : Nat) : Line where
  data := List.replicate lineSize 0#8
  tag := 0
  valid := false
  dirty := false
  lru := 0
  sc := false

/-- A set of invalid lines with its cursor at 0 (R39). -/
def CacheSet.reset (c : Config) : CacheSet where
  lines := List.replicate c.ways (Line.reset c.lineSize)
  fifo := 0

/-- Every counter at 0 (R39). -/
def Stats.reset : Stats := ⟨0, 0, 0, 0, 0, 0, 0, 0, 0, 0, 0⟩

/-- `x[0] = 0` and `x[i] = RESET_REG[i]` (R39). -/
def resetRegs (c : Config) : Vector Word 32 := ⟨⟨0#32 :: c.resetReg.toList⟩, by simp⟩

/-- The CORE right after a reset that samples the configuration `c` (R39, R330). -/
def State.resetWith (c : Config) : State where
  cfg := c
  regs := resetRegs c
  pc := 0
  mem := []
  cache := List.replicate c.setCount (CacheSet.reset c)
  stat := Stats.reset
  run := .running
  reports := []
  wordDraws := 0
  wayDraws := 0

/-- The CORE right after a reset that samples the reference configuration (log entry 1). -/
def State.reset : State := State.resetWith Config.reference

end Sys2Proof.Machine
end

