-- ==== Sys2Proof/Machine/Operands.lean ====
section
/-! DEFINITION. How operands are formed from instruction fields (spec/30_encoding.md R153), the program
targets (spec/42_jump.md R230, R232; spec/43_branch.md R240) and the effective address (spec/20_memory.md
R86). -/

namespace Sys2Proof.Machine

/-- `sext_32`: bit 15 copied into bits 31..16 (R11). -/
def sext32 (imm : Imm16) : Word := imm.signExtend 32

/-- `zext_32`: zeros in bits 31..16 (R11). -/
def zext32 (imm : Imm16) : Word := imm.zeroExtend 32

/-- The `lui` operand `imm ++ 0^16` (R153). -/
def upperImm (imm : Imm16) : Word := imm ++ 0#16

/-- The address of the next instruction in sequence (R186). -/
def nextPc (pc : Word) : Word := pc + 4#32

/-- The target of a taken branch at `pc` (R240). -/
def branchTarget (pc : Word) (imm : Imm16) : Word := nextPc pc + (sext32 imm <<< 2)

/-- The target of a jump at `pc`: `pc[31:28] ++ target ++ 00`, of the jump's own address (R230, R232). -/
def jumpTarget (pc : Word) (target : Target) : Word := pc.extractLsb' 28 4 ++ target ++ 0#2

/-- The effective address of `lw` and `sw`, modulo `2^32` (R86). -/
def effectiveAddress (base : Word) (imm : Imm16) : Word := base + sext32 imm

end Sys2Proof.Machine
end

