-- ==== Sys2Proof/Machine/Ops.lean ====
section
/-! DEFINITION. The named operations over registers, memory, counters, reports and the run state
(spec/10_state.md R21 to R33, spec/15_interfaces.md R58, spec/50_statistics.md R281).

TAKING AN EXCEPTION: the CORE has none (spec/60_exceptions.md R300, R308). What stands in its place is the
emission of one report record, `State.report`, which diverts nothing and saves nothing; there is nothing
to return from. -/

namespace Sys2Proof.Machine

/-! ### Registers (R21, R22) -/

/-- `x[r]`: register 0 reads 0 (R21). -/
def State.reg (s : State) (r : Reg) : Word := if r = 0#5 then 0#32 else s.regs[r.toNat]'r.isLt

/-- `x[r] <- v`: a write to register 0 changes nothing (R22). -/
def State.setReg (s : State) (r : Reg) (v : Word) : State :=
  if r = 0#5 then s else { s with regs := s.regs.set r.toNat v r.isLt }

/-! ### Main memory (R27, R58) -/

/-- `Mem[a]`; an unlisted address reads as its reset value 0 (R39). -/
def Memory.read : Memory → Nat → Byte
  | [], _ => 0#8
  | (k, b) :: m, a => if k = a then b else Memory.read m a

/-- `Mem[a] <- v`, keeping the list sorted and free of zero bytes. -/
def Memory.write : Memory → Nat → Byte → Memory
  | [], a, v => if v = 0#8 then [] else [(a, v)]
  | (k, b) :: m, a, v =>
    if a < k then (if v = 0#8 then (k, b) :: m else (a, v) :: (k, b) :: m)
    else if a = k then (if v = 0#8 then m else (a, v) :: m)
    else (k, b) :: Memory.write m a v

/-- Every listed address is at least `lo`, addresses rise strictly, and no listed byte is 0. -/
def Memory.wfFrom (lo : Nat) : Memory → Bool
  | [] => true
  | (k, b) :: m => decide (lo ≤ k) && decide (b ≠ 0#8) && Memory.wfFrom (k + 1) m

/-- The canonical form of memory: addresses strictly rising, no entry equal to what an unlisted address
reads as. -/
def Memory.wf (m : Memory) : Bool := Memory.wfFrom 0 m

/-- `Mem[a .. a+n-1]`, in ascending address order: `LineRead` with `n = LINE_SIZE` (R58). -/
def Memory.readBytes (m : Memory) (a n : Nat) : List Byte :=
  (List.range n).map fun i => Memory.read m (a + i)

/-- `Mem[a ..] <- bytes`, in ascending address order: `LineWrite` and `WordWrite` (R58). -/
def Memory.writeBytes (m : Memory) (a : Nat) : List Byte → Memory
  | [] => m
  | b :: bs => Memory.writeBytes (Memory.write m a b) (a + 1) bs

/-! ### Counters (R281) -/

/-- The class counter of a dispatched instruction (R188). -/
def Stats.countClass (t : Stats) : InstrClass → Stats
  | .rType => { t with nRType := t.nRType + 1 }
  | .jump => { t with nJump := t.nJump + 1 }
  | .branch => { t with nBranch := t.nBranch + 1 }
  | .immAlu => { t with nImmAlu := t.nImmAlu + 1 }
  | .memory => { t with nMemory := t.nMemory + 1 }

/-- A hit: `nHit += 1`, `cycles += HIT_TIME` (R105). -/
def Stats.countHit (t : Stats) : Stats :=
  { t with nHit := t.nHit + 1, cycles := t.cycles + Config.hitTime }

/-- A miss: `nMiss += 1`, `cycles += MISS_PENALTY` (R111). -/
def Stats.countMiss (t : Stats) (penalty : Nat) : Stats :=
  { t with nMiss := t.nMiss + 1, cycles := t.cycles + penalty }

/-- The class counter of a dispatched instruction (R188). -/
def State.dispatched (s : State) (k : InstrClass) : State :=
  { s with stat := s.stat.countClass k }

/-- `nBranchTaken += 1` (R240). -/
def State.countTaken (s : State) : State :=
  { s with stat := { s.stat with nBranchTaken := s.stat.nBranchTaken + 1 } }

/-- `nMemAccess += 1` (R270). -/
def State.countMemAccess (s : State) : State :=
  { s with stat := { s.stat with nMemAccess := s.stat.nMemAccess + 1 } }

/-- `nInstr += 1`, before the fetch (R184). -/
def State.countInstr (s : State) : State :=
  { s with stat := { s.stat with nInstr := s.stat.nInstr + 1 } }

/-! ### Reports, run state, program counter, draws -/

/-- `report`: append one record; control goes on with the next statement (R301). -/
def State.report (s : State) (r : Report) : State := { s with reports := s.reports ++ [r] }

/-- `run <- r` (R32). -/
def State.setRun (s : State) (r : RunState) : State := { s with run := r }

/-- `pc <- npc`, the retirement of a step (R186). -/
def State.setPc (s : State) (npc : Word) : State := { s with pc := npc }

/-- Retirement of an instruction that is no taken jump or branch: `pc <- pc + 4` (R186). -/
def State.advance (s : State) : State := s.setPc (nextPc s.pc)

/-- The `UNSPEC32` value the next draw gives (R12, U2): free, log entry 3. -/
def State.unspec32 (s : State) : Word := Config.freeWord s.wordDraws

/-- One `UNSPEC32` value has been drawn (log entry 3). -/
def State.drawnWord (s : State) : State := { s with wordDraws := s.wordDraws + 1 }

/-- The unsupported instruction: one record, no class counter, `pc + 4` (R189). -/
def State.unsupported (s : State) (ir : Word) : State :=
  (s.report (.unsupportedInstruction s.pc ir)).advance

end Sys2Proof.Machine
end

