-- ==== Sys2Proof/Machine/Branch.lean ====
section
/-! DEFINITION. The branch instructions (spec/43_branch.md R240 to R242). -/

namespace Sys2Proof.Machine

/-- What both branches do with their condition (R240). -/
def State.branchIf (s : State) (cond : Bool) (imm : Imm16) : Host.Outcome State Fault Refusal :=
  if cond then .next ((s.dispatched .branch).countTaken.setPc (branchTarget s.pc imm))
  else .next (s.dispatched .branch).advance

/-- `beq` (R241). -/
def execBeq (rs rt : Reg) (imm : Imm16) (s : State) : Host.Outcome State Fault Refusal :=
  s.branchIf (sameWord (s.reg rs) (s.reg rt)) imm

/-- `bne` (R242). -/
def execBne (rs rt : Reg) (imm : Imm16) (s : State) : Host.Outcome State Fault Refusal :=
  s.branchIf (!sameWord (s.reg rs) (s.reg rt)) imm

end Sys2Proof.Machine
end

