-- ==== Sys2Proof/Machine/ImmAlu.lean ====
section
/-! DEFINITION. The immediate ALU instructions (spec/44_immediate_alu.md R250 to R258). -/

namespace Sys2Proof.Machine

/-- What every immediate ALU instruction does with its result (R250). -/
def State.iResult (s : State) (rt : Reg) (v : Word) : Host.Outcome State Fault Refusal :=
  .next (((s.dispatched .immAlu).setReg rt v).advance)

/-- `addi` (R251): wraps, no trap. -/
def execAddi (rt rs : Reg) (imm : Imm16) (s : State) : Host.Outcome State Fault Refusal :=
  s.iResult rt (s.reg rs + sext32 imm)

/-- `addiu` (R252): the immediate is sign-extended all the same. -/
def execAddiu (rt rs : Reg) (imm : Imm16) (s : State) : Host.Outcome State Fault Refusal :=
  s.iResult rt (s.reg rs + sext32 imm)

/-- `slti` (R253). -/
def execSlti (rt rs : Reg) (imm : Imm16) (s : State) : Host.Outcome State Fault Refusal :=
  s.iResult rt (truth (lessSigned (s.reg rs) (sext32 imm)))

/-- `sltiu` (R254): sign-extended, then compared unsigned. -/
def execSltiu (rt rs : Reg) (imm : Imm16) (s : State) : Host.Outcome State Fault Refusal :=
  s.iResult rt (truth (lessUnsigned (s.reg rs) (sext32 imm)))

/-- `andi` (R255). -/
def execAndi (rt rs : Reg) (imm : Imm16) (s : State) : Host.Outcome State Fault Refusal :=
  s.iResult rt (s.reg rs &&& zext32 imm)

/-- `ori` (R256). -/
def execOri (rt rs : Reg) (imm : Imm16) (s : State) : Host.Outcome State Fault Refusal :=
  s.iResult rt (s.reg rs ||| zext32 imm)

/-- `xori` (R257). -/
def execXori (rt rs : Reg) (imm : Imm16) (s : State) : Host.Outcome State Fault Refusal :=
  s.iResult rt (s.reg rs ^^^ zext32 imm)

/-- `lui` (R258): the low half becomes 0. -/
def execLui (rt : Reg) (imm : Imm16) (s : State) : Host.Outcome State Fault Refusal :=
  s.iResult rt (upperImm imm)

end Sys2Proof.Machine
end

