-- ==== Sys2Proof/Machine/Jump.lean ====
section
/-! DEFINITION. The jump instructions (spec/42_jump.md R230 to R232). No delay slot; the region bits and
the return address come from the jump's own address. -/

namespace Sys2Proof.Machine

/-- The link register of `jal` (R23, R232). -/
def linkReg : Reg := 31#5

/-- `j` (R230). -/
def execJ (target : Target) (s : State) : Host.Outcome State Fault Refusal :=
  .next ((s.dispatched .jump).setPc (jumpTarget s.pc target))

/-- `jal` (R231). -/
def execJal (target : Target) (s : State) : Host.Outcome State Fault Refusal :=
  .next (((s.dispatched .jump).setReg linkReg (nextPc s.pc)).setPc (jumpTarget s.pc target))

end Sys2Proof.Machine
end

