-- ==== Sys2Proof/Machine/Cache.lean ====
section
/-! DEFINITION. The cache controller (spec/25_cache.md R100 to R122). Addresses inside it are natural
numbers: the access is already known to be aligned and inside memory. -/

namespace Sys2Proof.Machine

/-! ### Address decomposition (R101, R102) -/

/-- The block number `blk` (R101). -/
def blockOf (c : Config) (a : Nat) : Nat := a / c.lineSize

/-- The set index `s` (R101). -/
def setIndexOf (c : Config) (a : Nat) : Nat := blockOf c a % c.setCount

/-- The tag `t` (R101). -/
def tagOf (c : Config) (a : Nat) : Nat := blockOf c a / c.setCount

/-- The byte offset `off` in the line (R101). -/
def offsetOf (c : Config) (a : Nat) : Nat := a % c.lineSize

/-- The resident base address of a line of set `i` with tag `t` (R102). -/
def baseOf (c : Config) (t i : Nat) : Nat := (t * c.setCount + i) * c.lineSize

/-! ### Lines and sets (R28, R29) -/

/-- The line holds the block with tag `t` of its set (R103). -/
def Line.holds (L : Line) (t : Nat) : Bool := L.valid && decide (L.tag = t)

/-- Byte `i` of the line. -/
def Line.byteAt (L : Line) (i : Nat) : Byte := L.data.getD i 0#8

/-- The big-endian word at offset `off` (R104). -/
def Line.wordAt (L : Line) (off : Nat) : Word :=
  be32 (L.byteAt off) (L.byteAt (off + 1)) (L.byteAt (off + 2)) (L.byteAt (off + 3))

/-- Replace consecutive bytes of a line from offset `off` on. -/
def putBytes (d : List Byte) (off : Nat) : List Byte → List Byte
  | [] => d
  | b :: bs => putBytes (d.set off b) (off + 1) bs

/-- `data[off..off+3] <- BEbytes(w)` (R104). -/
def Line.putWord (L : Line) (off : Nat) (w : Word) : Line :=
  { L with data := putBytes L.data off (beBytes w) }

/-- Recency stamp and second-chance flag of a hit (R105). -/
def Line.touch (L : Line) (stamp : Nat) : Line := { L with lru := stamp, sc := true }

/-- Way `k` of the set. -/
def CacheSet.line (S : CacheSet) (k : Nat) : Line := S.lines.getD k (Line.reset 0)

/-- Replace way `k` of the set. -/
def CacheSet.putLine (S : CacheSet) (k : Nat) (L : Line) : CacheSet :=
  { S with lines := S.lines.set k L }

/-- The way that holds tag `t`, if one does (R103). -/
def CacheSet.lookup (S : CacheSet) (t : Nat) : Option Nat := S.lines.findIdx? (Line.holds · t)

/-- Set `i` of the cache. -/
def State.setAt (s : State) (i : Nat) : CacheSet := s.cache.getD i ⟨[], 0⟩

/-- The way that holds the block of address `a`, if one does: the access hits (R103). -/
def State.lookup (s : State) (a : Nat) : Option Nat :=
  (s.setAt (setIndexOf s.cfg a)).lookup (tagOf s.cfg a)

/-- Way `k` of set `i`. -/
def State.lineAt (s : State) (i k : Nat) : Line := (s.setAt i).line k

/-- Way `k` of the set that address `a` selects. -/
def State.lineOf (s : State) (a k : Nat) : Line := s.lineAt (setIndexOf s.cfg a) k

/-- The cache has the sets, ways, line bytes and cursor range the configuration gives it (R28, R29). -/
def State.cacheFits (s : State) : Bool :=
  decide (s.cache.length = s.cfg.setCount) &&
    s.cache.all fun S =>
      decide (S.lines.length = s.cfg.ways) && decide (S.fifo < s.cfg.ways) &&
        S.lines.all fun L => decide (L.data.length = s.cfg.lineSize)

/-- The architectural memory view `ArchMem(a)` (R37): the byte a load would see. -/
def State.archMem (s : State) (a : Nat) : Byte :=
  match s.lookup a with
  | some k => (s.lineOf a k).byteAt (offsetOf s.cfg a)
  | none => Memory.read s.mem a

/-- The word `BE32(ArchMem(a), .., ArchMem(a+3))` (R271). -/
def State.archWord (s : State) (a : Nat) : Word :=
  be32 (s.archMem a) (s.archMem (a + 1)) (s.archMem (a + 2)) (s.archMem (a + 3))

/-! ### The transfer and the write policy (R104, R110, R112) -/

/-- The direction of an access (R100). -/
inductive Direction where
  | read
  | write (w : Word)
deriving DecidableEq, Repr

/-- What the transfer leaves: the line, main memory and the word read or written. -/
structure Transferred where
  line : Line
  mem : Memory
  word : Word
deriving DecidableEq, Repr

/-- `Transfer(L, off, dir, a, w)` with the write policy applied (R100, R104, R112). -/
def transfer (c : Config) (mem : Memory) (L : Line) (a : Nat) : Direction → Transferred
  | .read => ⟨L, mem, L.wordAt (offsetOf c a)⟩
  | .write w =>
    match c.wpol with
    | .writeBack => ⟨{ L.putWord (offsetOf c a) w with dirty := true }, mem, w⟩
    | .writeThrough => ⟨L.putWord (offsetOf c a) w, Memory.writeBytes mem a (beBytes w), w⟩

/-! ### Victim selection (R113 to R118) -/

/-- The way with the smallest recency counter, the lowest index among equals (R117): the first way whose
counter no later way undercuts. -/
def lruVictim : List Line → Nat
  | [] => 0
  | L :: rest => if rest.all (fun M => decide (L.lru ≤ M.lru)) then 0 else lruVictim rest + 1

/-- The first way whose second-chance flag is unset, if one is (R118). -/
def clockHit : List Line → Option Nat
  | [] => none
  | L :: rest => if L.sc then (clockHit rest).map (· + 1) else some 0

/-- The ways after the scan: every flag visited while set is cleared, up to the victim (R118). -/
def clockSweep : List Line → List Line
  | [] => []
  | L :: rest => if L.sc then { L with sc := false } :: clockSweep rest else L :: rest

/-- A chosen way, the set's bookkeeping after the choice, and the number of draws made so far. -/
structure Choice where
  way : Nat
  set : CacheSet
  draws : Nat
deriving DecidableEq, Repr

/-- `Victim(S)` under the configured policy (R113): Random draws (R115, free, log entry 4), FIFO takes the
cursor and moves it (R116), LRU the smallest stamp (R117), Clock the first unset flag, else way 0 (R118). -/
def chooseVictim (c : Config) (draws : Nat) (S : CacheSet) : Choice :=
  match c.repl with
  | .random => ⟨Config.freeWay draws % c.ways, S, draws + 1⟩
  | .fifo => ⟨S.fifo, { S with fifo := (S.fifo + 1) % c.ways }, draws⟩
  | .lru => ⟨lruVictim S.lines, S, draws⟩
  | .clock => ⟨(clockHit S.lines).getD 0, { S with lines := clockSweep S.lines }, draws⟩

/-! ### Hit and miss (R104 to R112) -/

/-- Write a valid dirty victim of set `i` back at its resident base address (R107). -/
def writeBack (c : Config) (mem : Memory) (i : Nat) (L : Line) : Memory :=
  if L.valid && L.dirty then Memory.writeBytes mem (baseOf c L.tag i) L.data else mem

/-- Install the block with tag `t` and fill it (R108, R109). -/
def installed (t stamp : Nat) (data : List Byte) : Line where
  data := data
  tag := t
  valid := true
  dirty := false
  lru := stamp
  sc := true

/-- A completed access: whether it hit, the word, and the state it leaves. -/
structure Completed where
  hit : Bool
  word : Word
  state : State
deriving DecidableEq, Repr

/-- The word a transfer on way `k` delivers (R104, R110). -/
def State.servedWord (s : State) (a k : Nat) (dir : Direction) : Word :=
  (transfer s.cfg s.mem (s.lineOf a k) a dir).word

/-- The transfer on way `k` with its write policy, and the stamp and flag of a line just used (R104, R105,
R112). On a line just installed the stamp and flag already have these values (R110). -/
def State.serve (s : State) (a k : Nat) (dir : Direction) : State :=
  let i := setIndexOf s.cfg a
  let r := transfer s.cfg s.mem (s.lineOf a k) a dir
  { s with
    mem := r.mem
    cache := s.cache.set i ((s.setAt i).putLine k (r.line.touch s.stat.nInstr)) }

/-- The victim choice a miss at address `a` makes (R106 (1)). -/
def State.choice (s : State) (a : Nat) : Choice :=
  chooseVictim s.cfg s.wayDraws (s.setAt (setIndexOf s.cfg a))

/-- Victim, write-back, install and fill, in that order (R106 (1) to (4)). -/
def State.fillLine (s : State) (a : Nat) : State :=
  let i := setIndexOf s.cfg a
  let v := s.choice a
  let mem := writeBack s.cfg s.mem i (v.set.line v.way)
  let fill := Memory.readBytes mem (blockOf s.cfg a * s.cfg.lineSize) s.cfg.lineSize
  { s with
    mem := mem
    cache := s.cache.set i (v.set.putLine v.way (installed (tagOf s.cfg a) s.stat.nInstr fill))
    wayDraws := v.draws }

/-- The hit path on way `k` (R104, R105). -/
def State.hitAccess (s : State) (a : Nat) (dir : Direction) (k : Nat) : Completed :=
  ⟨true, s.servedWord a k dir, { s.serve a k dir with stat := s.stat.countHit }⟩

/-- The miss path: fill a line, then serve the access from it as the hit path would, with the miss counters
in place of the hit's (R106, R110, R111). -/
def State.missAccess (s : State) (a : Nat) (dir : Direction) : Completed :=
  let f := s.fillLine a
  let k := (s.choice a).way
  ⟨false, f.servedWord a k dir,
    { f.serve a k dir with stat := s.stat.countMiss s.cfg.missPenalty }⟩

/-- The part of `CacheAccess` after the two checks (R100): a hit if a way holds the block, else a miss. -/
def State.transact (s : State) (a : Nat) (dir : Direction) : Completed :=
  match s.lookup a with
  | some k => s.hitAccess a dir k
  | none => s.missAccess a dir

/-! ### The access as a whole (R100) -/

/-- Why an access is rejected (R73, R74). -/
inductive Rejection where
  | alignment
  | range
deriving DecidableEq, Repr

/-- The outcome of `CacheAccess` (R59, R100). -/
inductive AccessResult where
  | hit (v : Word)
  | miss (v : Word)
  | rejected (kind : Rejection)
deriving DecidableEq, Repr

/-- Alignment is tested first, range second, on naturals (R73, R74, R75). -/
def rejectionOf (c : Config) (a : Word) : Option Rejection :=
  if a.toNat % 4 ≠ 0 then some .alignment
  else if a.toNat + 4 > c.memSize then some .range
  else none

/-- Who made a data access of this direction: the only accesses that can be rejected are those of `lw` and
`sw` (R76, R301). -/
def Direction.source : Direction → DataSource
  | .read => .load
  | .write _ => .store

/-- The record a rejected access emits (R302, R303). -/
def rejectionReport (kind : Rejection) (d : DataSource) (a : Word) : Report :=
  match kind with
  | .alignment => .alignmentError (.data d) a
  | .range => .rangeError d a

/-- `CacheAccess(a, dir)` (R100). -/
def State.cacheAccess (s : State) (a : Word) (dir : Direction) : AccessResult × State :=
  match rejectionOf s.cfg a with
  | some kind => (.rejected kind, s.report (rejectionReport kind dir.source a))
  | none =>
    let c := s.transact a.toNat dir
    (if c.hit then .hit c.word else .miss c.word, c.state)

end Sys2Proof.Machine
end

