-- ==== Sys2Proof/Machine/LoadStore.lean ====
section
/-! DEFINITION. The memory instructions (spec/45_memory_lw_sw.md R270 to R272). A rejected access emits its
record and the instruction retires all the same; a rejected `lw` writes `UNSPEC32`. -/

namespace Sys2Proof.Machine

/-- The end of a `lw` (R271): the word of a completed access, counted, or `UNSPEC32` after a rejected one. -/
def loadResult (rt : Reg) : AccessResult × State → State
  | (.hit v, s) | (.miss v, s) => (s.countMemAccess.setReg rt v).advance
  | (.rejected _, s) => (s.drawnWord.setReg rt s.unspec32).advance

/-- The end of a `sw` (R272): a completed access is counted. -/
def storeResult : AccessResult × State → State
  | (.hit _, s) | (.miss _, s) => s.countMemAccess.advance
  | (.rejected _, s) => s.advance

/-- `lw` (R271). -/
def execLw (rt rs : Reg) (imm : Imm16) (s : State) : Host.Outcome State Fault Refusal :=
  .next (loadResult rt ((s.dispatched .memory).cacheAccess (effectiveAddress (s.reg rs) imm) .read))

/-- `sw` (R272). -/
def execSw (rt rs : Reg) (imm : Imm16) (s : State) : Host.Outcome State Fault Refusal :=
  .next (storeResult
    ((s.dispatched .memory).cacheAccess (effectiveAddress (s.reg rs) imm) (.write (s.reg rt))))

end Sys2Proof.Machine
end

