-- ==== Sys2Proof/Machine/RType.lean ====
section
/-! DEFINITION. The R-type instructions (spec/41_rtype.md R200 to R216), from the dispatch on: the class
counter, the result and the program counter. -/

namespace Sys2Proof.Machine

/-- What every R-type instruction but `jr` does with its result (R200). -/
def State.rResult (s : State) (rd : Reg) (v : Word) : Host.Outcome State Fault Refusal :=
  .next (((s.dispatched .rType).setReg rd v).advance)

/-- `sll` (R201). -/
def execSll (rd rt : Reg) (shamt : Shamt) (s : State) : Host.Outcome State Fault Refusal :=
  s.rResult rd (s.reg rt <<< shamt.toNat)

/-- `srl` (R202). -/
def execSrl (rd rt : Reg) (shamt : Shamt) (s : State) : Host.Outcome State Fault Refusal :=
  s.rResult rd (s.reg rt >>> shamt.toNat)

/-- `jr` (R216): no register is written and the value is not checked. -/
def execJr (rs : Reg) (s : State) : Host.Outcome State Fault Refusal :=
  .next ((s.dispatched .rType).setPc (s.reg rs))

/-- `add` (R203): wraps, no trap. -/
def execAdd (rd rs rt : Reg) (s : State) : Host.Outcome State Fault Refusal :=
  s.rResult rd (s.reg rs + s.reg rt)

/-- `addu` (R204). -/
def execAddu (rd rs rt : Reg) (s : State) : Host.Outcome State Fault Refusal :=
  s.rResult rd (s.reg rs + s.reg rt)

/-- `sub` (R205): wraps, no trap. -/
def execSub (rd rs rt : Reg) (s : State) : Host.Outcome State Fault Refusal :=
  s.rResult rd (s.reg rs - s.reg rt)

/-- `subu` (R206). -/
def execSubu (rd rs rt : Reg) (s : State) : Host.Outcome State Fault Refusal :=
  s.rResult rd (s.reg rs - s.reg rt)

/-- `and` (R207). -/
def execAnd (rd rs rt : Reg) (s : State) : Host.Outcome State Fault Refusal :=
  s.rResult rd (s.reg rs &&& s.reg rt)

/-- `or` (R208). -/
def execOr (rd rs rt : Reg) (s : State) : Host.Outcome State Fault Refusal :=
  s.rResult rd (s.reg rs ||| s.reg rt)

/-- `xor` (R209). -/
def execXor (rd rs rt : Reg) (s : State) : Host.Outcome State Fault Refusal :=
  s.rResult rd (s.reg rs ^^^ s.reg rt)

/-- `nor` (R210). -/
def execNor (rd rs rt : Reg) (s : State) : Host.Outcome State Fault Refusal :=
  s.rResult rd (~~~(s.reg rs ||| s.reg rt))

/-- `slt` (R211). -/
def execSlt (rd rs rt : Reg) (s : State) : Host.Outcome State Fault Refusal :=
  s.rResult rd (truth (lessSigned (s.reg rs) (s.reg rt)))

/-- `sltu` (R212). -/
def execSltu (rd rs rt : Reg) (s : State) : Host.Outcome State Fault Refusal :=
  s.rResult rd (truth (lessUnsigned (s.reg rs) (s.reg rt)))

end Sys2Proof.Machine
end

