-- ==== Sys2Proof/WellFormed.lean ====
section
/-! DEFINITION. What must hold of a term before the machine gives it a meaning. An instruction needs no
check: every operand has the width of its field (Sys2Proof/Syntax.lean) and all its values are legal
(spec/30_encoding.md R152). A configuration is legal when the clauses of spec/00_scope.md R7 hold. -/

namespace Sys2Proof

/-- R7 (a): a line holds whole aligned words. -/
abbrev Config.LineOk (c : Config) : Prop := 4 ≤ c.lineSize ∧ c.lineSize % 4 = 0

/-- R7 (b): at least one way. -/
abbrev Config.WaysOk (c : Config) : Prop := 1 ≤ c.ways

/-- R7 (c): the size is sets times ways times line size, with at least one set. -/
abbrev Config.GeometryOk (c : Config) : Prop :=
  c.cacheSize = c.setCount * c.ways * c.lineSize ∧ 1 ≤ c.setCount

/-- R7 (d): every line fill and write-back lies wholly inside memory. -/
abbrev Config.MemoryOk (c : Config) : Prop :=
  4 ≤ c.memSize ∧ c.memSize ≤ 2 ^ 32 ∧ c.memSize % c.lineSize = 0

/-- A legal configuration (R7). Clause (e), `MISS_PENALTY >= 0`, holds of every natural number. -/
abbrev Config.Legal (c : Config) : Prop := c.LineOk ∧ c.WaysOk ∧ c.GeometryOk ∧ c.MemoryOk

end Sys2Proof
end

