-- ==== Sys2Proof/Machine/Fetch.lean ====
section
/-! DEFINITION. The part of a step before the dispatch (spec/40_step.md R180 to R187): the halt checks, the
instruction count and the fetch through the cache. -/

namespace Sys2Proof.Machine

/-- What the part of a step before the dispatch leaves: the step ended in a halt check, or a word was
fetched. -/
inductive Fetched where
  | stopped (s : State)
  | word (ir : Word) (s : State)
deriving DecidableEq, Repr

/-- `nInstr += 1` and the fetch, a cache read at the pc that is never rejected (R184, R185, R76). -/
def State.fetchWord (s : State) : Completed := s.countInstr.transact s.pc.toNat .read

/-- The word at the pc is not wholly inside memory (R182). -/
abbrev State.PcOutOfRange (s : State) : Prop := s.pc.toNat + 4 > s.cfg.memSize

/-- The pc is not a multiple of 4 (R183). -/
abbrev State.PcMisaligned (s : State) : Prop := s.pc.toNat % 4 ≠ 0

/-- The halt checks in their order, then count and fetch (R180 to R185). -/
def State.fetch (s : State) : Fetched :=
  if s.pc = s.cfg.haltPc then .stopped (s.setRun (.halted .sentinel))
  else if s.PcOutOfRange then .stopped (s.setRun (.halted .pcOutOfRange))
  else if s.PcMisaligned then .stopped ((s.report (.alignmentError .fetch s.pc)).setRun .faulted)
  else .word s.fetchWord.word s.fetchWord.state

/-- Why a granted step does not begin at all: an illegal configuration is refused (R7, U4), a cache of
another shape than the configuration's faults (log entry 7), and a CORE that is not `Running` does
nothing (R54). -/
def State.blocked (s : State) : Option (Host.Outcome State Fault Refusal) :=
  if ¬ s.cfg.Legal then some (.refused .illegalConfig)
  else if ¬ s.cacheFits then some (.fault .cacheShape)
  else if s.run ≠ .running then some (.next s)
  else none

/-- Lay a word into the place a fetch at `a` reads: main memory, and the line that holds the block if one
does. Used to set up a single instruction; no move of the CORE or of its host (log entry 12). -/
def State.placeWord (s : State) (a : Nat) (w : Word) : State :=
  let i := setIndexOf s.cfg a
  let cache :=
    match s.lookup a with
    | some k => s.cache.set i ((s.setAt i).putLine k ((s.lineOf a k).putWord (offsetOf s.cfg a) w))
    | none => s.cache
  { s with mem := Memory.writeBytes s.mem a (beBytes w), cache := cache, run := .running }

end Sys2Proof.Machine
end

