-- ==== Sys2Proof/Machine/Step.lean ====
section
/-! DEFINITION. One granted step (spec/40_step.md R180, spec/15_interfaces.md R54). -/

namespace Sys2Proof.Machine

/-- Fetch, decode and dispatch of a CORE that may take a step (R180): an unsupported word is reported and
retires as a no-op (R189). -/
def runStep (s : State) : Host.Outcome State Fault Refusal :=
  match s.fetch with
  | .stopped t => .next t
  | .word ir t =>
    match decodeWord ir with
    | some i => exec i t
    | none => .next (t.unsupported ir)

/-- One grant on `STEP` (R54, R180). -/
def step (s : State) : Host.Outcome State Fault Refusal :=
  match s.blocked with
  | some o => o
  | none => runStep s

/-- `s` with the instruction whose table bits are `w` standing where the next fetch reads, big-endian
(R71, R150), and the CORE ready to take the step. -/
def State.withFetchWord (s : State) (nbits w : Nat) : State :=
  s.placeWord s.pc.toNat (BitVec.ofNat 32 (w % 2 ^ nbits))

end Sys2Proof.Machine
end

