-- ==== Sys2Proof/Machine/HostPort.lean ====
section
/-! DEFINITION. What the host may do and read between steps (spec/15_interfaces.md R50 to R60,
spec/70_reset_and_hazards.md R330, R335, spec/50_statistics.md R288). A grant on `STEP` is `step`, a
withheld one holds the state; `RST` with a `CFG` is `State.resetWith`; the host has no move that writes memory, registers, the pc, the cache or the counters
once the run has begun (R60, U6). -/

namespace Sys2Proof.Machine

/-- Why no run begins: the host must never grant `STEP` (R305, R335). -/
inductive BootFailure where
  /-- The configuration is not legal (R7, U4). -/
  | illegalConfig
  /-- The image has more than `MEM_SIZE` bytes (R52, U7). -/
  | imageTooLong
deriving DecidableEq, Repr

/-- Byte `i` of the image goes to `Mem[i]`, bypassing the cache, whose lines are all invalid (R52). -/
def State.loadImage (s : State) (image : List Byte) : State :=
  { s with mem := Memory.writeBytes s.mem 0 image }

/-- The duties of R335 before the first step: legal `CFG`, `RST`, image. -/
def boot (c : Config) (image : List Byte) : Except BootFailure State :=
  if ¬ c.Legal then .error .illegalConfig
  else if image.length > c.memSize then .error .imageTooLong
  else .ok ((State.resetWith c).loadImage image)

/-- What the host can do to a booted CORE between two steps (R54, R60, R310, R330). Its reads are no moves: they
have no side effect (R53, R56). -/
inductive HostMove where
  /-- Permission for one step on `STEP`. -/
  | grant
  /-- `STEP` is not granted, for any length of time. -/
  | withhold
  /-- `RST` with the configuration on `CFG`. -/
  | reset (c : Config)
deriving DecidableEq, Repr

/-- What one move does: a grant is exactly one step (R54); a CORE that is not granted `STEP` holds all state,
there being no sleep or wait state to enter (R325); a reset leaves nothing of the state before it (R330). -/
def State.onMove (s : State) : HostMove → Host.Outcome State Fault Refusal
  | .grant => step s
  | .withhold => .next s
  | .reset c => .next (State.resetWith c)

/-- The moves of a host in their order; a fault or a refusal ends the series. -/
def State.onMoves (s : State) : List HostMove → Host.Outcome State Fault Refusal
  | [] => .next s
  | m :: ms =>
    match s.onMove m with
    | .next t => t.onMoves ms
    | .fault f => .fault f
    | .refused r => .refused r

/-- A host read of `Mem`, not of `ArchMem`; no side effect (R53). -/
def State.hostRead (s : State) (a : Nat) : Option Byte :=
  if a < s.cfg.memSize then some (Memory.read s.mem a) else none

/-- `halted = (run != Running)` of `STATUS` (R50, R55). -/
def State.halted (s : State) : Bool := decide (s.run ≠ .running)

/-- `fault = (run = Faulted)` of `STATUS` (R50, R55). -/
def State.faultFlag (s : State) : Bool := decide (s.run = .faulted)

/-- AMAT, an exact rational computed from the counters and not stored (R288). -/
def State.amat (s : State) : Rat :=
  if s.stat.nHit + s.stat.nMiss = 0 then (Config.hitTime : Rat)
  else (Config.hitTime : Rat)
    + (s.stat.nMiss : Rat) / ((s.stat.nHit + s.stat.nMiss : Nat) : Rat) * (s.cfg.missPenalty : Rat)

end Sys2Proof.Machine
end

