-- ==== Sys2Proof/Safety.lean ====
section
/-! DEFINITION. The terms claims are made in: which ends of a run are successful (spec/40_step.md R192), the
invariants of the state (spec/10_state.md R30, spec/50_statistics.md R283), and what it means that an
instruction leaves something unchanged. -/

namespace Sys2Proof.Machine

/-! ### Numbers (R10, R11) -/

/-- The two's-complement reading of a word (R10). -/
def signed (w : Word) : Int := if w.toNat < 2 ^ 31 then (w.toNat : Int) else (w.toNat : Int) - 2 ^ 32

/-- The number a sign-extended immediate stands for (R11, R153). -/
def signedImm (imm : Imm16) : Int :=
  if imm.toNat < 2 ^ 15 then (imm.toNat : Int) else (imm.toNat : Int) - 2 ^ 16

/-! ### Which registers an instruction reads and writes (R23) -/

/-- The register field an instruction writes (R23). -/
def destReg : Instr → Option Reg
  | .sll rd _ _ | .srl rd _ _ | .add rd _ _ | .addu rd _ _ | .sub rd _ _ | .subu rd _ _
  | .and rd _ _ | .or rd _ _ | .xor rd _ _ | .nor rd _ _ | .slt rd _ _ | .sltu rd _ _ => some rd
  | .jal _ => some 31#5
  | .addi rt _ _ | .addiu rt _ _ | .slti rt _ _ | .sltiu rt _ _ | .andi rt _ _ | .ori rt _ _
  | .xori rt _ _ | .lui rt _ | .lw rt _ _ => some rt
  | .jr _ | .j _ | .beq _ _ _ | .bne _ _ _ | .sw _ _ _ => none

/-- The register fields an instruction reads (R23). -/
def readRegs : Instr → List Reg
  | .add _ rs rt | .addu _ rs rt | .sub _ rs rt | .subu _ rs rt | .and _ rs rt | .or _ rs rt
  | .xor _ rs rt | .nor _ rs rt | .slt _ rs rt | .sltu _ rs rt => [rs, rt]
  | .sll _ rt _ | .srl _ rt _ => [rt]
  | .jr rs => [rs]
  | .j _ | .jal _ | .lui _ _ => []
  | .beq rs rt _ | .bne rs rt _ => [rs, rt]
  | .addi _ rs _ | .addiu _ rs _ | .slti _ rs _ | .sltiu _ rs _ | .andi _ rs _ | .ori _ rs _
  | .xori _ rs _ => [rs]
  | .lw _ rs _ => [rs]
  | .sw rt rs _ => [rs, rt]

/-! ### Ends of a run -/

/-- A successful end: a halt check ended the run (R32, R192). -/
abbrev State.Successful (s : State) : Prop := s.run = .halted .sentinel ∨ s.run = .halted .pcOutOfRange

/-- The fault state of a misaligned fetch, never a successful end (R183, U1). -/
abbrev State.IsFaultState (s : State) : Prop := s.run = .faulted

/-- No condition has been reported (R192). -/
abbrev State.ErrorFree (s : State) : Prop := s.reports = []

/-- The step that is granted now begins: legal configuration, cache of the configured shape, `Running`. -/
abbrev State.Ready (s : State) : Prop := s.cfg.Legal ∧ s.cacheFits = true ∧ s.run = .running

/-- The pc passes the three checks before the fetch (R181, R182, R183). -/
abbrev State.PcFetchable (s : State) : Prop :=
  s.pc ≠ s.cfg.haltPc ∧ ¬ s.PcOutOfRange ∧ ¬ s.PcMisaligned

/-- An address a word access may use: aligned and in range (R73, R74). -/
abbrev AccessOk (c : Config) (a : Word) : Prop := a.toNat % 4 = 0 ∧ a.toNat + 4 ≤ c.memSize

/-! ### Invariants -/

/-- R30 (a): at most one valid line per set carries a given tag. -/
def State.UniqueTags (s : State) : Prop :=
  ∀ i k k', i < s.cfg.setCount → k < s.cfg.ways → k' < s.cfg.ways →
    (s.lineAt i k).valid = true → (s.lineAt i k').valid = true →
    (s.lineAt i k).tag = (s.lineAt i k').tag → k = k'

/-- R30 (b): a dirty line is valid, and there is one only under `WriteBack`. -/
def State.DirtyOk (s : State) : Prop :=
  ∀ i k, i < s.cfg.setCount → k < s.cfg.ways → (s.lineAt i k).dirty = true →
    (s.lineAt i k).valid = true ∧ s.cfg.wpol = .writeBack

/-- R30 (c): a resident block lies inside memory. -/
def State.ResidentInMemory (s : State) : Prop :=
  ∀ i k, i < s.cfg.setCount → k < s.cfg.ways → (s.lineAt i k).valid = true →
    ((s.lineAt i k).tag * s.cfg.setCount + i + 1) * s.cfg.lineSize ≤ s.cfg.memSize

/-- R30 (d): a clean valid line holds what memory holds at its resident address. -/
def State.CleanCoherent (s : State) : Prop :=
  ∀ i k j, i < s.cfg.setCount → k < s.cfg.ways → j < s.cfg.lineSize →
    (s.lineAt i k).valid = true → (s.lineAt i k).dirty = false →
    (s.lineAt i k).byteAt j = Memory.read s.mem (baseOf s.cfg (s.lineAt i k).tag i + j)

/-- R30 (f): the stamp of a valid line is at least 1 and at most the instruction count. -/
def State.StampsOk (s : State) : Prop :=
  ∀ i k, i < s.cfg.setCount → k < s.cfg.ways → (s.lineAt i k).valid = true →
    1 ≤ (s.lineAt i k).lru ∧ (s.lineAt i k).lru ≤ s.stat.nInstr

/-- Main memory has `MEM_SIZE` bytes: nothing is stored at or above it (R27, R77 (d)). -/
def State.MemInRange (s : State) : Prop := ∀ a, s.cfg.memSize ≤ a → Memory.read s.mem a = 0#8

/-- The state is one the CORE can be in: R30 (a) to (f) of the cache ((e) is part of `cacheFits`), a legal
configuration, memory in canonical form and in range, and the slot of register 0 at 0. -/
structure State.Inv (s : State) : Prop where
  legal : s.cfg.Legal
  fits : s.cacheFits = true
  memWf : Memory.wf s.mem = true
  memInRange : s.MemInRange
  regZero : s.regs[0] = 0#32
  unique : s.UniqueTags
  dirty : s.DirtyOk
  resident : s.ResidentInMemory
  coherent : s.CleanCoherent
  stamps : s.StampsOk

/-- The number of `UnsupportedInstruction` records (R283 (a)). -/
def countUnsupported : List Report → Nat
  | [] => 0
  | .unsupportedInstruction _ _ :: rs => countUnsupported rs + 1
  | _ :: rs => countUnsupported rs

/-- The number of `Load` and `Store` alignment and range records (R283 (d)). -/
def countRejected : List Report → Nat
  | [] => 0
  | .alignmentError (.data _) _ :: rs => countRejected rs + 1
  | .rangeError _ _ :: rs => countRejected rs + 1
  | _ :: rs => countRejected rs

/-- The relations of R283. -/
structure State.StatsBalanced (s : State) : Prop where
  instr : s.stat.nInstr = s.stat.nRType + s.stat.nJump + s.stat.nBranch + s.stat.nImmAlu
    + s.stat.nMemory + countUnsupported s.reports
  accesses : s.stat.nHit + s.stat.nMiss = s.stat.nInstr + s.stat.nMemAccess
  cycles : s.stat.cycles = s.stat.nHit * Config.hitTime + s.stat.nMiss * s.cfg.missPenalty
  taken : s.stat.nBranchTaken ≤ s.stat.nBranch
  rejected : s.stat.nMemory = s.stat.nMemAccess + countRejected s.reports

/-! ### What is left unchanged -/

/-- Every byte of main memory, every byte a load would see, and the cache are as before. -/
structure SameMemory (s t : State) : Prop where
  bytes : ∀ a, Memory.read t.mem a = Memory.read s.mem a
  arch : ∀ a, t.archMem a = s.archMem a
  cache : t.cache = s.cache

/-- Every register but `r` reads as before. -/
def OtherRegs (s t : State) (r : Reg) : Prop := ∀ q, q ≠ r → t.reg q = s.reg q

/-- Every register reads as before. -/
def SameRegs (s t : State) : Prop := ∀ q, t.reg q = s.reg q

/-- Every byte a load would see is as before (R37). -/
def SameArch (s t : State) : Prop := ∀ b, t.archMem b = s.archMem b

/-- Main memory after an access at `a` that stores nothing into it: the bytes of a valid dirty victim, if
the access misses, are written back, and every other byte is as before (R107). -/
def EvictedOnly (s t : State) (a : Nat) : Prop :=
  let i := setIndexOf s.cfg a
  let L := s.lineOf a (s.choice a).way
  ∀ b, Memory.read t.mem b =
    if s.lookup a = none ∧ L.valid = true ∧ L.dirty = true ∧ baseOf s.cfg L.tag i ≤ b ∧
        b < baseOf s.cfg L.tag i + s.cfg.lineSize
    then L.byteAt (b - baseOf s.cfg L.tag i)
    else Memory.read s.mem b

/-- `t` has the main memory, the cache (every line's bytes, tag, flags and stamp, every cursor) and the count
of `Random` draws that `CacheAccess(a, dir)` leaves in `s` (R100): the access's whole effect beside the
counters and the record. -/
structure CacheEffects (s t : State) (a : Word) (dir : Direction) : Prop where
  mem : t.mem = (s.cacheAccess a dir).2.mem
  cache : t.cache = (s.cacheAccess a dir).2.cache
  wayDraws : t.wayDraws = (s.cacheAccess a dir).2.wayDraws

/-- The block of address `a` is resident in `t`, in a line used last at `stamp` with its second-chance flag
set (R105, R108). -/
def JustUsed (t : State) (a stamp : Nat) : Prop :=
  ∃ k, t.lookup a = some k ∧ (t.lineOf a k).lru = stamp ∧ (t.lineOf a k).sc = true

/-- The counters a completed access moves, by whether it hit (R105, R111). -/
def accessStats (st : Stats) (hit : Bool) (penalty : Nat) : Stats :=
  if hit then { st with nHit := st.nHit + 1, cycles := st.cycles + 1 }
  else { st with nMiss := st.nMiss + 1, cycles := st.cycles + penalty }

/-- Configuration, run state, report records and the model's own draw counters are as before. -/
structure SameRest (s t : State) : Prop where
  cfg : t.cfg = s.cfg
  run : t.run = s.run
  reports : t.reports = s.reports
  wordDraws : t.wordDraws = s.wordDraws
  wayDraws : t.wayDraws = s.wayDraws

/-- What an instruction that only computes a register leaves: `r` holds `v` (0 if it is register 0), every
other register and all of memory are as before, the class counter `st` is the only counter moved, and the
pc is at the next instruction. -/
structure RegisterOnly (s t : State) (r : Reg) (v : Word) (st : Stats) : Prop where
  dest : t.reg r = if r = 0#5 then 0#32 else v
  others : OtherRegs s t r
  pc : t.pc = s.pc + 4#32
  memory : SameMemory s t
  stat : t.stat = st
  rest : SameRest s t

/-- What an instruction that only moves the pc leaves: no register and no byte of memory is changed. -/
structure PcOnly (s t : State) (pc : Word) (st : Stats) : Prop where
  regs : SameRegs s t
  pc : t.pc = pc
  memory : SameMemory s t
  stat : t.stat = st
  rest : SameRest s t

/-- Two states a program cannot tell apart: same registers, pc, run state, reports, `UNSPEC32` draws, memory
size and sentinel, and the same bytes for every load. Geometry, policies, cache content, main memory under
dirty lines and counters may differ. -/
structure SameProgramView (s t : State) : Prop where
  regs : ∀ q, s.reg q = t.reg q
  pc : s.pc = t.pc
  run : s.run = t.run
  reports : s.reports = t.reports
  wordDraws : s.wordDraws = t.wordDraws
  memSize : s.cfg.memSize = t.cfg.memSize
  haltPc : s.cfg.haltPc = t.cfg.haltPc
  arch : ∀ a, s.archMem a = t.archMem a

end Sys2Proof.Machine
end

