-- ==== Sys2Proof/Certificates/Slice0/Obligations.lean ====
section
/-! DEFINITION. The statements for the provers. Each docstring names the rules of spec/ it formalises; a
statement without a numbered rule stated whole says what it is derived from. -/

open Sys2Proof Sys2Proof.Machine

/-! ### Encoding -/

/-- Decoding the word of an instruction gives the instruction back, at every value of every field, and
`decode` consumes exactly its four big-endian bytes. Derived: 30_encoding.md R150 to R156. -/
def Obligations.EncodeThenDecode : Prop :=
  ∀ i : Instr, decodeWord (encode i) = some i ∧
    ∀ rest, decode (beBytes (encode i) ++ rest) = .ok (i, rest)

/-- R157: the fields an instruction does not use are ignored: a word decodes to `i` exactly when its used
bits are those of `i`; the masks are those of the table; every word is matched by at most one row; and a
word is an instruction exactly when some row matches it. -/
def Obligations.UnusedFieldsAreIgnored : Prop :=
  (∀ w i, decodeWord w = some i ↔ w &&& usedBits i = encode i) ∧
  (∀ w i, decodeWord w = some i → (w &&& tableMask i, tableMask i) ∈ opcodeRows) ∧
  (∀ w, (∃ i, decodeWord w = some i) ↔ ∃ r ∈ opcodeRows, w &&& r.2 = r.1) ∧
  (∀ r ∈ opcodeRows, ∀ q ∈ opcodeRows, ∀ w : Word, w &&& r.2 = r.1 → w &&& q.2 = q.1 → r = q)

/-- A word selects no instruction exactly when its primary opcode is one of the 49 outside the map, or it is
0 and the function code is one of the 51 outside the function map. Derived: 30_encoding.md R154 to R156,
R158. -/
def Obligations.UnsupportedOutsideTheMaps : Prop :=
  ∀ w, decodeWord w = none ↔
    (opField w ≠ 0 ∧ opField w ∉ [0x02#6, 0x03#6, 0x04#6, 0x05#6, 0x08#6, 0x09#6, 0x0A#6, 0x0B#6,
        0x0C#6, 0x0D#6, 0x0E#6, 0x0F#6, 0x23#6, 0x2B#6]) ∨
    (opField w = 0 ∧ functField w ∉ [0x00#6, 0x02#6, 0x08#6, 0x20#6, 0x21#6, 0x22#6, 0x23#6, 0x24#6,
        0x25#6, 0x26#6, 0x27#6, 0x2A#6, 0x2B#6])

/-- The five words of the source's end-to-end image, from its bytes (a sanity statement). Derived:
30_encoding.md R162, which marks the words as derived. -/
def Obligations.WorkedEncodingsDecode : Prop :=
  decode [0x20#8, 0x01#8, 0x00#8, 0x05#8] = .ok (.addi 1#5 0#5 5#16, []) ∧
  decode [0x20#8, 0x02#8, 0x00#8, 0x07#8] = .ok (.addi 2#5 0#5 7#16, []) ∧
  decode [0x00#8, 0x22#8, 0x18#8, 0x20#8] = .ok (.add 3#5 1#5 2#5, []) ∧
  decode [0xAC#8, 0x03#8, 0x00#8, 0x00#8] = .ok (.sw 3#5 0#5 0#16, []) ∧
  decode [0x8C#8, 0x04#8, 0x00#8, 0x00#8] = .ok (.lw 4#5 0#5 0#16, [])

/-- Byte order: the byte at the lowest address is the most significant, packing undoes unpacking, and the
bytes of a word are its bit fields from the top down. Derived: 20_memory.md R71 (its definitions of BE32
and BEbytes; that loads, stores and fetches use them is in the statements of the accesses). -/
def Obligations.BigEndianPacking : Prop :=
  (∀ b0 b1 b2 b3 : Byte, (be32 b0 b1 b2 b3).toNat =
    b0.toNat * 2 ^ 24 + b1.toNat * 2 ^ 16 + b2.toNat * 2 ^ 8 + b3.toNat) ∧
  (∀ w : Word, ∃ b0 b1 b2 b3, beBytes w = [b0, b1, b2, b3] ∧ be32 b0 b1 b2 b3 = w ∧
    b0.toNat = w.toNat / 2 ^ 24 ∧ b1.toNat = w.toNat / 2 ^ 16 % 2 ^ 8 ∧
    b2.toNat = w.toNat / 2 ^ 8 % 2 ^ 8 ∧ b3.toNat = w.toNat % 2 ^ 8)

/-! ### R-type -/

/-- R201, R202: `sll` and `srl`: encoding, result (zeros enter, bits shifted out are lost), no flags and no
report, only `nRType` counted, next word in sequence. -/
def Obligations.ShiftResults : Prop :=
  (∀ w, opField w = 0 → functField w = 0x00#6 →
    decodeWord w = some (.sll (rdField w) (rtField w) (shamtField w))) ∧
  (∀ w, opField w = 0 → functField w = 0x02#6 →
    decodeWord w = some (.srl (rdField w) (rtField w) (shamtField w))) ∧
  ∀ (rd rt : Reg) (shamt : Shamt) (s : State),
    (∃ t, exec (.sll rd rt shamt) s = .next t ∧
      RegisterOnly s t rd (BitVec.ofNat 32 ((s.reg rt).toNat * 2 ^ shamt.toNat))
        { s.stat with nRType := s.stat.nRType + 1 }) ∧
    (∃ t, exec (.srl rd rt shamt) s = .next t ∧
      RegisterOnly s t rd (BitVec.ofNat 32 ((s.reg rt).toNat / 2 ^ shamt.toNat))
        { s.stat with nRType := s.stat.nRType + 1 })

/-- R203, R204, R205, R206: `add`, `addu`, `sub`, `subu`: encoding, the wrapped sum or difference, no
overflow report and no trap, only `nRType` counted. (The spec marks the absence of a trap as its decision
D19.) -/
def Obligations.AddSubtractResults : Prop :=
  (∀ w, opField w = 0 → functField w = 0x20#6 →
    decodeWord w = some (.add (rdField w) (rsField w) (rtField w))) ∧
  (∀ w, opField w = 0 → functField w = 0x21#6 →
    decodeWord w = some (.addu (rdField w) (rsField w) (rtField w))) ∧
  (∀ w, opField w = 0 → functField w = 0x22#6 →
    decodeWord w = some (.sub (rdField w) (rsField w) (rtField w))) ∧
  (∀ w, opField w = 0 → functField w = 0x23#6 →
    decodeWord w = some (.subu (rdField w) (rsField w) (rtField w))) ∧
  ∀ (rd rs rt : Reg) (s : State),
    let sum : Word := BitVec.ofNat 32 ((s.reg rs).toNat + (s.reg rt).toNat)
    let difference : Word := BitVec.ofInt 32 ((s.reg rs).toNat - (s.reg rt).toNat : Int)
    let st : Stats := { s.stat with nRType := s.stat.nRType + 1 }
    (∃ t, exec (.add rd rs rt) s = .next t ∧ RegisterOnly s t rd sum st) ∧
    (∃ t, exec (.addu rd rs rt) s = .next t ∧ RegisterOnly s t rd sum st) ∧
    (∃ t, exec (.sub rd rs rt) s = .next t ∧ RegisterOnly s t rd difference st) ∧
    (∃ t, exec (.subu rd rs rt) s = .next t ∧ RegisterOnly s t rd difference st)

/-- R207, R208, R209, R210: `and`, `or`, `xor`, `nor`: encoding and every bit of the result. -/
def Obligations.LogicResults : Prop :=
  (∀ w, opField w = 0 → functField w = 0x24#6 →
    decodeWord w = some (.and (rdField w) (rsField w) (rtField w))) ∧
  (∀ w, opField w = 0 → functField w = 0x25#6 →
    decodeWord w = some (.or (rdField w) (rsField w) (rtField w))) ∧
  (∀ w, opField w = 0 → functField w = 0x26#6 →
    decodeWord w = some (.xor (rdField w) (rsField w) (rtField w))) ∧
  (∀ w, opField w = 0 → functField w = 0x27#6 →
    decodeWord w = some (.nor (rdField w) (rsField w) (rtField w))) ∧
  ∀ (rd rs rt : Reg) (s : State),
    let a := s.reg rs
    let b := s.reg rt
    let st : Stats := { s.stat with nRType := s.stat.nRType + 1 }
    let bitwise := fun (t : State) (f : Bool → Bool → Bool) =>
      ∃ v : Word, RegisterOnly s t rd v st ∧
        ∀ n, n < 32 → v.getLsbD n = f (a.getLsbD n) (b.getLsbD n)
    (∃ t, exec (.and rd rs rt) s = .next t ∧ bitwise t fun x y => x && y) ∧
    (∃ t, exec (.or rd rs rt) s = .next t ∧ bitwise t fun x y => x || y) ∧
    (∃ t, exec (.xor rd rs rt) s = .next t ∧ bitwise t fun x y => x != y) ∧
    (∃ t, exec (.nor rd rs rt) s = .next t ∧ bitwise t fun x y => !(x || y))

/-- R211, R212: `slt` compares as two's complement, `sltu` as unsigned, exactly; 1 or 0 goes to the
destination and to no flag. -/
def Obligations.SetOnLessResults : Prop :=
  (∀ w, opField w = 0 → functField w = 0x2A#6 →
    decodeWord w = some (.slt (rdField w) (rsField w) (rtField w))) ∧
  (∀ w, opField w = 0 → functField w = 0x2B#6 →
    decodeWord w = some (.sltu (rdField w) (rsField w) (rtField w))) ∧
  ∀ (rd rs rt : Reg) (s : State),
    let st : Stats := { s.stat with nRType := s.stat.nRType + 1 }
    (∃ t, exec (.slt rd rs rt) s = .next t ∧
      RegisterOnly s t rd (if signed (s.reg rs) < signed (s.reg rt) then 1#32 else 0#32) st) ∧
    (∃ t, exec (.sltu rd rs rt) s = .next t ∧
      RegisterOnly s t rd (if (s.reg rs).toNat < (s.reg rt).toNat then 1#32 else 0#32) st)

/-- R216: `jr`: encoding, the pc is the register's value unchecked, nothing but `nRType` is counted; the
next step deals with the value: sentinel halt, range halt, or `Faulted` for a misaligned one in range. -/
def Obligations.JumpRegister : Prop :=
  (∀ w, opField w = 0 → functField w = 0x08#6 → decodeWord w = some (.jr (rsField w))) ∧
  ∀ (rs : Reg) (s : State), ∃ t, exec (.jr rs) s = .next t ∧
    PcOnly s t (s.reg rs) { s.stat with nRType := s.stat.nRType + 1 } ∧
    (s.Ready →
      (s.reg rs = s.cfg.haltPc → step t = .next { t with run := .halted .sentinel }) ∧
      (s.reg rs ≠ s.cfg.haltPc → (s.reg rs).toNat + 4 > s.cfg.memSize →
        step t = .next { t with run := .halted .pcOutOfRange }) ∧
      (s.reg rs ≠ s.cfg.haltPc → (s.reg rs).toNat + 4 ≤ s.cfg.memSize → (s.reg rs).toNat % 4 ≠ 0 →
        ∃ u, step t = .next u ∧ u.run = .faulted))

/-! ### Jumps and branches -/

/-- R230, R231: `j` and `jal`: encoding, target formed from the jump's own address, `jal` links `pc + 4` in
register 31, which is never register 0; only `nJump` is counted; the target is a multiple of 4. -/
def Obligations.JumpResults : Prop :=
  (∀ w, opField w = 0x02#6 → decodeWord w = some (.j (targetField w))) ∧
  (∀ w, opField w = 0x03#6 → decodeWord w = some (.jal (targetField w))) ∧
  ∀ (target : Target) (s : State),
    let dest : Word := (s.pc &&& 0xF0000000#32) ||| (target.zeroExtend 32 <<< 2)
    let st : Stats := { s.stat with nJump := s.stat.nJump + 1 }
    dest.toNat % 4 = 0 ∧
    (∃ t, exec (.j target) s = .next t ∧ PcOnly s t dest st) ∧
    (∃ t, exec (.jal target) s = .next t ∧ t.reg 31#5 = s.pc + 4#32 ∧ OtherRegs s t 31#5 ∧
      t.pc = dest ∧ SameMemory s t ∧ t.stat = st ∧ SameRest s t)

/-- R240, R241, R242: `beq` and `bne`: encoding, `nBranch` always and `nBranchTaken` when the condition
holds (a taken branch with `imm = 0` included), target `pc + 4 + sext(imm) * 4` modulo 2^32, at most 131072
bytes back and 131068 on, aligned if the pc is; no register written. -/
def Obligations.BranchResults : Prop :=
  (∀ w, opField w = 0x04#6 → decodeWord w = some (.beq (rsField w) (rtField w) (immField w))) ∧
  (∀ w, opField w = 0x05#6 → decodeWord w = some (.bne (rsField w) (rtField w) (immField w))) ∧
  ∀ (rs rt : Reg) (imm : Imm16) (s : State),
    let target : Word := BitVec.ofInt 32 (s.pc.toNat + 4 + signedImm imm * 4)
    let st : Stats := { s.stat with nBranch := s.stat.nBranch + 1 }
    let taken : Stats := { st with nBranchTaken := s.stat.nBranchTaken + 1 }
    signedImm imm * 4 ≤ 131068 ∧ -131072 ≤ signedImm imm * 4 ∧
    (s.pc.toNat % 4 = 0 → target.toNat % 4 = 0) ∧
    (s.reg rs = s.reg rt →
      (∃ t, exec (.beq rs rt imm) s = .next t ∧ PcOnly s t target taken) ∧
      (∃ t, exec (.bne rs rt imm) s = .next t ∧ PcOnly s t (s.pc + 4#32) st)) ∧
    (s.reg rs ≠ s.reg rt →
      (∃ t, exec (.beq rs rt imm) s = .next t ∧ PcOnly s t (s.pc + 4#32) st) ∧
      (∃ t, exec (.bne rs rt imm) s = .next t ∧ PcOnly s t target taken))

/-! ### Immediate ALU -/

/-- R251, R252: `addi` and `addiu`: encoding, the wrapped sum with the sign-extended immediate, no trap. -/
def Obligations.AddImmediateResults : Prop :=
  (∀ w, opField w = 0x08#6 → decodeWord w = some (.addi (rtField w) (rsField w) (immField w))) ∧
  (∀ w, opField w = 0x09#6 → decodeWord w = some (.addiu (rtField w) (rsField w) (immField w))) ∧
  ∀ (rt rs : Reg) (imm : Imm16) (s : State),
    let sum : Word := BitVec.ofInt 32 ((s.reg rs).toNat + signedImm imm)
    let st : Stats := { s.stat with nImmAlu := s.stat.nImmAlu + 1 }
    (∃ t, exec (.addi rt rs imm) s = .next t ∧ RegisterOnly s t rt sum st) ∧
    (∃ t, exec (.addiu rt rs imm) s = .next t ∧ RegisterOnly s t rt sum st)

/-- R253, R254: `slti` compares with the sign-extended immediate as two's complement; `sltiu` compares with
the same 32 bits as unsigned. -/
def Obligations.SetOnLessImmediateResults : Prop :=
  (∀ w, opField w = 0x0A#6 → decodeWord w = some (.slti (rtField w) (rsField w) (immField w))) ∧
  (∀ w, opField w = 0x0B#6 → decodeWord w = some (.sltiu (rtField w) (rsField w) (immField w))) ∧
  ∀ (rt rs : Reg) (imm : Imm16) (s : State),
    let st : Stats := { s.stat with nImmAlu := s.stat.nImmAlu + 1 }
    let extended : Nat := if imm.toNat < 2 ^ 15 then imm.toNat else imm.toNat + (2 ^ 32 - 2 ^ 16)
    (∃ t, exec (.slti rt rs imm) s = .next t ∧
      RegisterOnly s t rt (if signed (s.reg rs) < signedImm imm then 1#32 else 0#32) st) ∧
    (∃ t, exec (.sltiu rt rs imm) s = .next t ∧
      RegisterOnly s t rt (if (s.reg rs).toNat < extended then 1#32 else 0#32) st)

/-- R255, R256, R257: `andi`, `ori`, `xori`: encoding, the low half bit by bit with the immediate; the upper
half is 0 after `andi` and passes through after `ori` and `xori` (zero extension). -/
def Obligations.LogicImmediateResults : Prop :=
  (∀ w, opField w = 0x0C#6 → decodeWord w = some (.andi (rtField w) (rsField w) (immField w))) ∧
  (∀ w, opField w = 0x0D#6 → decodeWord w = some (.ori (rtField w) (rsField w) (immField w))) ∧
  (∀ w, opField w = 0x0E#6 → decodeWord w = some (.xori (rtField w) (rsField w) (immField w))) ∧
  ∀ (rt rs : Reg) (imm : Imm16) (s : State),
    let a := s.reg rs
    let st : Stats := { s.stat with nImmAlu := s.stat.nImmAlu + 1 }
    let halves := fun (t : State) (low : Bool → Bool → Bool) (high : Bool → Bool) =>
      ∃ v : Word, RegisterOnly s t rt v st ∧
        (∀ n, n < 16 → v.getLsbD n = low (a.getLsbD n) (imm.getLsbD n)) ∧
        (∀ n, 16 ≤ n → n < 32 → v.getLsbD n = high (a.getLsbD n))
    (∃ t, exec (.andi rt rs imm) s = .next t ∧ halves t (fun x y => x && y) fun _ => false) ∧
    (∃ t, exec (.ori rt rs imm) s = .next t ∧ halves t (fun x y => x || y) fun x => x) ∧
    (∃ t, exec (.xori rt rs imm) s = .next t ∧ halves t (fun x y => x != y) fun x => x)

/-- R258: `lui`: encoding (`rs` ignored), the immediate in the upper half, 0 in the lower. -/
def Obligations.LoadUpperImmediate : Prop :=
  (∀ w, opField w = 0x0F#6 → decodeWord w = some (.lui (rtField w) (immField w))) ∧
  ∀ (rt : Reg) (imm : Imm16) (s : State), ∃ t, exec (.lui rt imm) s = .next t ∧
    RegisterOnly s t rt (BitVec.ofNat 32 (imm.toNat * 2 ^ 16))
      { s.stat with nImmAlu := s.stat.nImmAlu + 1 }

/-! ### Memory instructions -/

/-- A `lw` whose address is aligned and in range: encoding; the destination receives the word a load
sees there; one access is counted, a hit exactly when the block is resident; no other register and no byte
a load sees changes, and main memory changes only by the write-back of a dirty victim. Memory, cache and
`Random` draws are those `CacheAccess(ea, Read)` leaves once the class is counted, so that the statements of
the access apply to every `lw`; hit or miss, the block is resident afterwards, stamped with this
instruction's count and flagged. Premises: the invariants and a counted fetch, as in every step. Derived:
45_memory_lw_sw.md R270, R271, the part about a completed access. -/
def Obligations.LoadWordCompletes : Prop :=
  (∀ w, opField w = 0x23#6 → decodeWord w = some (.lw (rtField w) (rsField w) (immField w))) ∧
  ∀ (rt rs : Reg) (imm : Imm16) (s : State),
    let ea : Word := BitVec.ofInt 32 ((s.reg rs).toNat + signedImm imm)
    s.Inv → 1 ≤ s.stat.nInstr → AccessOk s.cfg ea →
    ∃ t, exec (.lw rt rs imm) s = .next t ∧
      t.reg rt = (if rt = 0#5 then 0#32 else s.archWord ea.toNat) ∧ OtherRegs s t rt ∧
      t.pc = s.pc + 4#32 ∧ SameArch s t ∧ EvictedOnly s t ea.toNat ∧
      CacheEffects (s.dispatched .memory) t ea .read ∧ JustUsed t ea.toNat s.stat.nInstr ∧
      t.stat = accessStats { s.stat with nMemory := s.stat.nMemory + 1,
                                         nMemAccess := s.stat.nMemAccess + 1 }
        (s.lookup ea.toNat).isSome s.cfg.missPenalty ∧
      t.cfg = s.cfg ∧ t.run = s.run ∧ t.reports = s.reports ∧ t.wordDraws = s.wordDraws

/-- A `lw` whose address is misaligned or out of range: one record (alignment tested first), the instruction
retires, only `nMemory` is counted, nothing in cache or memory changes, and the destination receives the
next `UNSPEC32` draw, whatever it is. Derived: 45_memory_lw_sw.md R270, R271; the draw is the model's free
value of log entry 3. -/
def Obligations.LoadWordRejected : Prop :=
  ∀ (rt rs : Reg) (imm : Imm16) (s : State),
    let ea : Word := BitVec.ofInt 32 ((s.reg rs).toNat + signedImm imm)
    let rejected := fun (r : Report) => ∃ t, exec (.lw rt rs imm) s = .next t ∧
      t.reg rt = (if rt = 0#5 then 0#32 else Config.freeWord s.wordDraws) ∧
      t.wordDraws = s.wordDraws + 1 ∧ OtherRegs s t rt ∧ t.pc = s.pc + 4#32 ∧ SameMemory s t ∧
      t.stat = { s.stat with nMemory := s.stat.nMemory + 1 } ∧ t.reports = s.reports ++ [r] ∧
      t.cfg = s.cfg ∧ t.run = s.run ∧ t.wayDraws = s.wayDraws
    (ea.toNat % 4 ≠ 0 → rejected (.alignmentError (.data .load) ea)) ∧
    (ea.toNat % 4 = 0 → s.cfg.memSize < ea.toNat + 4 → rejected (.rangeError .load ea))

/-- A `sw` whose address is aligned and in range: encoding; the four bytes a load sees there are
`BEbytes(x[rt])` and every other byte is as before; under `WriteThrough` the same four bytes stand in main
memory too, under `WriteBack` main memory changes only by the write-back of a dirty victim (never at the
four bytes) and the line is dirty; no register is written; a miss fills the line, so the block is resident
after, stamped and flagged as after a `lw`. Memory, cache and `Random` draws are those
`CacheAccess(ea, Write, x[rt])` leaves once the class is counted. Premises as for `LoadWordCompletes`. Derived: 45_memory_lw_sw.md R270, R272, the part about a
completed access. -/
def Obligations.StoreWordCompletes : Prop :=
  (∀ w, opField w = 0x2B#6 → decodeWord w = some (.sw (rtField w) (rsField w) (immField w))) ∧
  ∀ (rt rs : Reg) (imm : Imm16) (s : State),
    let ea : Word := BitVec.ofInt 32 ((s.reg rs).toNat + signedImm imm)
    s.Inv → 1 ≤ s.stat.nInstr → AccessOk s.cfg ea →
    ∃ t, exec (.sw rt rs imm) s = .next t ∧ SameRegs s t ∧ t.pc = s.pc + 4#32 ∧
      (∀ j, j < 4 → t.archMem (ea.toNat + j) = (beBytes (s.reg rt)).getD j 0#8) ∧
      (∀ b, b < ea.toNat ∨ ea.toNat + 4 ≤ b → t.archMem b = s.archMem b) ∧
      (s.cfg.wpol = .writeThrough →
        (∀ j, j < 4 → Memory.read t.mem (ea.toNat + j) = (beBytes (s.reg rt)).getD j 0#8) ∧
        (∀ b, b < ea.toNat ∨ ea.toNat + 4 ≤ b → Memory.read t.mem b = Memory.read s.mem b)) ∧
      (s.cfg.wpol = .writeBack → EvictedOnly s t ea.toNat ∧
        ∀ j, j < 4 → Memory.read t.mem (ea.toNat + j) = Memory.read s.mem (ea.toNat + j)) ∧
      (∃ k, t.lookup ea.toNat = some k ∧
        ((t.lineOf ea.toNat k).dirty = true ↔ s.cfg.wpol = .writeBack)) ∧
      CacheEffects (s.dispatched .memory) t ea (.write (s.reg rt)) ∧
      JustUsed t ea.toNat s.stat.nInstr ∧
      t.stat = accessStats { s.stat with nMemory := s.stat.nMemory + 1,
                                         nMemAccess := s.stat.nMemAccess + 1 }
        (s.lookup ea.toNat).isSome s.cfg.missPenalty ∧
      t.cfg = s.cfg ∧ t.run = s.run ∧ t.reports = s.reports ∧ t.wordDraws = s.wordDraws

/-- A `sw` whose address is misaligned or out of range: one record, nothing written anywhere, only
`nMemory` counted, the instruction retires. Derived: 45_memory_lw_sw.md R270, R272. -/
def Obligations.StoreWordRejected : Prop :=
  ∀ (rt rs : Reg) (imm : Imm16) (s : State),
    let ea : Word := BitVec.ofInt 32 ((s.reg rs).toNat + signedImm imm)
    let rejected := fun (r : Report) => ∃ t, exec (.sw rt rs imm) s = .next t ∧
      SameRegs s t ∧ t.pc = s.pc + 4#32 ∧ SameMemory s t ∧
      t.stat = { s.stat with nMemory := s.stat.nMemory + 1 } ∧ t.reports = s.reports ++ [r] ∧
      t.cfg = s.cfg ∧ t.run = s.run ∧ t.wordDraws = s.wordDraws ∧ t.wayDraws = s.wayDraws
    (ea.toNat % 4 ≠ 0 → rejected (.alignmentError (.data .store) ea)) ∧
    (ea.toNat % 4 = 0 → s.cfg.memSize < ea.toNat + 4 → rejected (.rangeError .store ea))

/-! ### All instructions -/

/-- No instruction writes anything beside its destination register, the pc, memory through the cache,
and the statistics: a fetched instruction always completes; it leaves configuration and run state alone,
every register but its destination reads as before, only a memory instruction touches the cache, memory or
the reports, and every counter but those of its class and of its data access keeps its value. Derived:
10_state.md R26. -/
def Obligations.NoSideEffects : Prop :=
  ∀ (i : Instr) (s : State), ∃ t, exec i s = .next t ∧ t.cfg = s.cfg ∧ t.run = s.run ∧
    (∀ q, destReg i ≠ some q → t.reg q = s.reg q) ∧
    (i.cls ≠ .memory → SameMemory s t ∧ SameRest s t ∧ t.stat.nHit = s.stat.nHit ∧
      t.stat.nMiss = s.stat.nMiss ∧ t.stat.cycles = s.stat.cycles ∧
      t.stat.nMemAccess = s.stat.nMemAccess) ∧
    t.stat.nInstr = s.stat.nInstr ∧
    t.stat.nRType = s.stat.nRType + (if i.cls = .rType then 1 else 0) ∧
    t.stat.nJump = s.stat.nJump + (if i.cls = .jump then 1 else 0) ∧
    t.stat.nBranch = s.stat.nBranch + (if i.cls = .branch then 1 else 0) ∧
    t.stat.nImmAlu = s.stat.nImmAlu + (if i.cls = .immAlu then 1 else 0) ∧
    t.stat.nMemory = s.stat.nMemory + (if i.cls = .memory then 1 else 0) ∧
    (i.cls ≠ .branch → t.stat.nBranchTaken = s.stat.nBranchTaken)

/-- R22: writes to register 0 are discarded, a write to another register replaces its content and no
other's, and register 0 reads 0 after every instruction that could target it, which completes all the same
(a `lw` with destination 0 does everything any `lw` does but write the register); at most one register is
written per instruction. -/
def Obligations.RegisterZeroIsImmutable : Prop :=
  (∀ (s : State) (v : Word), s.setReg 0#5 v = s) ∧
  (∀ (s : State) (r : Reg) (v : Word), r ≠ 0#5 →
    (s.setReg r v).reg r = v ∧ ∀ q, q ≠ r → (s.setReg r v).reg q = s.reg q) ∧
  (∀ (i : Instr) (s : State), ∃ t, exec i s = .next t ∧ t.reg 0#5 = 0#32 ∧ t.regs[0] = s.regs[0] ∧
    ∃ r : Reg, ∀ q, q ≠ r → t.reg q = s.reg q) ∧
  (∀ (rt rs : Reg) (imm : Imm16) (s : State), ∃ t v, exec (.lw 0#5 rs imm) s = .next t ∧
    exec (.lw rt rs imm) s = .next (t.setReg rt v))

/-- An instruction reads no register but those of its row of R23: changing any other register changes
nothing it does, and the changed register keeps its value unless the instruction writes it. Derived:
10_state.md R21, R23. -/
def Obligations.UnreadRegistersDoNotMatter : Prop :=
  ∀ (i : Instr) (s : State) (r : Reg) (v : Word), r ∉ readRegs i →
    ∃ t, exec i s = .next t ∧
      exec i (s.setReg r v) = .next (if destReg i = some r then t else t.setReg r v)

/-- Starting from an aligned pc, only `jr` can leave it misaligned. Derived: 10_state.md R25, which marks it
as derived. -/
def Obligations.OnlyJrMisalignsThePc : Prop :=
  ∀ (i : Instr) (s : State), (∀ rs, i ≠ .jr rs) → s.pc.toNat % 4 = 0 →
    ∃ t, exec i s = .next t ∧ t.pc.toNat % 4 = 0

/-! ### The step -/

/-- A step runs the decoded instruction: when the word a load sees at the pc decodes to `i`, the step is
`exec i` of the state after the instruction count and the fetch, a state that keeps the invariants, the pc,
the registers and every byte a load sees, and has counted the fetch. The fetch has every effect of
`CacheAccess(pc, Read)` after the instruction count: memory, cache and `Random` draws are those it leaves.
Derived: 40_step.md R180, R184, R185, R187, R188. -/
def Obligations.StepRunsDecodedInstruction : Prop :=
  ∀ (s : State) (i : Instr), s.Inv → s.Ready → s.PcFetchable →
    decodeWord (s.archWord s.pc.toNat) = some i →
    ∃ f, step s = exec i f ∧ f.Inv ∧ 1 ≤ f.stat.nInstr ∧ f.cfg = s.cfg ∧ f.regs = s.regs ∧
      f.pc = s.pc ∧ f.run = s.run ∧ f.reports = s.reports ∧ f.wordDraws = s.wordDraws ∧
      SameArch s f ∧ CacheEffects s.countInstr f s.pc .read ∧
      f.stat = accessStats { s.stat with nInstr := s.stat.nInstr + 1 }
        (s.lookup s.pc.toNat).isSome s.cfg.missPenalty

/-- R189: a word outside the closed set: one record with its address and bits, `pc + 4`, no register and no
byte a load sees changed, no class or branch counter, the fetch counted; memory, cache and `Random` draws
are those the fetch, `CacheAccess(pc, Read)` after the instruction count, leaves. -/
def Obligations.UnsupportedWordIsANoOp : Prop :=
  ∀ s : State, s.Inv → s.Ready → s.PcFetchable → decodeWord (s.archWord s.pc.toNat) = none →
    ∃ t, step s = .next t ∧
      t.reports = s.reports ++ [.unsupportedInstruction s.pc (s.archWord s.pc.toNat)] ∧
      t.pc = s.pc + 4#32 ∧ t.regs = s.regs ∧ SameArch s t ∧ EvictedOnly s t s.pc.toNat ∧
      CacheEffects s.countInstr t s.pc .read ∧
      t.stat = accessStats { s.stat with nInstr := s.stat.nInstr + 1 }
        (s.lookup s.pc.toNat).isSome s.cfg.missPenalty ∧
      t.cfg = s.cfg ∧ t.run = .running ∧ t.wordDraws = s.wordDraws

/-- R181: a step at the sentinel sets the run state and does nothing else, whatever the range and alignment
of the sentinel. -/
def Obligations.SentinelHalt : Prop :=
  ∀ s : State, s.Ready → s.pc = s.cfg.haltPc →
    step s = .next { s with run := .halted .sentinel }

/-- R182: a step at a pc whose word is not wholly inside memory sets the run state and does nothing else;
with memory of 2^32 bytes no aligned pc is such a pc. -/
def Obligations.RangeHalt : Prop :=
  (∀ s : State, s.Ready → s.pc ≠ s.cfg.haltPc → s.pc.toNat + 4 > s.cfg.memSize →
    step s = .next { s with run := .halted .pcOutOfRange }) ∧
  (∀ s : State, s.cfg.memSize = 2 ^ 32 → s.pc.toNat % 4 = 0 → ¬ s.pc.toNat + 4 > s.cfg.memSize)

/-- R183: a misaligned pc that passed both halt checks: one record, `Faulted`, nothing else; the fault state
is never a successful end and every later step changes nothing. (The spec marks the stop as its decision
D10.) -/
def Obligations.MisalignedFetchFaults : Prop :=
  ∀ s : State, s.Ready → s.pc ≠ s.cfg.haltPc → s.pc.toNat + 4 ≤ s.cfg.memSize →
    s.pc.toNat % 4 ≠ 0 →
    ∃ t, t = { s with run := .faulted, reports := s.reports ++ [.alignmentError .fetch s.pc] } ∧
      step s = .next t ∧ t.IsFaultState ∧ ¬ t.Successful ∧ step t = .next t

/-- All three non-running values are terminal: a granted step changes nothing. Derived: 10_state.md R32,
15_interfaces.md R54. -/
def Obligations.StoppedCoreDoesNothing : Prop :=
  ∀ s : State, s.cfg.Legal → s.cacheFits = true → s.run ≠ .running → step s = .next s

/-- R325: there is no sleep or wait state: `run` has the four values of R32 and no other, and in none of them
does a CORE wait: a granted `Running` one either counts an instruction and is still `Running`, or is stopped
for good by a halt check, with at most a record added. A CORE that is not granted `STEP` holds all state: a
withheld grant changes nothing, wherever and however often it stands among the host's other moves. -/
def Obligations.NoPowerStates : Prop :=
  (∀ s : State, s.run = .running ∨ s.run = .halted .sentinel ∨ s.run = .halted .pcOutOfRange ∨
    s.run = .faulted) ∧
  (∀ s : State, s.Ready → ∃ t, s.onMove .grant = .next t ∧
    ((t.run = .running ∧ t.stat.nInstr = s.stat.nInstr + 1) ∨
      (t.run ≠ .running ∧ t = { s with run := t.run, reports := t.reports }))) ∧
  (∀ s : State, s.onMove .withhold = .next s) ∧
  ∀ (s : State) (moves : List HostMove),
    s.onMoves moves = s.onMoves (moves.filter fun m => decide (m ≠ .withhold))

/-- Reset is the only way out of `Halted` and `Faulted`: no series of grants, withheld or not, changes a
stopped CORE; and a reset, whatever the CORE was doing, leaves the same `Running` state with nothing of the
state before it, so that what follows the last reset alone decides. Derived: 70_reset_and_hazards.md R330
(its values are in the statement of R39), 15_interfaces.md R54. -/
def Obligations.OnlyResetRestartsTheCore : Prop :=
  (∀ (s : State) (moves : List HostMove), s.cfg.Legal → s.cacheFits = true → s.run ≠ .running →
    (∀ c, .reset c ∉ moves) → s.onMoves moves = .next s) ∧
  ∀ (s : State) (before after : List HostMove) (c : Config) (u : State), s.onMoves before = .next u →
    s.onMoves (before ++ .reset c :: after) = (State.resetWith c).onMoves after ∧
    (State.resetWith c).run = .running

/-- A step of a legally configured CORE always gives a next state; it is refused exactly when the
configuration is illegal. Derived: 40_step.md R180 ("A step is total"), 00_scope.md R7; the fault for a
cache of another shape is the model's own, log entry 7. -/
def Obligations.StepIsTotal : Prop :=
  (∀ s : State, s.cfg.Legal → s.cacheFits = true → ∃ t, step s = .next t) ∧
  (∀ s : State, step s = .refused .illegalConfig ↔ ¬ s.cfg.Legal) ∧
  (∀ s : State, s.cfg.Legal → s.cacheFits = false → step s = .fault .cacheShape)

/-- The configuration never changes in a step. Derived: 15_interfaces.md R51, 10_state.md R34. -/
def Obligations.ConfigurationIsConstant : Prop :=
  ∀ s t : State, step s = .next t → t.cfg = s.cfg

/-- R33: the report stream only grows, is empty after reset, and no rule reads it: the same step from any
other history emits the same records and leaves everything else the same. At most one record is emitted. -/
def Obligations.ReportsAreAnOutputHistory : Prop :=
  (∀ c, (State.resetWith c).reports = []) ∧
  ∀ s t : State, step s = .next t → ∃ new, t.reports = s.reports ++ new ∧ new.length ≤ 1 ∧
    ∀ old, step { s with reports := old } = .next { t with reports := old ++ new }

/-- No counter but `nInstr` is read by any rule: the same step with other counter values does everything
else the same, and every counter moves by the same amount. Derived: 50_statistics.md R280. -/
def Obligations.OnlyTheInstructionCountIsRead : Prop :=
  ∀ (s t : State) (st : Stats), st.nInstr = s.stat.nInstr → step s = .next t →
    ∃ u, step { s with stat := st } = .next u ∧ { u with stat := t.stat } = t ∧
      u.stat.nInstr = t.stat.nInstr ∧
      u.stat.nRType + s.stat.nRType = t.stat.nRType + st.nRType ∧
      u.stat.nJump + s.stat.nJump = t.stat.nJump + st.nJump ∧
      u.stat.nBranch + s.stat.nBranch = t.stat.nBranch + st.nBranch ∧
      u.stat.nBranchTaken + s.stat.nBranchTaken = t.stat.nBranchTaken + st.nBranchTaken ∧
      u.stat.nImmAlu + s.stat.nImmAlu = t.stat.nImmAlu + st.nImmAlu ∧
      u.stat.nMemory + s.stat.nMemory = t.stat.nMemory + st.nMemory ∧
      u.stat.nMemAccess + s.stat.nMemAccess = t.stat.nMemAccess + st.nMemAccess ∧
      u.stat.nHit + s.stat.nHit = t.stat.nHit + st.nHit ∧
      u.stat.nMiss + s.stat.nMiss = t.stat.nMiss + st.nMiss ∧
      u.stat.cycles + s.stat.cycles = t.stat.cycles + st.cycles

/-- The counters are monotonically increasing: no step lowers one. Derived: 50_statistics.md R282. -/
def Obligations.CountersNeverFall : Prop :=
  ∀ s t : State, step s = .next t →
    s.stat.nInstr ≤ t.stat.nInstr ∧ s.stat.nRType ≤ t.stat.nRType ∧ s.stat.nJump ≤ t.stat.nJump ∧
    s.stat.nBranch ≤ t.stat.nBranch ∧ s.stat.nBranchTaken ≤ t.stat.nBranchTaken ∧
    s.stat.nImmAlu ≤ t.stat.nImmAlu ∧ s.stat.nMemory ≤ t.stat.nMemory ∧
    s.stat.nMemAccess ≤ t.stat.nMemAccess ∧ s.stat.nHit ≤ t.stat.nHit ∧
    s.stat.nMiss ≤ t.stat.nMiss ∧ s.stat.cycles ≤ t.stat.cycles

/-! ### The cache -/

/-- The fields of an aligned in-range address recover it, the set exists, the offset is aligned
and the word does not straddle two lines; the tag is the block divided by the sets; and two addresses with
the same tag and set lie in the same block. Derived: 25_cache.md R101, R102. -/
def Obligations.AddressDecomposition : Prop :=
  ∀ (c : Config) (a : Word), c.Legal → AccessOk c a →
    let x := a.toNat
    x = baseOf c (tagOf c x) (setIndexOf c x) + offsetOf c x ∧
    baseOf c (tagOf c x) (setIndexOf c x) = (tagOf c x * c.setCount + setIndexOf c x) * c.lineSize ∧
    setIndexOf c x = x / c.lineSize % c.setCount ∧ setIndexOf c x < c.setCount ∧
    tagOf c x = x / (c.lineSize * c.setCount) ∧
    offsetOf c x = x % c.lineSize ∧ offsetOf c x % 4 = 0 ∧ offsetOf c x + 3 < c.lineSize ∧
    ∀ y, tagOf c y = tagOf c x → setIndexOf c y = setIndexOf c x → y / c.lineSize = x / c.lineSize

/-- R73, R74, R75: a misaligned access is rejected for alignment, an aligned one outside memory for range,
alignment first; one record is emitted and no other part of the state changes; every other access is not
rejected. For a legal configuration the range test of an aligned address is `a >= MEM_SIZE`. -/
def Obligations.RejectedAccessChangesNothing : Prop :=
  ∀ (s : State) (a : Word) (dir : Direction),
    (a.toNat % 4 ≠ 0 → s.cacheAccess a dir = (.rejected .alignment,
      { s with reports := s.reports ++ [.alignmentError (.data dir.source) a] })) ∧
    (a.toNat % 4 = 0 → a.toNat + 4 > s.cfg.memSize → s.cacheAccess a dir = (.rejected .range,
      { s with reports := s.reports ++ [.rangeError dir.source a] })) ∧
    (AccessOk s.cfg a → ∀ kind, (s.cacheAccess a dir).1 ≠ .rejected kind) ∧
    (s.cfg.Legal → a.toNat % 4 = 0 → (a.toNat + 4 > s.cfg.memSize ↔ s.cfg.memSize ≤ a.toNat))

/-- R103: an accepted access is a hit exactly when some way of its set is valid and carries its tag, and only
that set is changed. -/
def Obligations.HitIffResident : Prop :=
  ∀ (s : State) (a : Word) (dir : Direction), s.cfg.Legal → s.cacheFits = true →
    AccessOk s.cfg a →
    ((∃ v, (s.cacheAccess a dir).1 = .hit v) ↔
      ∃ k, k < s.cfg.ways ∧ (s.lineOf a.toNat k).valid = true ∧
        (s.lineOf a.toNat k).tag = tagOf s.cfg a.toNat) ∧
    ∀ i, i ≠ setIndexOf s.cfg a.toNat → (s.cacheAccess a dir).2.setAt i = s.setAt i

/-- R104, R105: on a hit on way `k` a read gets the big-endian word at the offset, a write puts its bytes
there and leaves the other bytes; the stamp and the flag of the line are set, hit counter and cycles are
advanced by one, the cursor, `valid`, `tag` and every other line are untouched; `dirty` and main memory
follow the write policy of a write and are untouched by a read. -/
def Obligations.HitAccess : Prop :=
  ∀ (s : State) (a : Word) (dir : Direction) (k : Nat), s.cfg.Legal → s.cacheFits = true →
    Memory.wf s.mem = true → AccessOk s.cfg a → s.lookup a.toNat = some k →
    let L := s.lineOf a.toNat k
    let off := offsetOf s.cfg a.toNat
    ∃ v t, s.cacheAccess a dir = (.hit v, t) ∧
      (dir = .read → v = be32 (L.byteAt off) (L.byteAt (off + 1)) (L.byteAt (off + 2))
        (L.byteAt (off + 3))) ∧
      (t.lineOf a.toNat k).valid = L.valid ∧ (t.lineOf a.toNat k).tag = L.tag ∧
      (t.lineOf a.toNat k).lru = s.stat.nInstr ∧ (t.lineOf a.toNat k).sc = true ∧
      (dir = .read → (t.lineOf a.toNat k).data = L.data) ∧
      (∀ w, dir = .write w → ∀ j, j < s.cfg.lineSize → (t.lineOf a.toNat k).byteAt j =
        if off ≤ j ∧ j < off + 4 then (beBytes w).getD (j - off) 0#8 else L.byteAt j) ∧
      (t.lineOf a.toNat k).dirty = (match dir, s.cfg.wpol with
        | .write _, .writeBack => true
        | _, _ => L.dirty) ∧
      (∀ b, Memory.read t.mem b =
        match dir, s.cfg.wpol with
        | .write w, .writeThrough => if a.toNat ≤ b ∧ b < a.toNat + 4
            then (beBytes w).getD (b - a.toNat) 0#8 else Memory.read s.mem b
        | _, _ => Memory.read s.mem b) ∧
      (∀ i' k', ¬(i' = setIndexOf s.cfg a.toNat ∧ k' = k) → t.lineAt i' k' = s.lineAt i' k') ∧
      (∀ i', (t.setAt i').fifo = (s.setAt i').fifo) ∧
      t.stat = { s.stat with nHit := s.stat.nHit + 1, cycles := s.stat.cycles + 1 } ∧
      t.regs = s.regs ∧ t.pc = s.pc ∧ t.cfg = s.cfg ∧ t.run = s.run ∧ t.reports = s.reports ∧
      t.wordDraws = s.wordDraws ∧ t.wayDraws = s.wayDraws

/-- R107, R108, R109, R110, R111: on a miss the chosen way is written back if valid and dirty, then holds
the block with `valid`, the new tag, the stamp and the flag set, filled from memory as the write-back left
it, with the four bytes of a write on top; a read delivers the filled word; `dirty` is set exactly by a
write under `WriteBack`; the miss counter and the penalty are added and nothing of a hit; the other ways of
the set are as the victim choice left them, the other sets as before. -/
def Obligations.MissAccess : Prop :=
  ∀ (s : State) (a : Word) (dir : Direction), s.cfg.Legal → s.cacheFits = true →
    Memory.wf s.mem = true → AccessOk s.cfg a → s.lookup a.toNat = none →
    let i := setIndexOf s.cfg a.toNat
    let k := (s.choice a.toNat).way
    let victim := s.lineAt i k
    let base := baseOf s.cfg victim.tag i
    let memory := fun b => if victim.valid = true ∧ victim.dirty = true ∧ base ≤ b ∧
      b < base + s.cfg.lineSize then victim.byteAt (b - base) else Memory.read s.mem b
    let block := a.toNat / s.cfg.lineSize * s.cfg.lineSize
    ∃ v t, s.cacheAccess a dir = (.miss v, t) ∧
      (dir = .read → v = be32 (memory a.toNat) (memory (a.toNat + 1)) (memory (a.toNat + 2))
        (memory (a.toNat + 3))) ∧
      (t.lineAt i k).valid = true ∧ (t.lineAt i k).tag = tagOf s.cfg a.toNat ∧
      (t.lineAt i k).lru = s.stat.nInstr ∧ (t.lineAt i k).sc = true ∧
      ((t.lineAt i k).dirty = true ↔ (∃ w, dir = .write w) ∧ s.cfg.wpol = .writeBack) ∧
      (∀ j, j < s.cfg.lineSize → (t.lineAt i k).byteAt j =
        match dir with
        | .read => memory (block + j)
        | .write w => if a.toNat ≤ block + j ∧ block + j < a.toNat + 4
            then (beBytes w).getD (block + j - a.toNat) 0#8 else memory (block + j)) ∧
      (∀ b, Memory.read t.mem b =
        match dir, s.cfg.wpol with
        | .write w, .writeThrough => if a.toNat ≤ b ∧ b < a.toNat + 4
            then (beBytes w).getD (b - a.toNat) 0#8 else memory b
        | _, _ => memory b) ∧
      (∀ k', k' ≠ k → t.lineAt i k' = (s.choice a.toNat).set.line k') ∧
      (t.setAt i).fifo = (s.choice a.toNat).set.fifo ∧
      (∀ i', i' ≠ i → t.setAt i' = s.setAt i') ∧
      t.stat = { s.stat with nMiss := s.stat.nMiss + 1,
                             cycles := s.stat.cycles + s.cfg.missPenalty } ∧
      t.regs = s.regs ∧ t.pc = s.pc ∧ t.cfg = s.cfg ∧ t.run = s.run ∧ t.reports = s.reports ∧
      t.wordDraws = s.wordDraws

/-- R112: after a completed write, hit or miss: under `WriteBack` the line is dirty and main memory is as
before, at the word in any case and elsewhere but for the write-back of an evicted line; under `WriteThrough`
the word stands in main memory at once, no other byte of it changes and no line of the cache is dirty, so
there is never a write-back. No cycles beside the access's own. -/
def Obligations.WritePolicies : Prop :=
  ∀ (s : State) (a w : Word), s.Inv → 1 ≤ s.stat.nInstr → AccessOk s.cfg a →
    ∃ r t k, s.cacheAccess a (.write w) = (r, t) ∧ t.lookup a.toNat = some k ∧
      (s.cfg.wpol = .writeBack → (t.lineOf a.toNat k).dirty = true ∧
        EvictedOnly s t a.toNat ∧
        ∀ j, j < 4 → Memory.read t.mem (a.toNat + j) = Memory.read s.mem (a.toNat + j)) ∧
      (s.cfg.wpol = .writeThrough →
        (∀ j, j < 4 → Memory.read t.mem (a.toNat + j) = (beBytes w).getD j 0#8) ∧
        (∀ b, b < a.toNat ∨ a.toNat + 4 ≤ b → Memory.read t.mem b = Memory.read s.mem b) ∧
        ∀ i k', i < s.cfg.setCount → k' < s.cfg.ways → (t.lineAt i k').dirty = false) ∧
      t.stat = accessStats s.stat (s.lookup a.toNat).isSome s.cfg.missPenalty

/-- Write-Through invariant and Write-Back invariant. Under `WriteThrough`, after any completed write, main
memory equals the contents of the whole line; and under any policy the bytes of a valid dirty line, when a
miss of a read or of a write evicts it, are exactly what main memory then holds at its resident address. Derived: 25_cache.md R120,
which marks both as derived. -/
def Obligations.WriteInvariants : Prop :=
  (∀ (s : State) (a w : Word), s.Inv → 1 ≤ s.stat.nInstr → AccessOk s.cfg a →
    s.cfg.wpol = .writeThrough → ∃ k, (s.cacheAccess a (.write w)).2.lookup a.toNat = some k ∧
      ∀ j, j < s.cfg.lineSize →
        Memory.read (s.cacheAccess a (.write w)).2.mem
          (baseOf s.cfg (tagOf s.cfg a.toNat) (setIndexOf s.cfg a.toNat) + j) =
        ((s.cacheAccess a (.write w)).2.lineOf a.toNat k).byteAt j) ∧
  (∀ (s : State) (a : Word) (dir : Direction), s.Inv → 1 ≤ s.stat.nInstr → AccessOk s.cfg a →
    s.lookup a.toNat = none →
    let L := s.lineOf a.toNat (s.choice a.toNat).way
    L.valid = true → L.dirty = true → ∀ j, j < s.cfg.lineSize →
      Memory.read (s.cacheAccess a dir).2.mem
        (baseOf s.cfg L.tag (setIndexOf s.cfg a.toNat) + j) = L.byteAt j)

/-- The victim of every policy is a way of the set, and choosing it changes at most second-chance flags
and the cursor: no byte, tag, `valid`, `dirty` or stamp of any line. `Random` (R115) changes nothing at all
of the set, `LRU` (R117) neither. Derived: 25_cache.md R113, R115. -/
def Obligations.VictimIsAWayOfTheSet : Prop :=
  ∀ (c : Config) (n : Nat) (S : CacheSet), 0 < c.ways → S.lines.length = c.ways →
    S.fifo < c.ways →
    (chooseVictim c n S).way < c.ways ∧ (chooseVictim c n S).set.fifo < c.ways ∧
    (∀ k, ((chooseVictim c n S).set.line k).data = (S.line k).data ∧
      ((chooseVictim c n S).set.line k).tag = (S.line k).tag ∧
      ((chooseVictim c n S).set.line k).valid = (S.line k).valid ∧
      ((chooseVictim c n S).set.line k).dirty = (S.line k).dirty ∧
      ((chooseVictim c n S).set.line k).lru = (S.line k).lru) ∧
    (c.repl = .random ∨ c.repl = .lru → (chooseVictim c n S).set = S)

/-- R116: `FIFO` takes the way at the cursor and advances the cursor by one modulo the ways; from a cursor
at 0 (as after reset) the misses of a set use ways 0, 1, ..., WAYS-1, 0, 1, ... in turn, so that the miss
after WAYS misses takes the same way again; no line is changed by choosing, and a hit moves no cursor. -/
def Obligations.FifoCycles : Prop :=
  (∀ (c : Config) (d : Nat) (S : CacheSet), c.repl = .fifo → 0 < c.ways →
    (chooseVictim c d S).way = S.fifo ∧ (chooseVictim c d S).set.lines = S.lines ∧
    (chooseVictim c d S).set.fifo = (S.fifo + 1) % c.ways ∧
    (S.fifo = 0 → ∀ n,
      (chooseVictim c d ((fun T => (chooseVictim c d T).set)^[n] S)).way = n % c.ways)) ∧
  (∀ (s : State) (a : Word) (dir : Direction) (k i : Nat), s.cfg.Legal → s.cacheFits = true →
    AccessOk s.cfg a → s.lookup a.toNat = some k →
    ((s.cacheAccess a dir).2.setAt i).fifo = (s.setAt i).fifo)

/-- R117: `LRU` takes the way with the smallest stamp, the lowest index among equals, changes nothing at
selection and does not look at validity. (The spec marks the tie-break as its decision D15.) -/
def Obligations.LruTakesTheOldest : Prop :=
  ∀ (c : Config) (d : Nat) (S : CacheSet), c.repl = .lru → 0 < c.ways → S.lines.length = c.ways →
    let k := (chooseVictim c d S).way
    k < c.ways ∧ (∀ j, j < c.ways → (S.line k).lru ≤ (S.line j).lru) ∧
    (∀ j, j < k → (S.line k).lru < (S.line j).lru) ∧ (chooseVictim c d S).set = S ∧
    (∀ T : CacheSet, T.lines.map (·.lru) = S.lines.map (·.lru) → (chooseVictim c d T).way = k)

/-- R118: `Clock` scans from way 0: the first way with an unset flag is the victim; the flags of the ways
before it are cleared, those after it untouched; if every flag is set, way 0 is the victim and all flags are
cleared. Nothing but flags changes. -/
def Obligations.ClockSecondChance : Prop :=
  ∀ (c : Config) (d : Nat) (S : CacheSet), c.repl = .clock → 0 < c.ways → S.lines.length = c.ways →
    let v := chooseVictim c d S
    (∀ k, k < c.ways → (S.line k).sc = false → (∀ j, j < k → (S.line j).sc = true) →
      v.way = k ∧ (∀ j, j < k → v.set.line j = { S.line j with sc := false }) ∧
      (∀ j, k ≤ j → v.set.line j = S.line j)) ∧
    ((∀ k, k < c.ways → (S.line k).sc = true) →
      v.way = 0 ∧ ∀ j, j < c.ways → v.set.line j = { S.line j with sc := false }) ∧
    v.set.fifo = S.fifo

/-- A cache access never changes what a load would see, but for the four bytes of a completed write; a read
delivers the word a load sees. Derived: 10_state.md R37, 25_cache.md R104 to R112. -/
def Obligations.AccessKeepsArchitecturalMemory : Prop :=
  ∀ (s : State) (a : Word) (dir : Direction), s.Inv → 1 ≤ s.stat.nInstr →
    ∃ r t, s.cacheAccess a dir = (r, t) ∧ t.Inv ∧
      (AccessOk s.cfg a → dir = .read →
        r = .hit (s.archWord a.toNat) ∨ r = .miss (s.archWord a.toNat)) ∧
      ∀ b, t.archMem b =
        match dir with
        | .read => s.archMem b
        | .write w => if AccessOk s.cfg a ∧ a.toNat ≤ b ∧ b < a.toNat + 4
            then (beBytes w).getD (b - a.toNat) 0#8 else s.archMem b

/-- Stores are seen by later fetches with no action by software: after a completed `sw`, the word at the
stored address is the register's value, and if the pc of the next step stands there, that step runs what
the stored word decodes to. Derived: 20_memory.md R83, which marks it as derived. -/
def Obligations.StoreIsSeenByTheNextFetch : Prop :=
  ∀ (rt rs : Reg) (imm : Imm16) (s : State) (i : Instr),
    let ea : Word := BitVec.ofInt 32 ((s.reg rs).toNat + signedImm imm)
    s.Inv → 1 ≤ s.stat.nInstr → s.Ready → AccessOk s.cfg ea →
    ∃ t, exec (.sw rt rs imm) s = .next t ∧ t.archWord ea.toNat = s.reg rt ∧
      (t.pc = ea → t.pc ≠ t.cfg.haltPc → decodeWord (s.reg rt) = some i →
        ∃ f, step t = exec i f ∧ f.pc = ea ∧ f.regs = t.regs ∧ SameArch t f)

/-- The cache is transparent to the values a program computes: two COREs a program cannot tell apart,
whatever their geometry, policies, cache contents, counters and `Random` draws, take steps to states a
program cannot tell apart. Derived: 10_state.md R36, which marks it as derived, and R37. R36 excludes
rejected accesses: that a rejected `lw` gives both COREs the same value is the model's choice (log entry 5,
DESIGN CHOICE: equal `UNSPEC32` draw counters give equal draws), not the spec's. -/
def Obligations.CacheIsTransparent : Prop :=
  ∀ s s' : State, s.Inv → s'.Inv → SameProgramView s s' →
    ∃ t t', step s = .next t ∧ step s' = .next t' ∧ SameProgramView t t'

/-! ### Invariants, reset and host -/

/-- Every step keeps memory in its canonical form. Derived: 10_state.md R27 (memory is a byte array; the
canonical form is the model's own). -/
def Obligations.StepKeepsMemoryCanonical : Prop :=
  ∀ s t : State, Memory.wf s.mem = true → step s = .next t → Memory.wf t.mem = true

/-- Every step keeps the invariants of the state: the six of R30 (unique tags, dirty only if valid and under
`WriteBack`, resident blocks inside memory, clean lines equal to memory, cursor in range, stamps between 1
and the instruction count), memory canonical and within `MEM_SIZE`, register 0. Derived: 10_state.md R30,
which marks them as derived. -/
def Obligations.StepKeepsInvariants : Prop :=
  ∀ s t : State, s.Inv → step s = .next t → t.Inv

/-- Every step keeps the relations between the counters and the reports. Derived: 50_statistics.md R283,
which marks them as derived. -/
def Obligations.StepKeepsStatisticsBalanced : Prop :=
  ∀ s t : State, s.StatsBalanced → step s = .next t → t.StatsBalanced

/-- R39: the value of every piece of state after a reset, for every configuration sampled. -/
def Obligations.ResetValues : Prop :=
  ∀ c : Config, let s := State.resetWith c
    s.cfg = c ∧ s.reg 0#5 = 0#32 ∧
    (∀ r : Reg, r ≠ 0#5 → s.reg r = c.resetReg.toList.getD (r.toNat - 1) 0#32) ∧ s.pc = 0#32 ∧
    (∀ a, Memory.read s.mem a = 0#8) ∧ s.cache.length = c.setCount ∧
    (∀ i, i < c.setCount → (s.setAt i).fifo = 0 ∧ (s.setAt i).lines.length = c.ways ∧
      ∀ k, k < c.ways → (s.lineAt i k).valid = false ∧ (s.lineAt i k).dirty = false ∧
        (s.lineAt i k).sc = false ∧ (s.lineAt i k).tag = 0 ∧ (s.lineAt i k).lru = 0 ∧
        (s.lineAt i k).data.length = c.lineSize ∧ ∀ j, (s.lineAt i k).byteAt j = 0#8) ∧
    s.stat = ⟨0, 0, 0, 0, 0, 0, 0, 0, 0, 0, 0⟩ ∧ s.run = .running ∧ s.reports = []

/-- The state after a reset with a legal configuration meets the invariants and the counter relations, the
model's own `State.reset` among them (the configuration it samples is the model's choice, log entry 1).
Derived: 10_state.md R30, R39, 50_statistics.md R283. -/
def Obligations.ResetMeetsInvariants : Prop :=
  (∀ c : Config, c.Legal → (State.resetWith c).Inv) ∧ (∀ c, (State.resetWith c).StatsBalanced) ∧
    Config.reference.Legal ∧ State.reset = State.resetWith Config.reference

/-- The boot duties: an illegal configuration and an image longer than memory are refused; otherwise byte
`i` of the image stands at address `i`, every byte beyond it is 0, both for the host and for a load, the
invariants hold and the rest of the state is as reset left it. Derived: 15_interfaces.md R52,
70_reset_and_hazards.md R335, 93_implementation_defined.md U4, U7. -/
def Obligations.BootLoadsTheImage : Prop :=
  ∀ (c : Config) (image : List Byte),
    (¬ c.Legal → boot c image = .error .illegalConfig) ∧
    (c.Legal → image.length > c.memSize → boot c image = .error .imageTooLong) ∧
    (c.Legal → image.length ≤ c.memSize → ∃ s, boot c image = .ok s ∧ s.Inv ∧
      (∀ a, s.archMem a = image.getD a 0#8) ∧
      (∀ a, s.hostRead a = if a < c.memSize then some (image.getD a 0#8) else none) ∧
      { s with mem := [] } = State.resetWith c)

/-- R288: AMAT is the hit time when there was no access, else the hit time plus the miss rate times the
penalty; the source's example gives 101. -/
def Obligations.AverageMemoryAccessTime : Prop :=
  (∀ s : State, s.stat.nHit + s.stat.nMiss = 0 → s.amat = 1) ∧
  (∀ s : State, s.stat.nHit + s.stat.nMiss ≠ 0 →
    (s.amat - 1) * ((s.stat.nHit : Rat) + (s.stat.nMiss : Rat)) =
      (s.stat.nMiss : Rat) * (s.cfg.missPenalty : Rat)) ∧
  (∀ s : State, s.stat.nHit = 9 → s.stat.nMiss = 1 → s.cfg.missPenalty = 1000 → s.amat = 101)
end

