-- ==== Sys2Proof/Laws/Address.lean ====
section
/-! SUPPORT. Address decomposition (spec/25_cache.md R101, R102): the fields of an address recover it, and a
word never straddles two lines. -/

namespace Sys2Proof.Machine

variable {c : Config}

theorem legal_lineSize_pos (h : c.Legal) : 0 < c.lineSize := by have := h.1; omega

theorem legal_setCount_pos (h : c.Legal) : 0 < c.setCount := h.2.2.1.2

theorem legal_ways_pos (h : c.Legal) : 0 < c.ways := h.2.1

theorem setIndexOf_lt (h : c.Legal) (a : Nat) : setIndexOf c a < c.setCount :=
  Nat.mod_lt _ (legal_setCount_pos h)

theorem offsetOf_lt (h : c.Legal) (a : Nat) : offsetOf c a < c.lineSize :=
  Nat.mod_lt _ (legal_lineSize_pos h)

/-- `blk = t * SET_COUNT + s` (R101). -/
theorem tagOf_setIndexOf (c : Config) (a : Nat) :
    tagOf c a * c.setCount + setIndexOf c a = blockOf c a := by
  unfold tagOf setIndexOf
  rw [Nat.mul_comm]
  exact Nat.div_add_mod _ _

/-- The base address of the block of `a` (R102). -/
theorem baseOf_tagOf (c : Config) (a : Nat) :
    baseOf c (tagOf c a) (setIndexOf c a) = blockOf c a * c.lineSize := by
  rw [baseOf, tagOf_setIndexOf]

/-- `a = (t * SET_COUNT + s) * LINE_SIZE + off` (R101). -/
theorem baseOf_add_offsetOf (c : Config) (a : Nat) :
    baseOf c (tagOf c a) (setIndexOf c a) + offsetOf c a = a := by
  rw [baseOf_tagOf, blockOf, offsetOf, Nat.mul_comm]
  exact Nat.div_add_mod _ _

theorem blockOf_baseOf (h : c.Legal) {t i j : Nat} (hj : j < c.lineSize) :
    blockOf c (baseOf c t i + j) = t * c.setCount + i := by
  rw [blockOf, baseOf, Nat.mul_comm, Nat.mul_add_div (legal_lineSize_pos h), Nat.div_eq_of_lt hj, Nat.add_zero]

theorem tagOf_baseOf (h : c.Legal) {t i j : Nat} (hi : i < c.setCount) (hj : j < c.lineSize) :
    tagOf c (baseOf c t i + j) = t := by
  rw [tagOf, blockOf_baseOf h hj, Nat.mul_comm, Nat.mul_add_div (legal_setCount_pos h), Nat.div_eq_of_lt hi,
    Nat.add_zero]

theorem setIndexOf_baseOf (h : c.Legal) {t i j : Nat} (hi : i < c.setCount) (hj : j < c.lineSize) :
    setIndexOf c (baseOf c t i + j) = i := by
  rw [setIndexOf, blockOf_baseOf h hj, Nat.mul_comm, Nat.mul_add_mod, Nat.mod_eq_of_lt hi]

theorem offsetOf_baseOf (c : Config) {t i j : Nat} (hj : j < c.lineSize) :
    offsetOf c (baseOf c t i + j) = j := by
  rw [offsetOf, baseOf, Nat.mul_comm, Nat.mul_add_mod, Nat.mod_eq_of_lt hj]

/-- Two addresses with the same tag and set lie in the same block. -/
theorem blockOf_eq {a b : Nat} (ht : tagOf c a = tagOf c b)
    (hi : setIndexOf c a = setIndexOf c b) : blockOf c a = blockOf c b := by
  rw [← tagOf_setIndexOf c a, ← tagOf_setIndexOf c b, ht, hi]

theorem tagOf_congr {a b : Nat} (h : blockOf c a = blockOf c b) : tagOf c a = tagOf c b := by
  rw [tagOf, h, tagOf]

theorem setIndexOf_congr {a b : Nat} (h : blockOf c a = blockOf c b) :
    setIndexOf c a = setIndexOf c b := by
  rw [setIndexOf, h, setIndexOf]

/-- A word never straddles two lines: `off + 3 < LINE_SIZE` (R101). -/
theorem offsetOf_word (h : c.Legal) {a : Nat} (ha : a % 4 = 0) : offsetOf c a + 3 < c.lineSize := by
  obtain ⟨⟨h4, hm⟩, -⟩ := h
  obtain ⟨n, hn⟩ := Nat.dvd_of_mod_eq_zero hm
  have hlt : a % c.lineSize < c.lineSize := Nat.mod_lt _ (by omega)
  have hmod : a % c.lineSize % 4 = 0 := by
    rw [hn, Nat.mod_mul_right_mod]; exact ha
  unfold offsetOf
  omega

/-- The bytes of a word lie in one block at consecutive offsets (R101). -/
theorem blockOf_word (h : c.Legal) {a j : Nat} (ha : a % 4 = 0) (hj : j < 4) :
    blockOf c (a + j) = blockOf c a ∧ offsetOf c (a + j) = offsetOf c a + j := by
  have hw := offsetOf_word h ha
  have e : a + j = baseOf c (tagOf c a) (setIndexOf c a) + (offsetOf c a + j) := by
    rw [← Nat.add_assoc, baseOf_add_offsetOf]
  rw [e]
  refine ⟨?_, offsetOf_baseOf c (by omega)⟩
  rw [blockOf_baseOf h (by omega), tagOf_setIndexOf]

/-- The block of an in-range aligned address lies inside memory (R7 (d), R30 (c)). -/
theorem block_inside (h : c.Legal) {a : Nat} (ha : a < c.memSize) :
    (blockOf c a + 1) * c.lineSize ≤ c.memSize := by
  obtain ⟨n, hn⟩ := Nat.dvd_of_mod_eq_zero h.2.2.2.2.2
  have hlt : blockOf c a < n := by
    unfold blockOf
    rw [Nat.div_lt_iff_lt_mul (legal_lineSize_pos h), Nat.mul_comm]
    omega
  calc (blockOf c a + 1) * c.lineSize ≤ n * c.lineSize := Nat.mul_le_mul_right _ hlt
    _ = c.memSize := by rw [hn, Nat.mul_comm]

end Sys2Proof.Machine
end

