-- ==== Sys2Proof/Laws/Memory.lean ====
section
/-! SUPPORT. Main memory: read after write, and that every operation keeps the canonical form. -/

namespace Sys2Proof.Machine

theorem Memory.wfFrom_mono {lo lo' : Nat} {m : Memory} (h : Memory.wfFrom lo m = true) (hl : lo' ≤ lo) :
    Memory.wfFrom lo' m = true := by
  cases m with
  | nil => rfl
  | cons e m =>
    obtain ⟨k, b⟩ := e
    simp only [Memory.wfFrom, Bool.and_eq_true, decide_eq_true_eq] at h ⊢
    exact ⟨⟨by omega, h.1.2⟩, h.2⟩

/-- Nothing is listed below the bound. -/
theorem Memory.read_below {lo a : Nat} {m : Memory} (h : Memory.wfFrom lo m = true) (ha : a < lo) :
    Memory.read m a = 0#8 := by
  induction m generalizing lo with
  | nil => rfl
  | cons e m ih =>
    obtain ⟨k, b⟩ := e
    simp only [Memory.wfFrom, Bool.and_eq_true, decide_eq_true_eq] at h
    rw [Memory.read, if_neg (by omega)]
    exact ih h.2 (by omega)

/-- A write keeps the canonical form. -/
theorem Memory.wfFrom_write {lo a : Nat} {m : Memory} (v : Byte) (h : Memory.wfFrom lo m = true)
    (ha : lo ≤ a) : Memory.wfFrom lo (Memory.write m a v) = true := by
  induction m generalizing lo with
  | nil =>
    unfold Memory.write
    split <;> simp_all [Memory.wfFrom]
  | cons e m ih =>
    obtain ⟨k, b⟩ := e
    simp only [Memory.wfFrom, Bool.and_eq_true, decide_eq_true_eq] at h
    obtain ⟨⟨hk, hb⟩, hm⟩ := h
    unfold Memory.write
    split
    · split
      · simp_all [Memory.wfFrom]
      · rename_i h1 h2
        simp only [Memory.wfFrom, Bool.and_eq_true, decide_eq_true_eq]
        exact ⟨⟨ha, h2⟩, ⟨by omega, hb⟩, hm⟩
    · split
      · split
        · exact Memory.wfFrom_mono hm (by omega)
        · rename_i h1 h2 h3
          simp only [Memory.wfFrom, Bool.and_eq_true, decide_eq_true_eq]
          subst h2
          exact ⟨⟨ha, h3⟩, hm⟩
      · simp only [Memory.wfFrom, Bool.and_eq_true, decide_eq_true_eq]
        exact ⟨⟨hk, hb⟩, ih hm (by omega)⟩

theorem Memory.wf_write {m : Memory} (a : Nat) (v : Byte) (h : Memory.wf m = true) :
    Memory.wf (Memory.write m a v) = true :=
  Memory.wfFrom_write v h (Nat.zero_le a)

theorem Memory.wf_writeBytes {m : Memory} (a : Nat) (bs : List Byte) (h : Memory.wf m = true) :
    Memory.wf (Memory.writeBytes m a bs) = true := by
  induction bs generalizing m a with
  | nil => exact h
  | cons b bs ih => exact ih _ (Memory.wf_write a b h)

/-- A read after a write to the same place gives the value written. -/
theorem Memory.read_write_same {lo a : Nat} {m : Memory} (v : Byte) (h : Memory.wfFrom lo m = true) :
    Memory.read (Memory.write m a v) a = v := by
  induction m generalizing lo with
  | nil => unfold Memory.write; split <;> simp_all [Memory.read]
  | cons e m ih =>
    obtain ⟨k, b⟩ := e
    simp only [Memory.wfFrom, Bool.and_eq_true, decide_eq_true_eq] at h
    obtain ⟨⟨hk, hb⟩, hm⟩ := h
    unfold Memory.write
    split
    · split
      · rename_i h1 h2
        rw [Memory.read, if_neg (by omega), Memory.read_below hm (by omega), h2]
      · simp [Memory.read]
    · split
      · split
        · rename_i h1 h2 h3
          rw [Memory.read_below hm (by omega), h3]
        · simp [Memory.read]
      · rw [Memory.read, if_neg (by omega)]
        exact ih hm

/-- A write leaves every other place alone. -/
theorem Memory.read_write_other {a b : Nat} {m : Memory} (v : Byte) (h : b ≠ a) :
    Memory.read (Memory.write m a v) b = Memory.read m b := by
  induction m with
  | nil => unfold Memory.write; split <;> simp [Memory.read, Ne.symm h]
  | cons e m ih =>
    obtain ⟨k, c⟩ := e
    unfold Memory.write
    split
    · split
      · rfl
      · simp [Memory.read, Ne.symm h]
    · split
      · rename_i h1 h2
        subst h2
        split <;> simp [Memory.read, Ne.symm h]
      · simp only [Memory.read]
        split
        · rfl
        · exact ih

theorem Memory.read_writeBytes_other {m : Memory} {a b : Nat} {bs : List Byte}
    (h : b < a ∨ a + bs.length ≤ b) : Memory.read (Memory.writeBytes m a bs) b = Memory.read m b := by
  induction bs generalizing m a with
  | nil => rfl
  | cons c bs ih =>
    simp only [List.length_cons] at h
    rw [Memory.writeBytes, ih (by omega), Memory.read_write_other _ (by omega)]

theorem Memory.read_writeBytes_same {m : Memory} (hm : Memory.wf m = true) {a i : Nat} {bs : List Byte}
    (h : i < bs.length) : Memory.read (Memory.writeBytes m a bs) (a + i) = bs.getD i 0#8 := by
  induction bs generalizing m a i with
  | nil => simp at h
  | cons c bs ih =>
    rw [Memory.writeBytes]
    cases i with
    | zero =>
      rw [Memory.read_writeBytes_other (by omega), Nat.add_zero, Memory.read_write_same _ hm]
      rfl
    | succ i =>
      have := ih (Memory.wf_write a c hm) (a := a + 1) (i := i) (by simpa using h)
      rw [show a + (i + 1) = a + 1 + i by omega, this]
      rfl

@[simp] theorem Memory.readBytes_length (m : Memory) (a n : Nat) : (Memory.readBytes m a n).length = n := by
  simp [Memory.readBytes]

theorem Memory.readBytes_getD (m : Memory) (a : Nat) {i n : Nat} (h : i < n) :
    (Memory.readBytes m a n).getD i 0#8 = Memory.read m (a + i) := by
  simp [Memory.readBytes, List.getD, h]

/-- The memory of a CORE just reset is canonical (R39). -/
theorem resetWith_mem_wf (c : Config) : Memory.wf (State.resetWith c).mem = true := rfl

end Sys2Proof.Machine
end

