-- ==== Sys2Proof/Laws/Lines.lean ====
section
/-! SUPPORT. Lines, sets and victims: what replacing a way, looking a tag up and choosing a victim do. -/

namespace Sys2Proof.Machine

/-! ### Bytes of a line -/

theorem putBytes_length (d : List Byte) (off : Nat) (bs : List Byte) :
    (putBytes d off bs).length = d.length := by
  induction bs generalizing d off with
  | nil => rfl
  | cons b bs ih => rw [putBytes, ih, List.length_set]

theorem putBytes_getD_other {d : List Byte} {off j : Nat} {bs : List Byte}
    (h : j < off ∨ off + bs.length ≤ j) : (putBytes d off bs).getD j 0#8 = d.getD j 0#8 := by
  induction bs generalizing d off with
  | nil => rfl
  | cons b bs ih =>
    simp only [List.length_cons] at h
    rw [putBytes, ih (by omega)]
    simp [List.getD, show off ≠ j by omega]

theorem putBytes_getD_same {d : List Byte} {off j : Nat} {bs : List Byte} (hj : j < bs.length)
    (hd : off + bs.length ≤ d.length) : (putBytes d off bs).getD (off + j) 0#8 = bs.getD j 0#8 := by
  induction bs generalizing d off j with
  | nil => simp at hj
  | cons b bs ih =>
    simp only [List.length_cons] at hj hd
    rw [putBytes]
    cases j with
    | zero =>
      rw [putBytes_getD_other (by omega)]
      simp [List.getD, show off < d.length by omega]
    | succ j =>
      have := ih (d := d.set off b) (off := off + 1) (j := j) (by omega) (by simp; omega)
      rw [show off + (j + 1) = off + 1 + j by omega, this]
      rfl

@[simp] theorem beBytes_length (w : Word) : (beBytes w).length = 4 := rfl

/-- `BE32(BEbytes(w)) = w`, byte by byte (R71). -/
theorem be32_beBytes (w : Word) :
    be32 ((beBytes w).getD 0 0#8) ((beBytes w).getD 1 0#8) ((beBytes w).getD 2 0#8)
      ((beBytes w).getD 3 0#8) = w := by
  apply BitVec.eq_of_getLsbD_eq
  intro i hi
  simp only [be32, beBytes, List.getD_cons_zero, List.getD_cons_succ, BitVec.getLsbD_append,
    BitVec.getLsbD_extractLsb']
  by_cases h1 : i < 8
  · simp [h1]
  · by_cases h2 : i - 8 < 8
    · simp [h1, h2, show 8 + (i - 8) = i by omega]
    · by_cases h3 : i - 8 - 8 < 8
      · simp [h1, h2, h3, show 16 + (i - 8 - 8) = i by omega]
      · simp [h1, h2, h3, show 24 + (i - 8 - 8 - 8) = i by omega]
        omega

/-! ### Ways of a set -/

theorem CacheSet.line_putLine (S : CacheSet) (k k' : Nat) (L : Line) :
    (S.putLine k L).line k' = if k = k' ∧ k < S.lines.length then L else S.line k' := by
  simp only [CacheSet.line, CacheSet.putLine, List.getD, List.getElem?_set]
  by_cases h : k = k'
  · subst h
    by_cases h2 : k < S.lines.length <;> simp [h2]
  · simp [h]

@[simp] theorem CacheSet.putLine_length (S : CacheSet) (k : Nat) (L : Line) :
    (S.putLine k L).lines.length = S.lines.length := by simp [CacheSet.putLine]

@[simp] theorem CacheSet.putLine_fifo (S : CacheSet) (k : Nat) (L : Line) :
    (S.putLine k L).fifo = S.fifo := rfl

theorem CacheSet.lookup_some {S : CacheSet} {t k : Nat} (h : S.lookup t = some k) :
    k < S.lines.length ∧ (S.line k).holds t = true := by
  obtain ⟨hk, hp, -⟩ := List.findIdx?_eq_some_iff_getElem.1 h
  refine ⟨hk, ?_⟩
  simpa [CacheSet.line, List.getD, hk] using hp

theorem CacheSet.lookup_none {S : CacheSet} {t : Nat} (h : S.lookup t = none) {k : Nat}
    (hk : k < S.lines.length) : (S.line k).holds t = false := by
  have := List.findIdx?_eq_none_iff.1 h (S.lines[k]) (List.getElem_mem hk)
  simpa [CacheSet.line, List.getD, hk] using this

theorem CacheSet.lookup_isSome {S : CacheSet} {t k : Nat} (hk : k < S.lines.length)
    (h : (S.line k).holds t = true) : ∃ k', S.lookup t = some k' := by
  cases e : S.lookup t with
  | none => rw [CacheSet.lookup_none e hk] at h; simp at h
  | some k' => exact ⟨k', rfl⟩

theorem CacheSet.lookup_eq_none {S : CacheSet} {t : Nat}
    (h : ∀ k, k < S.lines.length → (S.line k).holds t = false) : S.lookup t = none := by
  cases e : S.lookup t with
  | none => rfl
  | some k =>
    obtain ⟨hk, hh⟩ := CacheSet.lookup_some e
    rw [h k hk] at hh; simp at hh

theorem Line.holds_iff {L : Line} {t : Nat} : L.holds t = true ↔ L.valid = true ∧ L.tag = t := by
  simp [Line.holds]

/-! ### Victims (R113 to R118) -/

/-- The lines agree in everything but the second-chance flag. -/
structure SameButFlag (L M : Line) : Prop where
  data : M.data = L.data
  tag : M.tag = L.tag
  valid : M.valid = L.valid
  dirty : M.dirty = L.dirty
  lru : M.lru = L.lru

theorem SameButFlag.refl (L : Line) : SameButFlag L L := ⟨rfl, rfl, rfl, rfl, rfl⟩

theorem SameButFlag.holds {L M : Line} (h : SameButFlag L M) (t : Nat) : M.holds t = L.holds t := by
  rw [Line.holds, Line.holds, h.valid, h.tag]

theorem SameButFlag.byteAt {L M : Line} (h : SameButFlag L M) (j : Nat) : M.byteAt j = L.byteAt j := by
  rw [Line.byteAt, Line.byteAt, h.data]

theorem lruVictim_lt {ls : List Line} (h : ls ≠ []) : lruVictim ls < ls.length := by
  induction ls with
  | nil => simp at h
  | cons L rest ih =>
    unfold lruVictim
    split
    · simp
    · rename_i hr
      have : rest ≠ [] := by rintro rfl; simp at hr
      simpa using ih this

theorem clockHit_lt {ls : List Line} {k : Nat} (h : clockHit ls = some k) : k < ls.length := by
  induction ls generalizing k with
  | nil => simp [clockHit] at h
  | cons L rest ih =>
    unfold clockHit at h
    split at h
    · obtain ⟨k', hk', rfl⟩ := Option.map_eq_some_iff.1 h
      simpa using ih hk'
    · simp at h; subst h; simp

@[simp] theorem clockSweep_length (ls : List Line) : (clockSweep ls).length = ls.length := by
  induction ls with
  | nil => rfl
  | cons L rest ih => unfold clockSweep; split <;> simp [ih]

theorem clockSweep_getD (ls : List Line) (k : Nat) (D : Line) :
    SameButFlag (ls.getD k D) ((clockSweep ls).getD k D) := by
  induction ls generalizing k with
  | nil => exact .refl _
  | cons L rest ih =>
    unfold clockSweep
    split
    · cases k with
      | zero => exact ⟨rfl, rfl, rfl, rfl, rfl⟩
      | succ k => simpa using ih k
    · exact .refl _

/-- Everything a victim choice can do: the way exists, and the set changes only in second-chance flags and
the cursor, which stays in range (R113). -/
theorem chooseVictim_spec {c : Config} (n : Nat) {S : CacheSet} (hw : 0 < c.ways)
    (hl : S.lines.length = c.ways) (hf : S.fifo < c.ways) :
    (chooseVictim c n S).way < c.ways ∧
      (chooseVictim c n S).set.lines.length = c.ways ∧
      (chooseVictim c n S).set.fifo < c.ways ∧
      ∀ k, SameButFlag (S.line k) ((chooseVictim c n S).set.line k) := by
  have hne : S.lines ≠ [] := by
    intro e; rw [e] at hl; simp at hl; omega
  unfold chooseVictim
  cases c.repl with
  | random => exact ⟨Nat.mod_lt _ hw, hl, hf, fun k => .refl _⟩
  | fifo => exact ⟨hf, hl, Nat.mod_lt _ hw, fun k => ⟨rfl, rfl, rfl, rfl, rfl⟩⟩
  | lru => exact ⟨hl ▸ lruVictim_lt hne, hl, hf, fun k => .refl _⟩
  | clock =>
    refine ⟨?_, by simpa using hl, hf, fun k => clockSweep_getD _ _ _⟩
    cases e : clockHit S.lines with
    | none => simpa using hw
    | some k => simpa [hl] using clockHit_lt e

end Sys2Proof.Machine
end

