-- ==== Sys2Proof/Laws/Cache.lean ====
section
/-! SUPPORT. The cache controller over the state: what filling a line and serving an access do to the lines,
to memory and to what a load would see; each states once everything the operation can do. -/

namespace Sys2Proof.Machine

/-! ### The shape of the cache (R28, R29) -/

/-- What `cacheFits` says of every set and way. -/
structure State.Fits (s : State) : Prop where
  sets : s.cache.length = s.cfg.setCount
  ways : ∀ i, i < s.cfg.setCount → (s.setAt i).lines.length = s.cfg.ways
  fifo : ∀ i, i < s.cfg.setCount → (s.setAt i).fifo < s.cfg.ways
  data : ∀ i k, i < s.cfg.setCount → k < s.cfg.ways →
    (s.lineAt i k).data.length = s.cfg.lineSize

theorem forall_mem_iff_getD {α : Type} {p : α → Prop} (l : List α) (d : α) :
    (∀ x ∈ l, p x) ↔ ∀ i, i < l.length → p (l.getD i d) := by
  rw [List.forall_mem_iff_forall_getElem]
  constructor
  · intro h i hi; simpa [List.getD, hi] using h i hi
  · intro h i hi; simpa [List.getD, hi] using h i hi

theorem cacheFits_iff (s : State) : s.cacheFits = true ↔ s.Fits := by
  unfold State.cacheFits
  simp only [Bool.and_eq_true, decide_eq_true_eq, List.all_eq_true]
  rw [forall_mem_iff_getD s.cache ⟨[], 0⟩]
  constructor
  · rintro ⟨hs, h⟩
    refine ⟨hs, fun i hi => (h i (hs ▸ hi)).1.1, fun i hi => (h i (hs ▸ hi)).1.2, ?_⟩
    intro i k hi hk
    have h' := h i (hs ▸ hi)
    rw [forall_mem_iff_getD _ (Line.reset 0)] at h'
    exact h'.2 k (h'.1.1 ▸ hk)
  · intro h
    refine ⟨h.sets, fun i hi => ?_⟩
    have hi' : i < s.cfg.setCount := h.sets ▸ hi
    refine ⟨⟨h.ways i hi', h.fifo i hi'⟩, ?_⟩
    rw [forall_mem_iff_getD _ (Line.reset 0)]
    intro k hk
    exact h.data i k hi' (h.ways i hi' ▸ hk)

/-! ### Replacing a set, replacing a line -/

theorem setAt_set {s : State} {i i' : Nat} {S : CacheSet} (hi : i < s.cache.length)
    {t : State} (ht : t.cache = s.cache.set i S) :
    t.setAt i' = if i' = i then S else s.setAt i' := by
  unfold State.setAt
  rw [ht, List.getD_eq_getElem?_getD, List.getElem?_set]
  by_cases h : i' = i
  · subst h; simp [hi]
  · simp [h, Ne.symm h]

/-! ### What a load would see, line by line (R37) -/

theorem lookup_some {s : State} (hf : s.Fits) (hl : s.cfg.Legal) {a k : Nat}
    (h : s.lookup a = some k) : k < s.cfg.ways ∧ (s.lineOf a k).holds (tagOf s.cfg a) = true := by
  obtain ⟨hk, hh⟩ := CacheSet.lookup_some h
  rw [hf.ways _ (setIndexOf_lt hl a)] at hk
  exact ⟨hk, hh⟩

theorem lookup_none {s : State} (hf : s.Fits) (hl : s.cfg.Legal) {a : Nat} (h : s.lookup a = none)
    {k : Nat} (hk : k < s.cfg.ways) : (s.lineOf a k).holds (tagOf s.cfg a) = false := by
  rw [← hf.ways _ (setIndexOf_lt hl a)] at hk
  exact CacheSet.lookup_none h hk

theorem lookup_eq_some {s : State} (hf : s.Fits) (hl : s.cfg.Legal) (hu : s.UniqueTags) {a k : Nat}
    (hk : k < s.cfg.ways) (hh : (s.lineOf a k).holds (tagOf s.cfg a) = true) : s.lookup a = some k := by
  have hi := setIndexOf_lt hl a
  obtain ⟨k', e⟩ := CacheSet.lookup_isSome (S := s.setAt (setIndexOf s.cfg a)) (t := tagOf s.cfg a)
    (k := k) (by rw [hf.ways _ hi]; exact hk) hh
  obtain ⟨hk', hh'⟩ := lookup_some hf hl (a := a) e
  rw [Line.holds_iff] at hh hh'
  have : k' = k := hu _ _ _ hi hk' hk hh'.1 hh.1 (by
    show (s.lineOf a k').tag = (s.lineOf a k).tag
    rw [hh'.2, hh.2])
  subst this
  exact e

theorem lookup_eq_none {s : State} (hf : s.Fits) (hl : s.cfg.Legal) {a : Nat}
    (h : ∀ k, k < s.cfg.ways → (s.lineOf a k).holds (tagOf s.cfg a) = false) : s.lookup a = none := by
  refine CacheSet.lookup_eq_none fun k hk => ?_
  rw [hf.ways _ (setIndexOf_lt hl a)] at hk
  exact h k hk

/-- A resident byte is read from its line. -/
theorem archMem_resident {s : State} (hf : s.Fits) (hl : s.cfg.Legal) (hu : s.UniqueTags) {a k : Nat}
    (hk : k < s.cfg.ways) (hh : (s.lineOf a k).holds (tagOf s.cfg a) = true) :
    s.archMem a = (s.lineOf a k).byteAt (offsetOf s.cfg a) := by
  rw [State.archMem, lookup_eq_some hf hl hu hk hh]

/-- A byte that is not resident is read from memory. -/
theorem archMem_absent {s : State} {a : Nat} (h : s.lookup a = none) :
    s.archMem a = Memory.read s.mem a := by
  rw [State.archMem, h]

/-- Addresses of one block are looked up alike. -/
theorem lookup_congr {s : State} {a b : Nat} (h : blockOf s.cfg a = blockOf s.cfg b) :
    s.lookup a = s.lookup b := by
  unfold State.lookup
  rw [tagOf_congr h, setIndexOf_congr h]

theorem lineOf_congr {s : State} {a b : Nat} (h : blockOf s.cfg a = blockOf s.cfg b) (k : Nat) :
    s.lineOf a k = s.lineOf b k := by
  unfold State.lineOf
  rw [setIndexOf_congr h]

/-! ### Serving an access from way `k` (R104, R105, R110, R112) -/

section serve

variable {s : State} {a k : Nat} {dir : Direction}

@[simp] theorem serve_cfg : (s.serve a k dir).cfg = s.cfg := rfl
@[simp] theorem serve_regs : (s.serve a k dir).regs = s.regs := rfl
@[simp] theorem serve_pc : (s.serve a k dir).pc = s.pc := rfl
@[simp] theorem serve_stat : (s.serve a k dir).stat = s.stat := rfl
@[simp] theorem serve_run : (s.serve a k dir).run = s.run := rfl
@[simp] theorem serve_reports : (s.serve a k dir).reports = s.reports := rfl
@[simp] theorem serve_wordDraws : (s.serve a k dir).wordDraws = s.wordDraws := rfl
@[simp] theorem serve_wayDraws : (s.serve a k dir).wayDraws = s.wayDraws := rfl

/-- The line a served access leaves. -/
def servedLine (s : State) (a k : Nat) (dir : Direction) : Line :=
  (transfer s.cfg s.mem (s.lineOf a k) a dir).line.touch s.stat.nInstr

theorem servedLine_fields (s : State) (a k : Nat) (dir : Direction) :
    (servedLine s a k dir).tag = (s.lineOf a k).tag ∧
      (servedLine s a k dir).valid = (s.lineOf a k).valid ∧
      (servedLine s a k dir).lru = s.stat.nInstr ∧ (servedLine s a k dir).sc = true ∧
      (servedLine s a k dir).data.length = (s.lineOf a k).data.length := by
  unfold servedLine transfer
  cases dir with
  | read => exact ⟨rfl, rfl, rfl, rfl, rfl⟩
  | write w =>
    cases s.cfg.wpol <;> exact ⟨rfl, rfl, rfl, rfl, putBytes_length _ _ _⟩

theorem serve_lineAt (hf : s.Fits) (hl : s.cfg.Legal) (hk : k < s.cfg.ways) (i' k' : Nat) :
    (s.serve a k dir).lineAt i' k' =
      if i' = setIndexOf s.cfg a ∧ k' = k then servedLine s a k dir else s.lineAt i' k' := by
  have hi := setIndexOf_lt hl a
  unfold State.lineAt
  rw [setAt_set (s := s) (i := setIndexOf s.cfg a) (by rw [hf.sets]; exact hi) rfl]
  by_cases h : i' = setIndexOf s.cfg a
  · subst h
    rw [if_pos rfl, CacheSet.line_putLine, hf.ways _ hi]
    by_cases h2 : k = k'
    · subst h2; rw [if_pos ⟨rfl, hk⟩, if_pos ⟨rfl, rfl⟩]; rfl
    · rw [if_neg (fun e => h2 e.1), if_neg (fun e => h2 e.2.symm)]
  · rw [if_neg h, if_neg (fun e => h e.1)]

theorem serve_fits (hf : s.Fits) (hl : s.cfg.Legal) (hk : k < s.cfg.ways) :
    (s.serve a k dir).Fits := by
  have hi := setIndexOf_lt hl a
  have hset := fun i' => setAt_set (s := s) (i := setIndexOf s.cfg a) (i' := i')
    (by rw [hf.sets]; exact hi) (t := s.serve a k dir) rfl
  refine ⟨?_, ?_, ?_, ?_⟩
  · simp [State.serve, hf.sets]
  · intro i' hi'
    rw [hset]
    split
    · simp [hf.ways _ hi]
    · exact hf.ways _ hi'
  · intro i' hi'
    rw [hset]
    split
    · exact hf.fifo _ hi
    · exact hf.fifo _ hi'
  · intro i' k' hi' hk'
    rw [serve_lineAt hf hl hk]
    split
    · rw [(servedLine_fields s a k dir).2.2.2.2]
      exact hf.data _ _ hi hk
    · exact hf.data _ _ hi' hk'

/-- Main memory after a served access: only a write-through store writes it (R112). -/
theorem serve_mem_read {b : Nat}
    (h : ∀ w, dir = .write w → s.cfg.wpol = .writeThrough → b < a ∨ a + 4 ≤ b) :
    Memory.read (s.serve a k dir).mem b = Memory.read s.mem b := by
  unfold State.serve transfer
  cases dir with
  | read => rfl
  | write w =>
    cases e : s.cfg.wpol with
    | writeBack => rfl
    | writeThrough => exact Memory.read_writeBytes_other (h w rfl e)

theorem serve_mem_written {w : Word} {j : Nat} (hm : Memory.wf s.mem = true)
    (hw : s.cfg.wpol = .writeThrough) (hj : j < 4) :
    Memory.read (s.serve a k (.write w)).mem (a + j) = (beBytes w).getD j 0#8 := by
  have : (s.serve a k (.write w)).mem = Memory.writeBytes s.mem a (beBytes w) := by
    unfold State.serve transfer; rw [hw]
  rw [this, Memory.read_writeBytes_same hm (by simpa using hj)]

theorem serve_mem_wf (hm : Memory.wf s.mem = true) : Memory.wf (s.serve a k dir).mem = true := by
  unfold State.serve transfer
  cases dir with
  | read => exact hm
  | write w =>
    cases s.cfg.wpol with
    | writeBack => exact hm
    | writeThrough => exact Memory.wf_writeBytes _ _ hm

/-- Byte `j` of the served line: the four bytes of a write at the offset, else as before (R104). -/
theorem servedLine_byteAt_other {j : Nat}
    (h : ∀ w, dir = .write w → j < offsetOf s.cfg a ∨ offsetOf s.cfg a + 4 ≤ j) :
    (servedLine s a k dir).byteAt j = (s.lineOf a k).byteAt j := by
  unfold servedLine transfer
  cases dir with
  | read => rfl
  | write w =>
    cases s.cfg.wpol <;> exact putBytes_getD_other (h w rfl)

theorem servedLine_byteAt_written {w : Word} {j : Nat} (hj : j < 4)
    (hd : offsetOf s.cfg a + 4 ≤ (s.lineOf a k).data.length) :
    (servedLine s a k (.write w)).byteAt (offsetOf s.cfg a + j) = (beBytes w).getD j 0#8 := by
  unfold servedLine transfer
  cases s.cfg.wpol <;> exact putBytes_getD_same (by simpa using hj) (by simpa using hd)

theorem servedLine_dirty (s : State) (a k : Nat) (dir : Direction) :
    (servedLine s a k dir).dirty =
      match dir, s.cfg.wpol with
      | .write _, .writeBack => true
      | _, _ => (s.lineOf a k).dirty := by
  unfold servedLine transfer
  cases dir with
  | read => rfl
  | write w => cases s.cfg.wpol <;> rfl

end serve

/-! ### What serving and filling leave of the invariants and of what a load would see -/

/-- Tags stay unique when tags and validity stay. -/
theorem unique_of_same {s t : State} (hu : s.UniqueTags) (hc : t.cfg = s.cfg)
    (h : ∀ i k, i < s.cfg.setCount → k < s.cfg.ways →
      (t.lineAt i k).tag = (s.lineAt i k).tag ∧ (t.lineAt i k).valid = (s.lineAt i k).valid) :
    t.UniqueTags := by
  intro i k k' hi hk hk' hv hv' ht
  rw [hc] at hi hk hk'
  rw [(h i k hi hk).2] at hv
  rw [(h i k' hi hk').2] at hv'
  rw [(h i k hi hk).1, (h i k' hi hk').1] at ht
  exact hu i k k' hi hk hk' hv hv' ht

section serve

variable {s : State} {a k : Nat} {dir : Direction}

theorem serve_tag_valid (hf : s.Fits) (hl : s.cfg.Legal) (hk : k < s.cfg.ways) (i' k' : Nat) :
    ((s.serve a k dir).lineAt i' k').tag = (s.lineAt i' k').tag ∧
      ((s.serve a k dir).lineAt i' k').valid = (s.lineAt i' k').valid := by
  rw [serve_lineAt hf hl hk]
  split
  · rename_i h
    obtain ⟨rfl, rfl⟩ := h
    exact ⟨(servedLine_fields s a k' dir).1, (servedLine_fields s a k' dir).2.1⟩
  · exact ⟨rfl, rfl⟩

theorem serve_holds (hf : s.Fits) (hl : s.cfg.Legal) (hk : k < s.cfg.ways) (b k' t : Nat) :
    ((s.serve a k dir).lineOf b k').holds t = (s.lineOf b k').holds t := by
  have h := serve_tag_valid (dir := dir) (a := a) hf hl hk (setIndexOf s.cfg b) k'
  unfold Line.holds State.lineOf
  rw [serve_cfg, h.1, h.2]

theorem serve_unique (hf : s.Fits) (hl : s.cfg.Legal) (hu : s.UniqueTags) (hk : k < s.cfg.ways) :
    (s.serve a k dir).UniqueTags :=
  unique_of_same hu rfl fun i' k' _ _ => serve_tag_valid hf hl hk i' k'

/-- An address outside the four bytes of an aligned word, in the word's own block, has an offset outside
the word's offsets. -/
theorem offset_outside {b : Nat} (hb : blockOf s.cfg b = blockOf s.cfg a)
    (h : b < a ∨ a + 4 ≤ b) :
    offsetOf s.cfg b < offsetOf s.cfg a ∨ offsetOf s.cfg a + 4 ≤ offsetOf s.cfg b := by
  have ea := baseOf_add_offsetOf s.cfg a
  have eb := baseOf_add_offsetOf s.cfg b
  rw [tagOf_congr hb, setIndexOf_congr hb] at eb
  omega

/-- An address of another block is outside the four bytes of an aligned word. -/
theorem outside_of_block (hl : s.cfg.Legal) (ha : a % 4 = 0) {b : Nat}
    (hb : blockOf s.cfg b ≠ blockOf s.cfg a) : b < a ∨ a + 4 ≤ b := by
  by_contra h
  have e := (blockOf_word (j := b - a) hl ha (by omega)).1
  rw [show a + (b - a) = b by omega] at e
  exact hb e

/-- A served access never changes what a load would see, but for the four bytes of a write (R37). -/
theorem serve_archMem_other (hf : s.Fits) (hl : s.cfg.Legal) (hu : s.UniqueTags) (hk : k < s.cfg.ways)
    (hh : (s.lineOf a k).holds (tagOf s.cfg a) = true) (ha : a % 4 = 0) {b : Nat}
    (hb : ∀ w, dir = .write w → b < a ∨ a + 4 ≤ b) :
    (s.serve a k dir).archMem b = s.archMem b := by
  have hf' := serve_fits (a := a) (dir := dir) hf hl hk
  have hu' := serve_unique (a := a) (dir := dir) hf hl hu hk
  by_cases hblk : blockOf s.cfg b = blockOf s.cfg a
  · have hhb : (s.lineOf b k).holds (tagOf s.cfg b) = true := by
      rw [lineOf_congr hblk, tagOf_congr hblk]; exact hh
    rw [archMem_resident hf hl hu hk hhb,
      archMem_resident hf' hl hu' hk (by rw [serve_holds hf hl hk]; exact hhb)]
    rw [serve_cfg, lineOf_congr hblk, State.lineOf, serve_cfg, setIndexOf_congr hblk,
      serve_lineAt hf hl hk, if_pos ⟨rfl, rfl⟩]
    exact servedLine_byteAt_other fun w hw => offset_outside hblk (hb w hw)
  · cases e : s.lookup b with
    | none =>
      have e' : (s.serve a k dir).lookup b = none := by
        refine lookup_eq_none hf' hl fun k' hk' => ?_
        rw [serve_holds hf hl hk]
        exact lookup_none hf hl e hk'
      rw [archMem_absent e, archMem_absent e', serve_mem_read]
      intro w _ _
      exact outside_of_block hl ha hblk
    | some k' =>
      obtain ⟨hk', hh'⟩ := lookup_some hf hl e
      rw [archMem_resident hf hl hu hk' hh',
        archMem_resident hf' hl hu' hk' (by rw [serve_holds hf hl hk]; exact hh')]
      rw [State.lineOf, serve_cfg, serve_lineAt hf hl hk, if_neg]
      · rfl
      · rintro ⟨hi, rfl⟩
        refine hblk (blockOf_eq ?_ hi)
        rw [State.lineOf, hi] at hh'
        exact (Line.holds_iff.1 hh').2.symm.trans (Line.holds_iff.1 hh).2

/-- The four bytes of a served write are what a load then sees (R104, R37). -/
theorem serve_archMem_written (hf : s.Fits) (hl : s.cfg.Legal) (hu : s.UniqueTags) (hk : k < s.cfg.ways)
    (hh : (s.lineOf a k).holds (tagOf s.cfg a) = true) (ha : a % 4 = 0) {w : Word} {j : Nat}
    (hj : j < 4) : (s.serve a k (.write w)).archMem (a + j) = (beBytes w).getD j 0#8 := by
  obtain ⟨hblk, hoff⟩ := blockOf_word (j := j) hl ha hj
  have hhb : (s.lineOf (a + j) k).holds (tagOf s.cfg (a + j)) = true := by
    rw [lineOf_congr hblk, tagOf_congr hblk]; exact hh
  rw [archMem_resident (serve_fits hf hl hk) hl (serve_unique hf hl hu hk) hk
    (by rw [serve_holds hf hl hk]; exact hhb)]
  rw [State.lineOf, serve_cfg, setIndexOf_congr hblk, serve_lineAt hf hl hk, if_pos ⟨rfl, rfl⟩, hoff]
  refine servedLine_byteAt_written hj ?_
  have := hf.data _ _ (setIndexOf_lt hl a) hk
  have := offsetOf_word hl ha
  unfold State.lineOf
  omega

/-- The word a served read delivers is what a load sees (R104, R271). -/
theorem servedWord_read (hf : s.Fits) (hl : s.cfg.Legal) (hu : s.UniqueTags) (hk : k < s.cfg.ways)
    (hh : (s.lineOf a k).holds (tagOf s.cfg a) = true) (ha : a % 4 = 0) :
    s.servedWord a k .read = s.archWord a := by
  have key : ∀ j, j < 4 → s.archMem (a + j) = (s.lineOf a k).byteAt (offsetOf s.cfg a + j) := by
    intro j hj
    obtain ⟨hblk, hoff⟩ := blockOf_word (j := j) hl ha hj
    rw [archMem_resident hf hl hu hk (by rw [lineOf_congr hblk, tagOf_congr hblk]; exact hh),
      lineOf_congr hblk, hoff]
  have h0 := key 0 (by omega)
  rw [Nat.add_zero, Nat.add_zero] at h0
  rw [State.archWord, h0, key 1 (by omega), key 2 (by omega), key 3 (by omega)]
  rfl

/-- Serving an access from the line that holds its block keeps every invariant (R30). -/
theorem serve_inv (h : s.Inv) (h1 : 1 ≤ s.stat.nInstr) (hk : k < s.cfg.ways)
    (hh : (s.lineOf a k).holds (tagOf s.cfg a) = true) (ha : a % 4 = 0) (hr : a + 4 ≤ s.cfg.memSize) :
    (s.serve a k dir).Inv := by
  have hf := (cacheFits_iff s).1 h.fits
  have hl := h.legal
  have hi := setIndexOf_lt hl a
  have hh' := Line.holds_iff.1 hh
  refine ⟨hl, (cacheFits_iff _).2 (serve_fits hf hl hk), serve_mem_wf h.memWf, ?_, h.regZero,
    serve_unique hf hl h.unique hk, ?_, ?_, ?_, ?_⟩
  · intro b hb
    rw [serve_cfg] at hb
    rw [serve_mem_read (fun _ _ _ => by omega)]
    exact h.memInRange b hb
  · intro i' k' hi' hk' hd
    rw [serve_lineAt hf hl hk] at hd ⊢
    split
    · rename_i hik
      rw [if_pos hik, servedLine_dirty] at hd
      refine ⟨(servedLine_fields s a k dir).2.1.trans hh'.1, ?_⟩
      rw [serve_cfg]
      split at hd
      · assumption
      · exact (h.dirty _ _ hi hk hd).2
    · rename_i hik
      rw [if_neg hik] at hd
      exact h.dirty _ _ hi' hk' hd
  · intro i' k' hi' hk' hv
    rw [(serve_tag_valid hf hl hk i' k').2] at hv
    rw [(serve_tag_valid hf hl hk i' k').1]
    exact h.resident _ _ hi' hk' hv
  · intro i' k' j hi' hk' hj hv hd
    rw [(serve_tag_valid hf hl hk i' k').1]
    rw [(serve_tag_valid hf hl hk i' k').2] at hv
    rw [serve_cfg] at hi' hk' hj ⊢
    rw [serve_lineAt hf hl hk] at hd ⊢
    by_cases hik : i' = setIndexOf s.cfg a ∧ k' = k
    · obtain ⟨rfl, rfl⟩ := hik
      rw [if_pos ⟨rfl, rfl⟩] at hd ⊢
      have htag : (s.lineAt (setIndexOf s.cfg a) k').tag = tagOf s.cfg a := hh'.2
      have hbase := baseOf_add_offsetOf s.cfg a
      rw [servedLine_dirty] at hd
      have hd' : (s.lineOf a k').dirty = false := by
        split at hd
        · simp at hd
        · exact hd
      have hold := h.coherent _ _ j hi hk' hj hv hd'
      cases dir with
      | read => exact hold
      | write w =>
        cases hw : s.cfg.wpol with
        | writeBack => simp [hw] at hd
        | writeThrough =>
          rw [htag] at hold ⊢
          by_cases hin : j < offsetOf s.cfg a ∨ offsetOf s.cfg a + 4 ≤ j
          · rw [servedLine_byteAt_other (fun _ _ => hin), serve_mem_read (fun _ _ _ => by omega)]
            exact hold
          · obtain ⟨m, hm, rfl⟩ : ∃ m, m < 4 ∧ j = offsetOf s.cfg a + m :=
              ⟨j - offsetOf s.cfg a, by omega, by omega⟩
            have := hf.data _ _ hi hk'
            have := offsetOf_word hl ha
            rw [servedLine_byteAt_written hm (by unfold State.lineOf; omega), ← Nat.add_assoc, hbase,
              serve_mem_written h.memWf hw hm]
    · rw [if_neg hik] at hd ⊢
      rw [serve_mem_read]
      · exact h.coherent _ _ j hi' hk' hj hv hd
      · intro w _ _
        refine outside_of_block hl ha fun e => hik ?_
        have hi'' : i' = setIndexOf s.cfg a := by
          rw [← setIndexOf_congr e, setIndexOf_baseOf hl hi' hj]
        subst hi''
        refine ⟨rfl, h.unique _ _ _ hi hk' hk hv hh'.1 ?_⟩
        show _ = (s.lineOf a k).tag
        rw [hh'.2, ← tagOf_congr e, tagOf_baseOf hl hi hj]
  · intro i' k' hi' hk' hv
    rw [(serve_tag_valid hf hl hk i' k').2] at hv
    rw [serve_lineAt hf hl hk]
    split
    · rw [(servedLine_fields s a k dir).2.2.1]
      exact ⟨h1, Nat.le_refl _⟩
    · exact h.stamps _ _ hi' hk' hv

end serve

/-! ### Filling a line (R106 (1) to (4)) -/

section fill

variable {s : State} {a : Nat}

@[simp] theorem fillLine_cfg : (s.fillLine a).cfg = s.cfg := rfl
@[simp] theorem fillLine_regs : (s.fillLine a).regs = s.regs := rfl
@[simp] theorem fillLine_pc : (s.fillLine a).pc = s.pc := rfl
@[simp] theorem fillLine_stat : (s.fillLine a).stat = s.stat := rfl
@[simp] theorem fillLine_run : (s.fillLine a).run = s.run := rfl
@[simp] theorem fillLine_reports : (s.fillLine a).reports = s.reports := rfl
@[simp] theorem fillLine_wordDraws : (s.fillLine a).wordDraws = s.wordDraws := rfl

/-- The victim of a miss at `a`, before it is replaced. -/
def victimLine (s : State) (a : Nat) : Line := s.lineOf a (s.choice a).way

theorem choice_spec (hf : s.Fits) (hl : s.cfg.Legal) (a : Nat) :
    (s.choice a).way < s.cfg.ways ∧
      (s.choice a).set.lines.length = s.cfg.ways ∧
      (s.choice a).set.fifo < s.cfg.ways ∧
      ∀ k, SameButFlag (s.lineOf a k) ((s.choice a).set.line k) :=
  chooseVictim_spec _ (legal_ways_pos hl) (hf.ways _ (setIndexOf_lt hl a))
    (hf.fifo _ (setIndexOf_lt hl a))

/-- Main memory after the victim's write-back. -/
def evictedMem (s : State) (a : Nat) : Memory :=
  writeBack s.cfg s.mem (setIndexOf s.cfg a) (victimLine s a)

theorem fillLine_mem (hf : s.Fits) (hl : s.cfg.Legal) : (s.fillLine a).mem = evictedMem s a := by
  obtain ⟨-, -, -, hs⟩ := choice_spec hf hl a
  have := hs (s.choice a).way
  have e : (s.fillLine a).mem =
      writeBack s.cfg s.mem (setIndexOf s.cfg a) ((s.choice a).set.line (s.choice a).way) := rfl
  rw [e, evictedMem, victimLine, writeBack, writeBack, this.valid, this.dirty, this.tag, this.data]

/-- The line a miss installs. -/
def filledLine (s : State) (a : Nat) : Line :=
  installed (tagOf s.cfg a) s.stat.nInstr
    (Memory.readBytes (s.fillLine a).mem (blockOf s.cfg a * s.cfg.lineSize) s.cfg.lineSize)

theorem fillLine_lineAt (hf : s.Fits) (hl : s.cfg.Legal) (i' k' : Nat) :
    (s.fillLine a).lineAt i' k' =
      if i' = setIndexOf s.cfg a then
        if k' = (s.choice a).way then filledLine s a else (s.choice a).set.line k'
      else s.lineAt i' k' := by
  have hi := setIndexOf_lt hl a
  obtain ⟨hw, hlen, -, -⟩ := choice_spec hf hl a
  unfold State.lineAt
  rw [setAt_set (s := s) (i := setIndexOf s.cfg a) (by rw [hf.sets]; exact hi) rfl]
  split
  · rw [CacheSet.line_putLine, hlen]
    by_cases h : k' = (s.choice a).way
    · subst h; rw [if_pos ⟨rfl, hw⟩, if_pos rfl]; rfl
    · rw [if_neg (fun e => h e.1.symm), if_neg h]
  · rfl

/-- Every way but the victim is as before, up to its second-chance flag. -/
theorem fillLine_lineAt_other (hf : s.Fits) (hl : s.cfg.Legal) {i' k' : Nat}
    (h : ¬(i' = setIndexOf s.cfg a ∧ k' = (s.choice a).way)) :
    SameButFlag (s.lineAt i' k') ((s.fillLine a).lineAt i' k') := by
  rw [fillLine_lineAt hf hl]
  split
  · rename_i hi
    subst hi
    rw [if_neg (fun e => h ⟨rfl, e⟩)]
    exact (choice_spec hf hl a).2.2.2 k'
  · exact .refl _

theorem fillLine_lineAt_victim (hf : s.Fits) (hl : s.cfg.Legal) :
    (s.fillLine a).lineAt (setIndexOf s.cfg a) (s.choice a).way = filledLine s a := by
  rw [fillLine_lineAt hf hl, if_pos rfl, if_pos rfl]

theorem fillLine_fits (hf : s.Fits) (hl : s.cfg.Legal) : (s.fillLine a).Fits := by
  have hi := setIndexOf_lt hl a
  obtain ⟨hw, hlen, hfifo, hsame⟩ := choice_spec hf hl a
  have hset := fun i' => setAt_set (s := s) (i := setIndexOf s.cfg a) (i' := i')
    (by rw [hf.sets]; exact hi) (t := s.fillLine a) rfl
  refine ⟨by simp [State.fillLine, hf.sets], ?_, ?_, ?_⟩
  · intro i' hi'
    rw [hset]
    split
    · simpa using hlen
    · exact hf.ways _ hi'
  · intro i' hi'
    rw [hset]
    split
    · exact hfifo
    · exact hf.fifo _ hi'
  · intro i' k' hi' hk'
    by_cases h : i' = setIndexOf s.cfg a ∧ k' = (s.choice a).way
    · obtain ⟨rfl, rfl⟩ := h
      rw [fillLine_lineAt_victim hf hl]
      simp [filledLine, installed]
    · rw [(fillLine_lineAt_other hf hl h).data]
      exact hf.data _ _ hi' hk'

/-- The write-back writes the victim's bytes to the victim's block and nothing else (R107). -/
theorem evictedMem_read_other (hf : s.Fits) (hl : s.cfg.Legal) {b : Nat}
    (h : (victimLine s a).valid = true → (victimLine s a).dirty = true →
      blockOf s.cfg b ≠ (victimLine s a).tag * s.cfg.setCount + setIndexOf s.cfg a) :
    Memory.read (evictedMem s a) b = Memory.read s.mem b := by
  unfold evictedMem writeBack
  split
  · rename_i hvd
    rw [Bool.and_eq_true] at hvd
    have hb := h hvd.1 hvd.2
    refine Memory.read_writeBytes_other ?_
    have hd : (victimLine s a).data.length = s.cfg.lineSize :=
      hf.data _ _ (setIndexOf_lt hl a) (choice_spec hf hl a).1
    rw [hd]
    by_contra hin
    refine hb ?_
    rw [← blockOf_baseOf (i := setIndexOf s.cfg a) (t := (victimLine s a).tag) hl
      (j := b - baseOf s.cfg (victimLine s a).tag (setIndexOf s.cfg a)) (by omega)]
    congr 1
    omega
  · rfl

/-- After the write-back, memory holds the victim's bytes: written back if dirty, there already if clean. -/
theorem evictedMem_read_victim (h : s.Inv) (hv : (victimLine s a).valid = true) {j : Nat}
    (hj : j < s.cfg.lineSize) :
    Memory.read (evictedMem s a) (baseOf s.cfg (victimLine s a).tag (setIndexOf s.cfg a) + j) =
      (victimLine s a).byteAt j := by
  have hf := (cacheFits_iff s).1 h.fits
  have hi := setIndexOf_lt h.legal a
  have hw := (choice_spec hf h.legal a).1
  have hd : (victimLine s a).data.length = s.cfg.lineSize := hf.data _ _ hi hw
  unfold evictedMem writeBack
  cases hdirty : (victimLine s a).dirty with
  | true =>
    rw [if_pos (by rw [hv]; rfl), Memory.read_writeBytes_same h.memWf (by rw [hd]; exact hj)]
    rfl
  | false =>
    rw [if_neg (by simp)]
    exact (h.coherent _ _ j hi hw hj hv hdirty).symm

/-- The victim of a miss does not hold the missing block. -/
theorem victim_block_ne (hf : s.Fits) (hl : s.cfg.Legal) (hm : s.lookup a = none)
    (hv : (victimLine s a).valid = true) :
    blockOf s.cfg a ≠ (victimLine s a).tag * s.cfg.setCount + setIndexOf s.cfg a := by
  intro e
  have hno := lookup_none hf hl hm (choice_spec hf hl a).1
  rw [← tagOf_setIndexOf s.cfg a] at e
  have ht : tagOf s.cfg a = (victimLine s a).tag :=
    Nat.eq_of_mul_eq_mul_right (legal_setCount_pos hl) (by omega)
  rw [ht] at hno
  have : (victimLine s a).holds (victimLine s a).tag = true := by
    rw [Line.holds_iff]; exact ⟨hv, rfl⟩
  rw [victimLine] at this hno
  rw [hno] at this
  simp at this

theorem filledLine_byteAt (hf : s.Fits) (hl : s.cfg.Legal) {j : Nat} (hj : j < s.cfg.lineSize) :
    (filledLine s a).byteAt j =
      Memory.read (evictedMem s a) (blockOf s.cfg a * s.cfg.lineSize + j) := by
  rw [filledLine, fillLine_mem hf hl]
  exact Memory.readBytes_getD _ _ hj

/-- The freshly filled line holds the block (R108). -/
theorem fillLine_holds (hf : s.Fits) (hl : s.cfg.Legal) :
    ((s.fillLine a).lineOf a (s.choice a).way).holds (tagOf s.cfg a) = true := by
  rw [State.lineOf, fillLine_cfg, fillLine_lineAt_victim hf hl, Line.holds_iff]
  exact ⟨rfl, rfl⟩

theorem fillLine_unique (hf : s.Fits) (hl : s.cfg.Legal) (hu : s.UniqueTags) (hm : s.lookup a = none) :
    (s.fillLine a).UniqueTags := by
  have hno : ∀ k, k < s.cfg.ways → k ≠ (s.choice a).way →
      ((s.fillLine a).lineAt (setIndexOf s.cfg a) k).valid = true →
      ((s.fillLine a).lineAt (setIndexOf s.cfg a) k).tag ≠ tagOf s.cfg a := by
    intro k hk hne hv ht
    have hs := fillLine_lineAt_other (a := a) (i' := setIndexOf s.cfg a) (k' := k) hf hl
      (fun e => hne e.2)
    have := lookup_none hf hl hm hk
    rw [State.lineOf, ← hs.holds, Bool.eq_false_iff] at this
    exact this (Line.holds_iff.2 ⟨hv, ht⟩)
  intro i k k' hi hk hk' hv hv' ht
  rw [fillLine_cfg] at hi hk hk'
  by_cases hiS : i = setIndexOf s.cfg a
  · subst hiS
    by_cases h1 : k = (s.choice a).way
    · by_cases h2 : k' = (s.choice a).way
      · rw [h1, h2]
      · subst h1
        rw [fillLine_lineAt_victim hf hl] at ht
        exact absurd ht.symm (hno k' hk' h2 hv')
    · by_cases h2 : k' = (s.choice a).way
      · subst h2
        rw [fillLine_lineAt_victim hf hl] at ht
        exact absurd ht (hno k hk h1 hv)
      · have hs := fillLine_lineAt_other (a := a) (i' := setIndexOf s.cfg a) (k' := k) hf hl
          (fun e => h1 e.2)
        have hs' := fillLine_lineAt_other (a := a) (i' := setIndexOf s.cfg a) (k' := k') hf hl
          (fun e => h2 e.2)
        rw [hs.valid] at hv
        rw [hs'.valid] at hv'
        rw [hs.tag, hs'.tag] at ht
        exact hu _ _ _ hi hk hk' hv hv' ht
  · have hs := fillLine_lineAt_other (a := a) (i' := i) (k' := k) hf hl (fun e => hiS e.1)
    have hs' := fillLine_lineAt_other (a := a) (i' := i) (k' := k') hf hl (fun e => hiS e.1)
    rw [hs.valid] at hv
    rw [hs'.valid] at hv'
    rw [hs.tag, hs'.tag] at ht
    exact hu _ _ _ hi hk hk' hv hv' ht

/-- Filling a line after a miss keeps every invariant (R30). -/
theorem fillLine_inv (h : s.Inv) (h1 : 1 ≤ s.stat.nInstr) (hm : s.lookup a = none)
    (hr : a < s.cfg.memSize) : (s.fillLine a).Inv := by
  have hf := (cacheFits_iff s).1 h.fits
  have hl := h.legal
  have hi := setIndexOf_lt hl a
  have hw := (choice_spec hf hl a).1
  have hmem := fillLine_mem (a := a) hf hl
  refine ⟨hl, (cacheFits_iff _).2 (fillLine_fits hf hl), ?_, ?_, h.regZero,
    fillLine_unique hf hl h.unique hm, ?_, ?_, ?_, ?_⟩
  · rw [hmem, evictedMem, writeBack]
    split
    · exact Memory.wf_writeBytes _ _ h.memWf
    · exact h.memWf
  · intro b hb
    rw [fillLine_cfg] at hb
    rw [hmem, evictedMem_read_other hf hl]
    · exact h.memInRange b hb
    · intro hv _ e
      have hres := h.resident _ _ hi hw hv
      have : b < (blockOf s.cfg b + 1) * s.cfg.lineSize := by
        rw [Nat.mul_comm]
        exact Nat.lt_mul_div_succ b (legal_lineSize_pos hl)
      rw [e] at this
      exact absurd (Nat.lt_of_lt_of_le this hres) (by omega)
  · intro i' k' hi' hk' hd
    by_cases hik : i' = setIndexOf s.cfg a ∧ k' = (s.choice a).way
    · obtain ⟨rfl, rfl⟩ := hik
      rw [fillLine_lineAt_victim hf hl] at hd
      simp [filledLine, installed] at hd
    · have hs := fillLine_lineAt_other (a := a) hf hl hik
      rw [hs.dirty] at hd
      rw [hs.valid]
      exact h.dirty _ _ hi' hk' hd
  · intro i' k' hi' hk' hv
    by_cases hik : i' = setIndexOf s.cfg a ∧ k' = (s.choice a).way
    · obtain ⟨rfl, rfl⟩ := hik
      rw [fillLine_lineAt_victim hf hl]
      show (tagOf s.cfg a * s.cfg.setCount + setIndexOf s.cfg a + 1) * s.cfg.lineSize ≤ s.cfg.memSize
      rw [tagOf_setIndexOf]
      exact block_inside hl hr
    · have hs := fillLine_lineAt_other (a := a) hf hl hik
      rw [hs.valid] at hv
      rw [hs.tag]
      exact h.resident _ _ hi' hk' hv
  · intro i' k' j hi' hk' hj hv hd
    rw [fillLine_cfg] at hi' hk' hj ⊢
    rw [hmem]
    by_cases hik : i' = setIndexOf s.cfg a ∧ k' = (s.choice a).way
    · obtain ⟨rfl, rfl⟩ := hik
      rw [fillLine_lineAt_victim hf hl, filledLine_byteAt hf hl hj]
      show _ = Memory.read _ (baseOf s.cfg (tagOf s.cfg a) (setIndexOf s.cfg a) + j)
      rw [baseOf_tagOf]
    · have hs := fillLine_lineAt_other (a := a) hf hl hik
      rw [hs.valid] at hv
      rw [hs.dirty] at hd
      rw [hs.byteAt, hs.tag, evictedMem_read_other hf hl]
      · exact h.coherent _ _ j hi' hk' hj hv hd
      · intro hvv _ e
        rw [blockOf_baseOf hl hj] at e
        have hie : i' = setIndexOf s.cfg a := by
          have := congrArg (· % s.cfg.setCount) e
          simpa [Nat.mul_add_mod_self_right, Nat.mod_eq_of_lt hi', Nat.mod_eq_of_lt hi] using this
        subst hie
        refine hik ⟨rfl, h.unique _ _ _ hi hk' hw hv hvv ?_⟩
        exact Nat.eq_of_mul_eq_mul_right (legal_setCount_pos hl)
          (show _ = (victimLine s a).tag * s.cfg.setCount by omega)
  · intro i' k' hi' hk' hv
    by_cases hik : i' = setIndexOf s.cfg a ∧ k' = (s.choice a).way
    · obtain ⟨rfl, rfl⟩ := hik
      rw [fillLine_lineAt_victim hf hl]
      exact ⟨h1, Nat.le_refl _⟩
    · have hs := fillLine_lineAt_other (a := a) hf hl hik
      rw [hs.valid] at hv
      rw [hs.lru]
      exact h.stamps _ _ hi' hk' hv

/-- Filling a line never changes what a load would see (R37). -/
theorem fillLine_archMem (h : s.Inv) (hm : s.lookup a = none) (b : Nat) :
    (s.fillLine a).archMem b = s.archMem b := by
  have hf := (cacheFits_iff s).1 h.fits
  have hl := h.legal
  have hw := (choice_spec hf hl a).1
  have hf' := fillLine_fits (a := a) hf hl
  have hu' := fillLine_unique hf hl h.unique hm
  have hmem := fillLine_mem (a := a) hf hl
  by_cases hblk : blockOf s.cfg b = blockOf s.cfg a
  · have e : s.lookup b = none := by rw [lookup_congr hblk]; exact hm
    rw [archMem_absent e, archMem_resident hf' hl hu' (k := (s.choice a).way) hw]
    · rw [State.lineOf, fillLine_cfg, setIndexOf_congr hblk, fillLine_lineAt_victim hf hl,
        filledLine_byteAt hf hl (offsetOf_lt hl b), ← hblk, ← baseOf_tagOf, baseOf_add_offsetOf]
      refine evictedMem_read_other hf hl fun hv _ => ?_
      rw [hblk]
      exact victim_block_ne hf hl hm hv
    · rw [lineOf_congr (s := s.fillLine a) hblk, tagOf_congr (c := (s.fillLine a).cfg) hblk]
      exact fillLine_holds hf hl
  · cases e : s.lookup b with
    | none =>
      have e' : (s.fillLine a).lookup b = none := by
        refine lookup_eq_none hf' hl fun k' hk' => ?_
        rw [fillLine_cfg] at hk' ⊢
        by_cases hik : setIndexOf s.cfg b = setIndexOf s.cfg a ∧ k' = (s.choice a).way
        · obtain ⟨hi, rfl⟩ := hik
          rw [State.lineOf, fillLine_cfg, hi, fillLine_lineAt_victim hf hl, Bool.eq_false_iff]
          intro hh
          exact hblk (blockOf_eq (Line.holds_iff.1 hh).2.symm hi)
        · rw [State.lineOf, fillLine_cfg, (fillLine_lineAt_other hf hl hik).holds]
          exact lookup_none hf hl e hk'
      rw [archMem_absent e, archMem_absent e', hmem]
      refine evictedMem_read_other hf hl fun hv _ he => ?_
      have hi : setIndexOf s.cfg b = setIndexOf s.cfg a := by
        rw [setIndexOf, he, Nat.mul_add_mod_self_right, Nat.mod_eq_of_lt (setIndexOf_lt hl a)]
      have ht : tagOf s.cfg b = (victimLine s a).tag := by
        rw [tagOf, he, Nat.mul_comm, Nat.mul_add_div (legal_setCount_pos hl),
          Nat.div_eq_of_lt (setIndexOf_lt hl a), Nat.add_zero]
      have := lookup_none hf hl e hw
      rw [State.lineOf, hi, ht, Bool.eq_false_iff] at this
      exact this (Line.holds_iff.2 ⟨hv, rfl⟩)
    | some k' =>
      obtain ⟨hk', hh'⟩ := lookup_some hf hl e
      rw [archMem_resident hf hl h.unique hk' hh']
      by_cases hik : setIndexOf s.cfg b = setIndexOf s.cfg a ∧ k' = (s.choice a).way
      · obtain ⟨hi, rfl⟩ := hik
        have hvl : s.lineOf b (s.choice a).way = victimLine s a := by
          rw [State.lineOf, hi]; rfl
        have hhv := Line.holds_iff.1 hh'
        have e' : (s.fillLine a).lookup b = none := by
          refine lookup_eq_none hf' hl fun k'' hk'' => ?_
          rw [fillLine_cfg] at hk'' ⊢
          rw [State.lineOf, fillLine_cfg, Bool.eq_false_iff]
          intro hh''
          by_cases hkw : k'' = (s.choice a).way
          · subst hkw
            rw [hi, fillLine_lineAt_victim hf hl] at hh''
            exact hblk (blockOf_eq (Line.holds_iff.1 hh'').2.symm hi)
          · rw [(fillLine_lineAt_other hf hl (fun e => hkw e.2)).holds] at hh''
            have hv'' := Line.holds_iff.1 hh''
            exact hkw (h.unique _ _ _ (setIndexOf_lt hl b) hk'' hw hv''.1 hhv.1
              (hv''.2.trans hhv.2.symm))
        have hb : b = baseOf s.cfg (victimLine s a).tag (setIndexOf s.cfg a) + offsetOf s.cfg b := by
          rw [← hvl, hhv.2, ← hi, baseOf_add_offsetOf]
        rw [archMem_absent e', hmem]
        conv => lhs; rw [hb]
        rw [evictedMem_read_victim h (by rw [← hvl]; exact hhv.1) (offsetOf_lt hl b), hvl]
      · have hs := fillLine_lineAt_other (a := a) hf hl hik
        rw [archMem_resident hf' hl hu' hk']
        · rw [State.lineOf, fillLine_cfg, hs.byteAt]; rfl
        · rw [State.lineOf, fillLine_cfg, hs.holds]; exact hh'

end fill

end Sys2Proof.Machine
end

