-- ==== Sys2Proof/Laws/State.lean ====
section
/-! SUPPORT. The small lemmas of the state updates: one per field per update, so that no later proof unfolds
a record update; and what a register reads after each of them. -/

namespace Sys2Proof.Machine

variable (s : State)

/-! ### `State.setPc` -/

@[simp] theorem setPc_cfg (v : Word) : (s.setPc v).cfg = s.cfg := rfl
@[simp] theorem setPc_regs (v : Word) : (s.setPc v).regs = s.regs := rfl
@[simp] theorem setPc_pc (v : Word) : (s.setPc v).pc = v := rfl
@[simp] theorem setPc_mem (v : Word) : (s.setPc v).mem = s.mem := rfl
@[simp] theorem setPc_cache (v : Word) : (s.setPc v).cache = s.cache := rfl
@[simp] theorem setPc_stat (v : Word) : (s.setPc v).stat = s.stat := rfl
@[simp] theorem setPc_run (v : Word) : (s.setPc v).run = s.run := rfl
@[simp] theorem setPc_reports (v : Word) : (s.setPc v).reports = s.reports := rfl
@[simp] theorem setPc_wordDraws (v : Word) : (s.setPc v).wordDraws = s.wordDraws := rfl
@[simp] theorem setPc_wayDraws (v : Word) : (s.setPc v).wayDraws = s.wayDraws := rfl
@[simp] theorem setPc_reg (v : Word) (q : Reg) : (s.setPc v).reg q = s.reg q := rfl
@[simp] theorem setPc_archMem (v : Word) (b : Nat) : (s.setPc v).archMem b = s.archMem b := rfl

/-! ### `State.advance` -/

@[simp] theorem advance_cfg : s.advance.cfg = s.cfg := rfl
@[simp] theorem advance_regs : s.advance.regs = s.regs := rfl
@[simp] theorem advance_pc : s.advance.pc = nextPc s.pc := rfl
@[simp] theorem advance_mem : s.advance.mem = s.mem := rfl
@[simp] theorem advance_cache : s.advance.cache = s.cache := rfl
@[simp] theorem advance_stat : s.advance.stat = s.stat := rfl
@[simp] theorem advance_run : s.advance.run = s.run := rfl
@[simp] theorem advance_reports : s.advance.reports = s.reports := rfl
@[simp] theorem advance_wordDraws : s.advance.wordDraws = s.wordDraws := rfl
@[simp] theorem advance_wayDraws : s.advance.wayDraws = s.wayDraws := rfl
@[simp] theorem advance_reg (q : Reg) : s.advance.reg q = s.reg q := rfl
@[simp] theorem advance_archMem (b : Nat) : s.advance.archMem b = s.archMem b := rfl

/-! ### `State.report` -/

@[simp] theorem report_cfg (r : Report) : (s.report r).cfg = s.cfg := rfl
@[simp] theorem report_regs (r : Report) : (s.report r).regs = s.regs := rfl
@[simp] theorem report_pc (r : Report) : (s.report r).pc = s.pc := rfl
@[simp] theorem report_mem (r : Report) : (s.report r).mem = s.mem := rfl
@[simp] theorem report_cache (r : Report) : (s.report r).cache = s.cache := rfl
@[simp] theorem report_stat (r : Report) : (s.report r).stat = s.stat := rfl
@[simp] theorem report_run (r : Report) : (s.report r).run = s.run := rfl
@[simp] theorem report_reports (r : Report) : (s.report r).reports = s.reports ++ [r] := rfl
@[simp] theorem report_wordDraws (r : Report) : (s.report r).wordDraws = s.wordDraws := rfl
@[simp] theorem report_wayDraws (r : Report) : (s.report r).wayDraws = s.wayDraws := rfl
@[simp] theorem report_reg (r : Report) (q : Reg) : (s.report r).reg q = s.reg q := rfl
@[simp] theorem report_archMem (r : Report) (b : Nat) : (s.report r).archMem b = s.archMem b := rfl

/-! ### `State.setRun` -/

@[simp] theorem setRun_cfg (r : RunState) : (s.setRun r).cfg = s.cfg := rfl
@[simp] theorem setRun_regs (r : RunState) : (s.setRun r).regs = s.regs := rfl
@[simp] theorem setRun_pc (r : RunState) : (s.setRun r).pc = s.pc := rfl
@[simp] theorem setRun_mem (r : RunState) : (s.setRun r).mem = s.mem := rfl
@[simp] theorem setRun_cache (r : RunState) : (s.setRun r).cache = s.cache := rfl
@[simp] theorem setRun_stat (r : RunState) : (s.setRun r).stat = s.stat := rfl
@[simp] theorem setRun_run (r : RunState) : (s.setRun r).run = r := rfl
@[simp] theorem setRun_reports (r : RunState) : (s.setRun r).reports = s.reports := rfl
@[simp] theorem setRun_wordDraws (r : RunState) : (s.setRun r).wordDraws = s.wordDraws := rfl
@[simp] theorem setRun_wayDraws (r : RunState) : (s.setRun r).wayDraws = s.wayDraws := rfl
@[simp] theorem setRun_reg (r : RunState) (q : Reg) : (s.setRun r).reg q = s.reg q := rfl
@[simp] theorem setRun_archMem (r : RunState) (b : Nat) : (s.setRun r).archMem b = s.archMem b := rfl

/-! ### `State.dispatched` -/

@[simp] theorem dispatched_cfg (k : InstrClass) : (s.dispatched k).cfg = s.cfg := rfl
@[simp] theorem dispatched_regs (k : InstrClass) : (s.dispatched k).regs = s.regs := rfl
@[simp] theorem dispatched_pc (k : InstrClass) : (s.dispatched k).pc = s.pc := rfl
@[simp] theorem dispatched_mem (k : InstrClass) : (s.dispatched k).mem = s.mem := rfl
@[simp] theorem dispatched_cache (k : InstrClass) : (s.dispatched k).cache = s.cache := rfl
@[simp] theorem dispatched_stat (k : InstrClass) : (s.dispatched k).stat = s.stat.countClass k := rfl
@[simp] theorem dispatched_run (k : InstrClass) : (s.dispatched k).run = s.run := rfl
@[simp] theorem dispatched_reports (k : InstrClass) : (s.dispatched k).reports = s.reports := rfl
@[simp] theorem dispatched_wordDraws (k : InstrClass) : (s.dispatched k).wordDraws = s.wordDraws := rfl
@[simp] theorem dispatched_wayDraws (k : InstrClass) : (s.dispatched k).wayDraws = s.wayDraws := rfl
@[simp] theorem dispatched_reg (k : InstrClass) (q : Reg) : (s.dispatched k).reg q = s.reg q := rfl
@[simp] theorem dispatched_archMem (k : InstrClass) (b : Nat) : (s.dispatched k).archMem b = s.archMem b := rfl

/-! ### `State.countTaken` -/

@[simp] theorem countTaken_cfg : s.countTaken.cfg = s.cfg := rfl
@[simp] theorem countTaken_regs : s.countTaken.regs = s.regs := rfl
@[simp] theorem countTaken_pc : s.countTaken.pc = s.pc := rfl
@[simp] theorem countTaken_mem : s.countTaken.mem = s.mem := rfl
@[simp] theorem countTaken_cache : s.countTaken.cache = s.cache := rfl
@[simp] theorem countTaken_stat : s.countTaken.stat = { s.stat with nBranchTaken := s.stat.nBranchTaken + 1 } := rfl
@[simp] theorem countTaken_run : s.countTaken.run = s.run := rfl
@[simp] theorem countTaken_reports : s.countTaken.reports = s.reports := rfl
@[simp] theorem countTaken_wordDraws : s.countTaken.wordDraws = s.wordDraws := rfl
@[simp] theorem countTaken_wayDraws : s.countTaken.wayDraws = s.wayDraws := rfl
@[simp] theorem countTaken_reg (q : Reg) : s.countTaken.reg q = s.reg q := rfl
@[simp] theorem countTaken_archMem (b : Nat) : s.countTaken.archMem b = s.archMem b := rfl

/-! ### `State.countMemAccess` -/

@[simp] theorem countMemAccess_cfg : s.countMemAccess.cfg = s.cfg := rfl
@[simp] theorem countMemAccess_regs : s.countMemAccess.regs = s.regs := rfl
@[simp] theorem countMemAccess_pc : s.countMemAccess.pc = s.pc := rfl
@[simp] theorem countMemAccess_mem : s.countMemAccess.mem = s.mem := rfl
@[simp] theorem countMemAccess_cache : s.countMemAccess.cache = s.cache := rfl
@[simp] theorem countMemAccess_stat : s.countMemAccess.stat = { s.stat with nMemAccess := s.stat.nMemAccess + 1 } := rfl
@[simp] theorem countMemAccess_run : s.countMemAccess.run = s.run := rfl
@[simp] theorem countMemAccess_reports : s.countMemAccess.reports = s.reports := rfl
@[simp] theorem countMemAccess_wordDraws : s.countMemAccess.wordDraws = s.wordDraws := rfl
@[simp] theorem countMemAccess_wayDraws : s.countMemAccess.wayDraws = s.wayDraws := rfl
@[simp] theorem countMemAccess_reg (q : Reg) : s.countMemAccess.reg q = s.reg q := rfl
@[simp] theorem countMemAccess_archMem (b : Nat) : s.countMemAccess.archMem b = s.archMem b := rfl

/-! ### `State.countInstr` -/

@[simp] theorem countInstr_cfg : s.countInstr.cfg = s.cfg := rfl
@[simp] theorem countInstr_regs : s.countInstr.regs = s.regs := rfl
@[simp] theorem countInstr_pc : s.countInstr.pc = s.pc := rfl
@[simp] theorem countInstr_mem : s.countInstr.mem = s.mem := rfl
@[simp] theorem countInstr_cache : s.countInstr.cache = s.cache := rfl
@[simp] theorem countInstr_stat : s.countInstr.stat = { s.stat with nInstr := s.stat.nInstr + 1 } := rfl
@[simp] theorem countInstr_run : s.countInstr.run = s.run := rfl
@[simp] theorem countInstr_reports : s.countInstr.reports = s.reports := rfl
@[simp] theorem countInstr_wordDraws : s.countInstr.wordDraws = s.wordDraws := rfl
@[simp] theorem countInstr_wayDraws : s.countInstr.wayDraws = s.wayDraws := rfl
@[simp] theorem countInstr_reg (q : Reg) : s.countInstr.reg q = s.reg q := rfl
@[simp] theorem countInstr_archMem (b : Nat) : s.countInstr.archMem b = s.archMem b := rfl

/-! ### `State.drawnWord` -/

@[simp] theorem drawnWord_cfg : s.drawnWord.cfg = s.cfg := rfl
@[simp] theorem drawnWord_regs : s.drawnWord.regs = s.regs := rfl
@[simp] theorem drawnWord_pc : s.drawnWord.pc = s.pc := rfl
@[simp] theorem drawnWord_mem : s.drawnWord.mem = s.mem := rfl
@[simp] theorem drawnWord_cache : s.drawnWord.cache = s.cache := rfl
@[simp] theorem drawnWord_stat : s.drawnWord.stat = s.stat := rfl
@[simp] theorem drawnWord_run : s.drawnWord.run = s.run := rfl
@[simp] theorem drawnWord_reports : s.drawnWord.reports = s.reports := rfl
@[simp] theorem drawnWord_wordDraws : s.drawnWord.wordDraws = s.wordDraws + 1 := rfl
@[simp] theorem drawnWord_wayDraws : s.drawnWord.wayDraws = s.wayDraws := rfl
@[simp] theorem drawnWord_reg (q : Reg) : s.drawnWord.reg q = s.reg q := rfl
@[simp] theorem drawnWord_archMem (b : Nat) : s.drawnWord.archMem b = s.archMem b := rfl

/-! ### `State.setReg` (R21, R22) -/

@[simp] theorem setReg_cfg (r : Reg) (v : Word) : (s.setReg r v).cfg = s.cfg := by
  unfold State.setReg; split <;> rfl
@[simp] theorem setReg_pc (r : Reg) (v : Word) : (s.setReg r v).pc = s.pc := by
  unfold State.setReg; split <;> rfl
@[simp] theorem setReg_mem (r : Reg) (v : Word) : (s.setReg r v).mem = s.mem := by
  unfold State.setReg; split <;> rfl
@[simp] theorem setReg_cache (r : Reg) (v : Word) : (s.setReg r v).cache = s.cache := by
  unfold State.setReg; split <;> rfl
@[simp] theorem setReg_stat (r : Reg) (v : Word) : (s.setReg r v).stat = s.stat := by
  unfold State.setReg; split <;> rfl
@[simp] theorem setReg_run (r : Reg) (v : Word) : (s.setReg r v).run = s.run := by
  unfold State.setReg; split <;> rfl
@[simp] theorem setReg_reports (r : Reg) (v : Word) : (s.setReg r v).reports = s.reports := by
  unfold State.setReg; split <;> rfl
@[simp] theorem setReg_wordDraws (r : Reg) (v : Word) : (s.setReg r v).wordDraws = s.wordDraws := by
  unfold State.setReg; split <;> rfl
@[simp] theorem setReg_wayDraws (r : Reg) (v : Word) : (s.setReg r v).wayDraws = s.wayDraws := by
  unfold State.setReg; split <;> rfl
@[simp] theorem setReg_archMem (r : Reg) (v : Word) (b : Nat) : (s.setReg r v).archMem b = s.archMem b := by
  unfold State.setReg; split <;> rfl

/-- Register 0 is a sink (R22). -/
@[simp] theorem setReg_zero (v : Word) : s.setReg 0#5 v = s := by simp [State.setReg]

/-- Register 0 reads 0 (R21). -/
@[simp] theorem reg_zero : s.reg 0#5 = 0#32 := by simp [State.reg]

/-- A written register reads the value written, register 0 reads 0 (R21, R22). -/
theorem setReg_reg_same (r : Reg) (v : Word) : (s.setReg r v).reg r = if r = 0#5 then 0#32 else v := by
  unfold State.setReg State.reg
  by_cases h : r = 0#5 <;> simp [h]

/-- A write leaves every other register alone (R22). -/
theorem setReg_reg_other {q r : Reg} (v : Word) (h : q ≠ r) : (s.setReg r v).reg q = s.reg q := by
  unfold State.setReg State.reg
  by_cases hr : r = 0#5
  · simp [hr]
  · have : r.toNat ≠ q.toNat := fun e => h (BitVec.eq_of_toNat_eq e.symm)
    simp [hr, this]

/-- The slot of register 0 is never written (R22). -/
theorem setReg_slot_zero (r : Reg) (v : Word) : (s.setReg r v).regs[0] = s.regs[0] := by
  unfold State.setReg
  by_cases hr : r = 0#5
  · simp [hr]
  · have : r.toNat ≠ 0 := fun e => hr (BitVec.eq_of_toNat_eq (by simpa using e))
    simp [hr, this]

end Sys2Proof.Machine
end

