-- ==== Sys2Proof/Laws/Access.lean ====
section
/-! SUPPORT. A completed access and `CacheAccess` as a whole (spec/25_cache.md R100): one lemma each for what
they leave alone, for the invariants, for the word delivered and for what a load then sees. -/

namespace Sys2Proof.Machine

/-- The invariants depend on the configuration, memory, cache, register slot 0 and, from above, on the
instruction count. -/
theorem inv_congr {s t : State} (h : s.Inv) (hc : t.cfg = s.cfg) (hm : t.mem = s.mem)
    (hk : t.cache = s.cache) (hr : t.regs[0] = s.regs[0]) (hn : s.stat.nInstr ≤ t.stat.nInstr) :
    t.Inv := by
  have hline : ∀ i k, t.lineAt i k = s.lineAt i k := fun i k => by
    unfold State.lineAt State.setAt; rw [hk]
  refine ⟨hc ▸ h.legal, ?_, hm ▸ h.memWf, ?_, hr ▸ h.regZero, ?_, ?_, ?_, ?_, ?_⟩
  · have := h.fits
    unfold State.cacheFits at this ⊢
    rw [hk, hc]; exact this
  · intro a ha; rw [hm]; exact h.memInRange a (hc ▸ ha)
  · exact unique_of_same h.unique hc fun i k _ _ => by rw [hline]; exact ⟨rfl, rfl⟩
  · intro i k hi hk'; rw [hline, hc]; rw [hc] at hi hk'; exact h.dirty i k hi hk'
  · intro i k hi hk'; rw [hline, hc]; rw [hc] at hi hk'; exact h.resident i k hi hk'
  · intro i k j hi hk' hj; rw [hline, hc, hm]; rw [hc] at hi hk' hj; exact h.coherent i k j hi hk' hj
  · intro i k hi hk' hv
    rw [hline] at hv ⊢
    rw [hc] at hi hk'
    exact ⟨(h.stamps i k hi hk' hv).1, Nat.le_trans (h.stamps i k hi hk' hv).2 hn⟩

/-- What a load sees depends on the configuration, memory and cache only. -/
theorem archMem_congr {s t : State} (hc : t.cfg = s.cfg) (hm : t.mem = s.mem) (hk : t.cache = s.cache)
    (b : Nat) : t.archMem b = s.archMem b := by
  unfold State.archMem State.lookup State.lineOf State.lineAt State.setAt
  rw [hc, hm, hk]

section transact

variable {s : State} {a : Nat} {dir : Direction}

theorem transact_hit {k : Nat} (h : s.lookup a = some k) : s.transact a dir = s.hitAccess a dir k := by
  rw [State.transact, h]

theorem transact_miss (h : s.lookup a = none) : s.transact a dir = s.missAccess a dir := by
  rw [State.transact, h]

/-- A completed access leaves registers, pc, run state, reports, configuration and `UNSPEC32` draws alone. -/
theorem transact_frame (s : State) (a : Nat) (dir : Direction) :
    (s.transact a dir).state.cfg = s.cfg ∧ (s.transact a dir).state.regs = s.regs ∧
      (s.transact a dir).state.pc = s.pc ∧ (s.transact a dir).state.run = s.run ∧
      (s.transact a dir).state.reports = s.reports ∧
      (s.transact a dir).state.wordDraws = s.wordDraws := by
  cases h : s.lookup a with
  | none => rw [transact_miss h]; exact ⟨rfl, rfl, rfl, rfl, rfl, rfl⟩
  | some k => rw [transact_hit h]; exact ⟨rfl, rfl, rfl, rfl, rfl, rfl⟩

/-- The counters of a completed access: a hit's or a miss's (R105, R111). -/
theorem transact_stat (s : State) (a : Nat) (dir : Direction) :
    (s.transact a dir).state.stat =
      if (s.transact a dir).hit then s.stat.countHit else s.stat.countMiss s.cfg.missPenalty := by
  cases h : s.lookup a with
  | none => rw [transact_miss h]; rfl
  | some k => rw [transact_hit h]; rfl

theorem transact_nInstr (s : State) (a : Nat) (dir : Direction) :
    (s.transact a dir).state.stat.nInstr = s.stat.nInstr := by
  rw [transact_stat]; split <;> rfl

/-- A completed access keeps every invariant (R30). -/
theorem transact_inv (h : s.Inv) (h1 : 1 ≤ s.stat.nInstr) (ha : a % 4 = 0)
    (hr : a + 4 ≤ s.cfg.memSize) : (s.transact a dir).state.Inv := by
  have hf := (cacheFits_iff s).1 h.fits
  cases e : s.lookup a with
  | none =>
    rw [transact_miss e]
    exact inv_congr (serve_inv (dir := dir) (fillLine_inv h h1 e (by omega)) h1
      (choice_spec hf h.legal a).1 (fillLine_holds hf h.legal) ha hr) rfl rfl rfl rfl (Nat.le_refl _)
  | some k =>
    rw [transact_hit e]
    obtain ⟨hk, hh⟩ := lookup_some hf h.legal e
    exact inv_congr (serve_inv (dir := dir) h h1 hk hh ha hr) rfl rfl rfl rfl (Nat.le_refl _)

/-- A completed access never changes what a load sees, but for the four bytes of a write (R37). -/
theorem transact_archMem_other (h : s.Inv) (h1 : 1 ≤ s.stat.nInstr) (ha : a % 4 = 0)
    (hr : a + 4 ≤ s.cfg.memSize) {b : Nat} (hb : ∀ w, dir = .write w → b < a ∨ a + 4 ≤ b) :
    (s.transact a dir).state.archMem b = s.archMem b := by
  have hf := (cacheFits_iff s).1 h.fits
  cases e : s.lookup a with
  | none =>
    rw [transact_miss e]
    have h' := fillLine_inv h h1 e (by omega)
    have hf' := (cacheFits_iff _).1 h'.fits
    exact (serve_archMem_other (dir := dir) hf' h'.legal h'.unique (choice_spec hf h.legal a).1
      (fillLine_holds hf h.legal) ha hb).trans (fillLine_archMem h e b)
  | some k =>
    rw [transact_hit e]
    obtain ⟨hk, hh⟩ := lookup_some hf h.legal e
    exact serve_archMem_other hf h.legal h.unique hk hh ha hb

/-- The four bytes of a completed write are what a load then sees (R104, R110). -/
theorem transact_archMem_written (h : s.Inv) (h1 : 1 ≤ s.stat.nInstr) (ha : a % 4 = 0)
    (hr : a + 4 ≤ s.cfg.memSize) {w : Word} {j : Nat} (hj : j < 4) :
    (s.transact a (.write w)).state.archMem (a + j) = (beBytes w).getD j 0#8 := by
  have hf := (cacheFits_iff s).1 h.fits
  cases e : s.lookup a with
  | none =>
    rw [transact_miss e]
    have h' := fillLine_inv h h1 e (by omega)
    have hf' := (cacheFits_iff _).1 h'.fits
    exact serve_archMem_written hf' h'.legal h'.unique (choice_spec hf h.legal a).1
      (fillLine_holds hf h.legal) ha hj
  | some k =>
    rw [transact_hit e]
    obtain ⟨hk, hh⟩ := lookup_some hf h.legal e
    exact serve_archMem_written hf h.legal h.unique hk hh ha hj

/-- A completed read delivers the word a load sees (R104, R110, R185, R271). -/
theorem transact_word_read (h : s.Inv) (h1 : 1 ≤ s.stat.nInstr) (ha : a % 4 = 0)
    (hr : a + 4 ≤ s.cfg.memSize) : (s.transact a .read).word = s.archWord a := by
  have hf := (cacheFits_iff s).1 h.fits
  cases e : s.lookup a with
  | none =>
    rw [transact_miss e]
    have h' := fillLine_inv h h1 e (by omega)
    have hf' := (cacheFits_iff _).1 h'.fits
    have := servedWord_read hf' h'.legal h'.unique (k := (s.choice a).way) (choice_spec hf h.legal a).1
      (fillLine_holds hf h.legal) ha
    refine this.trans ?_
    unfold State.archWord
    simp only [fillLine_archMem h e]
  | some k =>
    rw [transact_hit e]
    obtain ⟨hk, hh⟩ := lookup_some hf h.legal e
    exact servedWord_read hf h.legal h.unique hk hh ha

end transact

/-! ### `CacheAccess` (R100) -/

section access

variable {s : State} {a : Word} {dir : Direction}

/-- An access is rejected for alignment exactly when its address is not a multiple of 4 (R73, R75). -/
theorem rejectionOf_misaligned {c : Config} (h : a.toNat % 4 ≠ 0) :
    rejectionOf c a = some .alignment := if_pos h

/-- An aligned access is rejected for range exactly when its word is not wholly inside memory (R74). -/
theorem rejectionOf_outside {c : Config} (h : a.toNat % 4 = 0) (hr : c.memSize < a.toNat + 4) :
    rejectionOf c a = some .range := by
  rw [rejectionOf, if_neg (by omega), if_pos hr]

theorem rejectionOf_ok {c : Config} (h : AccessOk c a) : rejectionOf c a = none := by
  rw [rejectionOf, if_neg (by have := h.1; omega), if_neg (by have := h.2; omega)]

theorem rejectionOf_none {c : Config} (h : rejectionOf c a = none) : AccessOk c a := by
  unfold rejectionOf at h
  split at h
  · simp at h
  · split at h
    · simp at h
    · exact ⟨by omega, by omega⟩

theorem cacheAccess_rejected {kind : Rejection} (h : rejectionOf s.cfg a = some kind) :
    s.cacheAccess a dir = (.rejected kind, s.report (rejectionReport kind dir.source a)) := by
  rw [State.cacheAccess, h]

theorem cacheAccess_ok (h : AccessOk s.cfg a) :
    s.cacheAccess a dir =
      (if (s.transact a.toNat dir).hit then .hit (s.transact a.toNat dir).word
        else .miss (s.transact a.toNat dir).word, (s.transact a.toNat dir).state) := by
  rw [State.cacheAccess, rejectionOf_ok h]

/-- The state after an access that is not rejected (R100). -/
theorem cacheAccess_state (h : AccessOk s.cfg a) :
    (s.cacheAccess a dir).2 = (s.transact a.toNat dir).state := by
  rw [cacheAccess_ok h]

/-- A state with the memory, cache and draws a completed access leaves has its effects. -/
theorem cacheEffects_of_transact {t : State} (h : AccessOk s.cfg a)
    (hm : t.mem = (s.transact a.toNat dir).state.mem)
    (hc : t.cache = (s.transact a.toNat dir).state.cache)
    (hd : t.wayDraws = (s.transact a.toNat dir).state.wayDraws) : CacheEffects s t a dir := by
  rw [← cacheAccess_state h] at hm hc hd
  exact ⟨hm, hc, hd⟩

end access

/-- The end of a completed `lw` (R271). -/
theorem loadResult_completed (rt : Reg) (hit : Bool) (v : Word) (t : State) :
    loadResult rt (if hit then .hit v else .miss v, t) = (t.countMemAccess.setReg rt v).advance := by
  cases hit <;> rfl

/-- The end of a completed `sw` (R272). -/
theorem storeResult_completed (hit : Bool) (v : Word) (t : State) :
    storeResult (if hit then .hit v else .miss v, t) = t.countMemAccess.advance := by
  cases hit <;> rfl

/-- The end of a rejected `lw` (R271). -/
theorem loadResult_rejected (rt : Reg) (kind : Rejection) (t : State) :
    loadResult rt (.rejected kind, t) = (t.drawnWord.setReg rt t.unspec32).advance := rfl

/-- The end of a rejected `sw` (R272). -/
theorem storeResult_rejected (kind : Rejection) (t : State) :
    storeResult (.rejected kind, t) = t.advance := rfl

/-! ### Main memory and lines after an access (R107 to R112) -/

/-- Every byte of main memory after the write-back of a miss (R107). -/
theorem evictedMem_read {s : State} (hf : s.Fits) (hl : s.cfg.Legal) (hm : Memory.wf s.mem = true)
    (a b : Nat) :
    Memory.read (evictedMem s a) b =
      if (victimLine s a).valid = true ∧ (victimLine s a).dirty = true ∧
          baseOf s.cfg (victimLine s a).tag (setIndexOf s.cfg a) ≤ b ∧
          b < baseOf s.cfg (victimLine s a).tag (setIndexOf s.cfg a) + s.cfg.lineSize
      then (victimLine s a).byteAt (b - baseOf s.cfg (victimLine s a).tag (setIndexOf s.cfg a))
      else Memory.read s.mem b := by
  have hd : (victimLine s a).data.length = s.cfg.lineSize :=
    hf.data _ _ (setIndexOf_lt hl a) (choice_spec hf hl a).1
  unfold evictedMem writeBack
  by_cases hv : (victimLine s a).valid = true <;> by_cases hdi : (victimLine s a).dirty = true
  · rw [if_pos (by simp [hv, hdi])]
    split
    · rename_i h
      obtain ⟨-, -, h1, h2⟩ := h
      obtain ⟨j, rfl⟩ := Nat.exists_eq_add_of_le h1
      rw [Memory.read_writeBytes_same hm (by omega)]
      simp [Line.byteAt]
    · rename_i h
      rw [Memory.read_writeBytes_other]
      rw [hd]; simp only [hv, hdi, true_and, not_and_or, not_le, not_lt] at h; exact h
  · rw [if_neg (by simp [hdi]), if_neg (by tauto)]
  · rw [if_neg (by simp [hv]), if_neg (by tauto)]
  · rw [if_neg (by simp [hv]), if_neg (by tauto)]

/-- Every line after a miss (R108 to R112). -/
theorem missAccess_lineAt {s : State} (hf : s.Fits) (hl : s.cfg.Legal) (a : Nat) (dir : Direction)
    (i' k' : Nat) :
    (s.missAccess a dir).state.lineAt i' k' =
      if i' = setIndexOf s.cfg a ∧ k' = (s.choice a).way
      then servedLine (s.fillLine a) a (s.choice a).way dir else (s.fillLine a).lineAt i' k' :=
  serve_lineAt (s := s.fillLine a) (fillLine_fits hf hl) hl (choice_spec hf hl a).1 i' k'

/-- The cursor of the missed set is as the victim choice left it (R116). -/
theorem missAccess_fifo {s : State} (hf : s.Fits) (hl : s.cfg.Legal) (a : Nat) (dir : Direction) :
    ((s.missAccess a dir).state.setAt (setIndexOf s.cfg a)).fifo = (s.choice a).set.fifo := by
  have hi := setIndexOf_lt hl a
  have h1 := setAt_set (s := s.fillLine a) (i := setIndexOf s.cfg a) (i' := setIndexOf s.cfg a)
    (by simp [State.fillLine, hf.sets]; exact hi) (t := (s.missAccess a dir).state) rfl
  have h2 := setAt_set (s := s) (i := setIndexOf s.cfg a) (i' := setIndexOf s.cfg a)
    (by rw [hf.sets]; exact hi) (t := s.fillLine a) rfl
  rw [h1, if_pos rfl, CacheSet.putLine_fifo, fillLine_cfg, h2, if_pos rfl, CacheSet.putLine_fifo]

/-- A miss leaves every other set alone (R106). -/
theorem missAccess_setAt_other {s : State} (hf : s.Fits) (hl : s.cfg.Legal) (a : Nat) (dir : Direction)
    {i' : Nat} (h : i' ≠ setIndexOf s.cfg a) :
    (s.missAccess a dir).state.setAt i' = s.setAt i' := by
  have hi := setIndexOf_lt hl a
  have h1 := setAt_set (s := s.fillLine a) (i := setIndexOf s.cfg a) (i' := i')
    (by simp [State.fillLine, hf.sets]; exact hi) (t := (s.missAccess a dir).state) rfl
  have h2 := setAt_set (s := s) (i := setIndexOf s.cfg a) (i' := i')
    (by rw [hf.sets]; exact hi) (t := s.fillLine a) rfl
  rw [h1, if_neg h, h2, if_neg h]

theorem transact_isHit (s : State) (a : Nat) (dir : Direction) :
    (s.transact a dir).hit = (s.lookup a).isSome := by
  cases e : s.lookup a with
  | none => rw [transact_miss e]; rfl
  | some k => rw [transact_hit e]; rfl

/-- The counters after a completed access (R105, R111). -/
theorem transact_accessStats (s : State) (a : Nat) (dir : Direction) :
    (s.transact a dir).state.stat = accessStats s.stat (s.lookup a).isSome s.cfg.missPenalty := by
  rw [transact_stat, transact_isHit]; rfl

/-- An access that stores nothing into main memory changes it only by its write-back (R107). -/
theorem transact_evictedOnly {s : State} (h : s.Inv) (a : Nat) (dir : Direction)
    (hd : ∀ w, dir = .write w → s.cfg.wpol = .writeBack) :
    EvictedOnly s (s.transact a dir).state a := by
  have hf := (cacheFits_iff s).1 h.fits
  have hl := h.legal
  intro b
  have hno : ∀ w, dir = .write w → s.cfg.wpol = .writeThrough → b < a ∨ a + 4 ≤ b := by
    intro w hw hp; rw [hd w hw] at hp; simp at hp
  cases e : s.lookup a with
  | none =>
    rw [transact_miss e]
    have := serve_mem_read (s := s.fillLine a) (a := a) (k := (s.choice a).way) (dir := dir) (b := b) hno
    rw [show Memory.read (s.missAccess a dir).state.mem b = _ from this, fillLine_mem hf hl,
      evictedMem_read hf hl h.memWf]
    simp only [true_and]; rfl
  | some k =>
    rw [transact_hit e]
    have := serve_mem_read (s := s) (a := a) (k := k) (dir := dir) (b := b) hno
    rw [show Memory.read (s.hitAccess a dir k).state.mem b = _ from this, if_neg (by simp)]

/-- The write-back of a miss never touches the word accessed (R107). -/
theorem EvictedOnly_word {s t : State} (h : s.Inv) {a j : Nat} (ha : a % 4 = 0)
    (he : EvictedOnly s t a) (hj : j < 4) : Memory.read t.mem (a + j) = Memory.read s.mem (a + j) := by
  have hf := (cacheFits_iff s).1 h.fits
  rw [he (a + j), if_neg]
  rintro ⟨h0, hv, hd, h1, h2⟩
  apply victim_block_ne hf h.legal h0 hv
  obtain ⟨hb, -⟩ := blockOf_word (j := j) h.legal ha hj
  obtain ⟨n, hn⟩ := Nat.exists_eq_add_of_le h1
  rw [← hb, hn]
  exact blockOf_baseOf h.legal (by omega)

/-- Under `WriteThrough` no line is dirty (R30 (b)). -/
theorem writeThrough_clean {s : State} (h : s.Inv) (hw : s.cfg.wpol = .writeThrough) {i k : Nat}
    (hi : i < s.cfg.setCount) (hk : k < s.cfg.ways) : (s.lineAt i k).dirty = false := by
  by_contra hd
  have := (h.dirty i k hi hk (by simpa using hd)).2
  rw [hw] at this; simp at this

/-- After a completed access some way holds the block, and its line is the line as served (R104 to R112). -/
theorem transact_servedLine {s : State} (h : s.Inv) (h1 : 1 ≤ s.stat.nInstr) {a : Nat} {dir : Direction}
    (ha : a % 4 = 0) (hr : a + 4 ≤ s.cfg.memSize) :
    ∃ (u : State) (k : Nat), u.stat.nInstr = s.stat.nInstr ∧ u.cfg = s.cfg ∧ k < s.cfg.ways ∧
      (s.transact a dir).state.lookup a = some k ∧
      (s.transact a dir).state.lineOf a k = servedLine u a k dir := by
  have hf := (cacheFits_iff s).1 h.fits
  have hi := transact_inv (dir := dir) h h1 ha hr
  have hf' := (cacheFits_iff _).1 hi.fits
  have hc := (transact_frame s a dir).1
  have key : ∀ (u : State) (k : Nat), u.stat.nInstr = s.stat.nInstr → u.cfg = s.cfg → k < s.cfg.ways →
      (u.lineOf a k).holds (tagOf s.cfg a) = true →
      (s.transact a dir).state.lineOf a k = servedLine u a k dir →
      ∃ (u : State) (k : Nat), u.stat.nInstr = s.stat.nInstr ∧ u.cfg = s.cfg ∧ k < s.cfg.ways ∧
        (s.transact a dir).state.lookup a = some k ∧
        (s.transact a dir).state.lineOf a k = servedLine u a k dir := by
    intro u k hn hu hk hh hv
    refine ⟨u, k, hn, hu, hk, lookup_eq_some hf' hi.legal hi.unique (hc ▸ hk) ?_, hv⟩
    have hs := servedLine_fields u a k dir
    rw [hc, hv, Line.holds_iff, hs.1, hs.2.1]
    exact Line.holds_iff.1 hh
  cases e : s.lookup a with
  | none =>
    refine key (s.fillLine a) (s.choice a).way rfl rfl (choice_spec hf h.legal a).1
      (fillLine_holds hf h.legal) ?_
    rw [State.lineOf, hc, transact_miss e, missAccess_lineAt hf h.legal, if_pos ⟨rfl, rfl⟩]
  | some k =>
    obtain ⟨hk, hh⟩ := lookup_some hf h.legal e
    refine key s k rfl rfl hk hh ?_
    rw [State.lineOf, hc, transact_hit e]
    exact (serve_lineAt hf h.legal hk _ _).trans (if_pos ⟨rfl, rfl⟩)

/-- After a completed access the block is resident, stamped and flagged (R105, R108). -/
theorem transact_justUsed {s : State} (h : s.Inv) (h1 : 1 ≤ s.stat.nInstr) {a : Nat} {dir : Direction}
    (ha : a % 4 = 0) (hr : a + 4 ≤ s.cfg.memSize) :
    JustUsed (s.transact a dir).state a s.stat.nInstr := by
  obtain ⟨u, k, hn, -, -, hk, hv⟩ := transact_servedLine (dir := dir) h h1 ha hr
  refine ⟨k, hk, ?_, ?_⟩ <;> rw [hv]
  · exact hn
  · rfl

/-- Main memory after a completed write under `WriteThrough` (R112). -/
theorem transact_writeThrough {s : State} (h : s.Inv) (a : Nat) (w : Word)
    (hw : s.cfg.wpol = .writeThrough) :
    (∀ j, j < 4 → Memory.read (s.transact a (.write w)).state.mem (a + j) = (beBytes w).getD j 0#8) ∧
    (∀ b, b < a ∨ a + 4 ≤ b →
      Memory.read (s.transact a (.write w)).state.mem b = Memory.read s.mem b) := by
  have hf := (cacheFits_iff s).1 h.fits
  have hl := h.legal
  cases e : s.lookup a with
  | none =>
    have hev : (s.fillLine a).mem = s.mem := by
      rw [fillLine_mem hf hl, evictedMem, writeBack, if_neg]
      have : (victimLine s a).dirty = false :=
        writeThrough_clean h hw (setIndexOf_lt hl a) (choice_spec hf hl a).1
      simp [this]
    rw [transact_miss e]
    refine ⟨fun j hj => ?_, fun b hb => ?_⟩
    · exact serve_mem_written (s := s.fillLine a) (hev ▸ h.memWf) hw hj
    · rw [← hev]; exact serve_mem_read (s := s.fillLine a) (by intros; exact hb)
  | some k =>
    rw [transact_hit e]
    refine ⟨fun j hj => ?_, fun b hb => ?_⟩
    · exact serve_mem_written (s := s) (a := a) (k := k) h.memWf hw hj
    · exact serve_mem_read (s := s) (a := a) (k := k) (dir := .write w) (by intros; exact hb)

/-- A completed write keeps memory canonical, a completed read too. -/
theorem transact_memWf {s : State} (h : Memory.wf s.mem = true) (a : Nat) (dir : Direction) :
    Memory.wf (s.transact a dir).state.mem = true := by
  cases e : s.lookup a with
  | none =>
    rw [transact_miss e]
    refine serve_mem_wf (s := s.fillLine a) ?_
    unfold State.fillLine writeBack
    simp only
    split
    · exact Memory.wf_writeBytes _ _ h
    · exact h
  | some k => rw [transact_hit e]; exact serve_mem_wf h

end Sys2Proof.Machine
end

