-- ==== Sys2Proof/Laws/Encoding.lean ====
section
/-! SUPPORT. The bits and the fields of an encoded word (spec/30_encoding.md R151, R152). -/

namespace Sys2Proof

/-- The bits of an R-format word (R151). -/
theorem getLsbD_rWord (rs rt rd : Reg) (shamt : Shamt) (f : BitVec 6) (i : Nat) :
    (rWord rs rt rd shamt f).getLsbD i =
      if i < 6 then f.getLsbD i else if i - 6 < 5 then shamt.getLsbD (i - 6)
      else if i - 6 - 5 < 5 then rd.getLsbD (i - 6 - 5)
      else if i - 6 - 5 - 5 < 5 then rt.getLsbD (i - 6 - 5 - 5)
      else rs.getLsbD (i - 6 - 5 - 5 - 5) := by
  have e : (rWord rs rt rd shamt f).getLsbD i =
    ((0#6 ++ rs ++ rt ++ rd ++ shamt ++ f : BitVec (6+5+5+5+5+6))).getLsbD i := rfl
  rw [e]
  simp only [BitVec.getLsbD_append, BitVec.getLsbD_zero]
  repeat' split
  all_goals first | rfl | (symm; apply BitVec.getLsbD_of_ge; omega)

/-- The bits of an I-format word (R151). -/
theorem getLsbD_iWord (op : BitVec 6) (rs rt : Reg) (imm : Imm16) (i : Nat) :
    (iWord op rs rt imm).getLsbD i =
      if i < 16 then imm.getLsbD i else if i - 16 < 5 then rt.getLsbD (i - 16)
      else if i - 16 - 5 < 5 then rs.getLsbD (i - 16 - 5) else op.getLsbD (i - 16 - 5 - 5) := by
  have e : (iWord op rs rt imm).getLsbD i =
    ((op ++ rs ++ rt ++ imm : BitVec (6+5+5+16))).getLsbD i := rfl
  rw [e]
  simp only [BitVec.getLsbD_append]

/-- The bits of a J-format word (R151). -/
theorem getLsbD_jWord (op : BitVec 6) (target : Target) (i : Nat) :
    (jWord op target).getLsbD i =
      if i < 26 then target.getLsbD i else op.getLsbD (i - 26) := by
  have e : (jWord op target).getLsbD i = ((op ++ target : BitVec (6+26))).getLsbD i := rfl
  rw [e]
  simp only [BitVec.getLsbD_append]

/-- Under the mask of its row only the fixed bits of a word remain (R157). -/
theorem rWord_mask (rs rt rd : Reg) (shamt : Shamt) (f : BitVec 6) :
    rWord rs rt rd shamt f &&& 0xFC00003F#32 = f.zeroExtend 32 := by
  apply BitVec.eq_of_getLsbD_eq
  intro i hi
  rw [BitVec.getLsbD_and, getLsbD_rWord, BitVec.getLsbD_setWidth]
  interval_cases i <;> simp

theorem iWord_mask (op : BitVec 6) (rs rt : Reg) (imm : Imm16) :
    iWord op rs rt imm &&& 0xFC000000#32 = jWord op 0#26 := by
  apply BitVec.eq_of_getLsbD_eq
  intro i hi
  rw [BitVec.getLsbD_and, getLsbD_iWord, getLsbD_jWord]
  interval_cases i <;> simp

theorem jWord_mask (op : BitVec 6) (target : Target) :
    jWord op target &&& 0xFC000000#32 = jWord op 0#26 := by
  apply BitVec.eq_of_getLsbD_eq
  intro i hi
  rw [BitVec.getLsbD_and, getLsbD_jWord, getLsbD_jWord]
  interval_cases i <;> simp

/-! ### Fields of a R-format word -/

@[simp] theorem opField_rWord (rs rt rd : Reg) (shamt : Shamt) (f : BitVec 6) :
    opField (rWord rs rt rd shamt f) = 0 := by
  apply BitVec.eq_of_getLsbD_eq
  intro i hi
  rw [opField, BitVec.getLsbD_extractLsb', getLsbD_rWord]
  interval_cases i <;> simp

@[simp] theorem rsField_rWord (rs rt rd : Reg) (shamt : Shamt) (f : BitVec 6) :
    rsField (rWord rs rt rd shamt f) = rs := by
  apply BitVec.eq_of_getLsbD_eq
  intro i hi
  rw [rsField, BitVec.getLsbD_extractLsb', getLsbD_rWord]
  interval_cases i <;> simp

@[simp] theorem rtField_rWord (rs rt rd : Reg) (shamt : Shamt) (f : BitVec 6) :
    rtField (rWord rs rt rd shamt f) = rt := by
  apply BitVec.eq_of_getLsbD_eq
  intro i hi
  rw [rtField, BitVec.getLsbD_extractLsb', getLsbD_rWord]
  interval_cases i <;> simp

@[simp] theorem rdField_rWord (rs rt rd : Reg) (shamt : Shamt) (f : BitVec 6) :
    rdField (rWord rs rt rd shamt f) = rd := by
  apply BitVec.eq_of_getLsbD_eq
  intro i hi
  rw [rdField, BitVec.getLsbD_extractLsb', getLsbD_rWord]
  interval_cases i <;> simp

@[simp] theorem shamtField_rWord (rs rt rd : Reg) (shamt : Shamt) (f : BitVec 6) :
    shamtField (rWord rs rt rd shamt f) = shamt := by
  apply BitVec.eq_of_getLsbD_eq
  intro i hi
  rw [shamtField, BitVec.getLsbD_extractLsb', getLsbD_rWord]
  interval_cases i <;> simp

@[simp] theorem functField_rWord (rs rt rd : Reg) (shamt : Shamt) (f : BitVec 6) :
    functField (rWord rs rt rd shamt f) = f := by
  apply BitVec.eq_of_getLsbD_eq
  intro i hi
  rw [functField, BitVec.getLsbD_extractLsb', getLsbD_rWord]
  interval_cases i <;> simp


/-! ### Fields of a I-format word -/

@[simp] theorem opField_iWord (op : BitVec 6) (rs rt : Reg) (imm : Imm16) :
    opField (iWord op rs rt imm) = op := by
  apply BitVec.eq_of_getLsbD_eq
  intro i hi
  rw [opField, BitVec.getLsbD_extractLsb', getLsbD_iWord]
  interval_cases i <;> simp

@[simp] theorem rsField_iWord (op : BitVec 6) (rs rt : Reg) (imm : Imm16) :
    rsField (iWord op rs rt imm) = rs := by
  apply BitVec.eq_of_getLsbD_eq
  intro i hi
  rw [rsField, BitVec.getLsbD_extractLsb', getLsbD_iWord]
  interval_cases i <;> simp

@[simp] theorem rtField_iWord (op : BitVec 6) (rs rt : Reg) (imm : Imm16) :
    rtField (iWord op rs rt imm) = rt := by
  apply BitVec.eq_of_getLsbD_eq
  intro i hi
  rw [rtField, BitVec.getLsbD_extractLsb', getLsbD_iWord]
  interval_cases i <;> simp

@[simp] theorem immField_iWord (op : BitVec 6) (rs rt : Reg) (imm : Imm16) :
    immField (iWord op rs rt imm) = imm := by
  apply BitVec.eq_of_getLsbD_eq
  intro i hi
  rw [immField, BitVec.getLsbD_extractLsb', getLsbD_iWord]
  interval_cases i <;> simp


/-! ### Fields of a J-format word -/

@[simp] theorem opField_jWord (op : BitVec 6) (target : Target) :
    opField (jWord op target) = op := by
  apply BitVec.eq_of_getLsbD_eq
  intro i hi
  rw [opField, BitVec.getLsbD_extractLsb', getLsbD_jWord]
  interval_cases i <;> simp

@[simp] theorem targetField_jWord (op : BitVec 6) (target : Target) :
    targetField (jWord op target) = target := by
  apply BitVec.eq_of_getLsbD_eq
  intro i hi
  rw [targetField, BitVec.getLsbD_extractLsb', getLsbD_jWord]
  interval_cases i <;> simp

end Sys2Proof
end

