-- ==== Sys2Proof/Laws/Exec.lean ====
section
/-! SUPPORT. What the shared ends of the instructions leave (spec/41_rtype.md R200, spec/42_jump.md R230,
spec/43_branch.md R240, spec/44_immediate_alu.md R250), and the numbers behind their operands. -/

namespace Sys2Proof.Machine

/-- Equal register files read alike. -/
theorem reg_congr {s t : State} (h : t.regs = s.regs) (q : Reg) : t.reg q = s.reg q := by
  unfold State.reg; rw [h]

/-- Counting a class, writing one register and advancing changes nothing else. -/
theorem registerOnly_advance (s : State) (k : InstrClass) (r : Reg) (v : Word) :
    RegisterOnly s (((s.dispatched k).setReg r v).advance) r v (s.stat.countClass k) := by
  refine ⟨?_, ?_, ?_, ⟨?_, ?_, ?_⟩, ?_, ⟨?_, ?_, ?_, ?_, ?_⟩⟩
  · simp [setReg_reg_same]
  · intro q hq; simp [setReg_reg_other, hq]
  all_goals simp [nextPc]

/-- Every R-type instruction but `jr` (R200). -/
theorem rResult_next (s : State) (rd : Reg) (v : Word) :
    ∃ t, s.rResult rd v = .next t ∧
      RegisterOnly s t rd v { s.stat with nRType := s.stat.nRType + 1 } :=
  ⟨_, rfl, registerOnly_advance s .rType rd v⟩

/-- Every immediate ALU instruction (R250). -/
theorem iResult_next (s : State) (rt : Reg) (v : Word) :
    ∃ t, s.iResult rt v = .next t ∧
      RegisterOnly s t rt v { s.stat with nImmAlu := s.stat.nImmAlu + 1 } :=
  ⟨_, rfl, registerOnly_advance s .immAlu rt v⟩

/-- Counting a class and moving the pc changes nothing else. -/
theorem pcOnly_setPc (s : State) (k : InstrClass) (v : Word) :
    PcOnly s ((s.dispatched k).setPc v) v (s.stat.countClass k) := by
  refine ⟨?_, ?_, ⟨?_, ?_, ?_⟩, ?_, ⟨?_, ?_, ?_, ?_, ?_⟩⟩
  all_goals try intro q
  all_goals simp

/-- A taken branch counts itself too (R240). -/
theorem pcOnly_taken (s : State) (v : Word) :
    PcOnly s ((s.dispatched .branch).countTaken.setPc v) v
      { s.stat with nBranch := s.stat.nBranch + 1, nBranchTaken := s.stat.nBranchTaken + 1 } := by
  refine ⟨?_, ?_, ⟨?_, ?_, ?_⟩, ?_, ⟨?_, ?_, ?_, ?_, ?_⟩⟩
  all_goals try intro q
  all_goals simp [Stats.countClass]

/-- `signed` is the two's-complement reading of the library. -/
theorem signed_eq_toInt (w : Word) : signed w = w.toInt := by
  have := w.isLt
  rw [BitVec.toInt_eq_toNat_cond]; unfold signed; simp; split <;> split <;> omega

theorem signedImm_eq_toInt (imm : Imm16) : signedImm imm = imm.toInt := by
  have := imm.isLt
  rw [BitVec.toInt_eq_toNat_cond]; unfold signedImm; simp; split <;> split <;> omega

/-- Adding a sign-extended immediate is addition of the number it stands for, modulo `2^32` (R11, R153). -/
theorem add_sext32 (a : Word) (imm : Imm16) :
    a + sext32 imm = BitVec.ofInt 32 (a.toNat + signedImm imm) := by
  apply BitVec.eq_of_toInt_eq
  rw [signedImm_eq_toInt, BitVec.toInt_add, sext32, BitVec.toInt_ofInt,
    BitVec.toInt_signExtend_of_le (by omega), BitVec.toInt_eq_toNat_bmod]
  simp

/-- The effective address as a number modulo `2^32` (R86). -/
theorem effectiveAddress_eq (a : Word) (imm : Imm16) :
    effectiveAddress a imm = BitVec.ofInt 32 (a.toNat + signedImm imm) := add_sext32 a imm

/-- The target of a taken branch as a number modulo `2^32` (R240). -/
theorem branchTarget_eq (pc : Word) (imm : Imm16) :
    branchTarget pc imm = BitVec.ofInt 32 (pc.toNat + 4 + signedImm imm * 4) := by
  have e : sext32 imm <<< 2 = sext32 imm * 4#32 := by
    apply BitVec.eq_of_toNat_eq; simp [Nat.shiftLeft_eq]
  apply BitVec.eq_of_toInt_eq
  rw [branchTarget, e, signedImm_eq_toInt, BitVec.toInt_add, BitVec.toInt_mul, sext32, BitVec.toInt_ofInt,
    BitVec.toInt_signExtend_of_le (by omega), nextPc, BitVec.toInt_add, BitVec.toInt_eq_toNat_bmod]
  simp

/-- Every instruction completes once fetched. -/
theorem exec_next (i : Instr) (s : State) : ∃ t, exec i s = .next t := by
  cases i <;> try exact ⟨_, rfl⟩
  all_goals simp only [exec, execBeq, execBne, State.branchIf]; split <;> exact ⟨_, rfl⟩

end Sys2Proof.Machine
end

