-- ==== Sys2Proof/Laws/Step.lean ====
section
/-! SUPPORT. Everything a step can do (spec/40_step.md R180 to R189): the cases of a granted step, and what
its fetch leaves. -/

namespace Sys2Proof.Machine

/-- The four cases of a grant: refused, fault, nothing to do, or a step that runs (R7, R54, R180). -/
theorem step_cases (s : State) :
    (¬ s.cfg.Legal ∧ step s = .refused .illegalConfig) ∨
    (s.cfg.Legal ∧ s.cacheFits = false ∧ step s = .fault .cacheShape) ∨
    (s.cfg.Legal ∧ s.cacheFits = true ∧ s.run ≠ .running ∧ step s = .next s) ∨
    (s.Ready ∧ step s = runStep s) := by
  by_cases a : s.cfg.Legal
  · by_cases b : s.cacheFits = true
    · by_cases c : s.run = .running
      · have : s.blocked = none := by
          rw [State.blocked, if_neg (not_not_intro a), if_neg (not_not_intro b), if_neg (not_not_intro c)]
        exact .inr (.inr (.inr ⟨⟨a, b, c⟩, by rw [step, this]⟩))
      · have : s.blocked = some (.next s) := by
          rw [State.blocked, if_neg (not_not_intro a), if_neg (not_not_intro b), if_pos c]
        exact .inr (.inr (.inl ⟨a, b, c, by rw [step, this]⟩))
    · have : s.blocked = some (.fault .cacheShape) := by
        rw [State.blocked, if_neg (not_not_intro a), if_pos b]
      exact .inr (.inl ⟨a, by simpa using b, by rw [step, this]⟩)
  · have : s.blocked = some (.refused .illegalConfig) := by rw [State.blocked, if_pos a]
    exact .inl ⟨a, by rw [step, this]⟩

theorem step_ready {s : State} (h : s.Ready) : step s = runStep s := by
  rcases step_cases s with ⟨a, -⟩ | ⟨-, b, -⟩ | ⟨-, -, c, -⟩ | ⟨-, e⟩
  · exact (a h.1).elim
  · rw [h.2.1] at b; simp at b
  · exact (c h.2.2).elim
  · exact e

/-- A step past the halt checks runs what it fetched (R184 to R189). -/
theorem runStep_word {s : State} (h : s.PcFetchable) :
    runStep s = match decodeWord s.fetchWord.word with
      | some i => exec i s.fetchWord.state
      | none => .next (s.fetchWord.state.unsupported s.fetchWord.word) := by
  have hf : s.fetch = .word s.fetchWord.word s.fetchWord.state := by
    rw [State.fetch, if_neg h.1, if_neg h.2.1, if_neg h.2.2]
  cases e : decodeWord s.fetchWord.word with
  | none => simp only [runStep, hf, e]
  | some i => simp only [runStep, hf, e]

/-- Everything a running step can do, in the order of its checks (R180 to R189). -/
theorem runStep_cases {s t : State} (h : runStep s = .next t) :
    (s.pc = s.cfg.haltPc ∧ t = s.setRun (.halted .sentinel)) ∨
    (s.pc ≠ s.cfg.haltPc ∧ s.PcOutOfRange ∧ t = s.setRun (.halted .pcOutOfRange)) ∨
    (s.pc ≠ s.cfg.haltPc ∧ ¬ s.PcOutOfRange ∧ s.PcMisaligned ∧
      t = (s.report (.alignmentError .fetch s.pc)).setRun .faulted) ∨
    (s.PcFetchable ∧
      ((∃ i, decodeWord s.fetchWord.word = some i ∧ exec i s.fetchWord.state = .next t) ∨
        (decodeWord s.fetchWord.word = none ∧
          t = s.fetchWord.state.unsupported s.fetchWord.word))) := by
  by_cases h1 : s.pc = s.cfg.haltPc
  · rw [runStep, State.fetch, if_pos h1] at h; cases h; exact .inl ⟨h1, rfl⟩
  by_cases h2 : s.PcOutOfRange
  · rw [runStep, State.fetch, if_neg h1, if_pos h2] at h; cases h; exact .inr (.inl ⟨h1, h2, rfl⟩)
  by_cases h3 : s.PcMisaligned
  · rw [runStep, State.fetch, if_neg h1, if_neg h2, if_pos h3] at h
    cases h; exact .inr (.inr (.inl ⟨h1, h2, h3, rfl⟩))
  · refine .inr (.inr (.inr ⟨⟨h1, h2, h3⟩, ?_⟩))
    rw [runStep_word ⟨h1, h2, h3⟩] at h
    cases e : decodeWord s.fetchWord.word with
    | none => rw [e] at h; cases h; exact .inr ⟨rfl, rfl⟩
    | some i => rw [e] at h; exact .inl ⟨i, rfl, h⟩

/-- Counting the instruction keeps the invariants, and counts at least one. -/
theorem countInstr_inv {s : State} (h : s.Inv) : s.countInstr.Inv ∧ 1 ≤ s.countInstr.stat.nInstr :=
  ⟨inv_congr h rfl rfl rfl rfl (Nat.le_succ _), Nat.succ_le_succ (Nat.zero_le _)⟩

/-- What the fetch of a step leaves: the word a load would see, the invariants, every byte a load would see,
and the counters (R184, R185). Registers, pc and the rest: `transact_frame`. -/
theorem fetchWord_spec {s : State} (h : s.Inv) (h2 : s.PcFetchable) :
    s.fetchWord.word = s.archWord s.pc.toNat ∧ s.fetchWord.state.Inv ∧
      (∀ b, s.fetchWord.state.archMem b = s.archMem b) ∧
      s.fetchWord.state.stat = accessStats { s.stat with nInstr := s.stat.nInstr + 1 }
        (s.lookup s.pc.toNat).isSome s.cfg.missPenalty := by
  obtain ⟨hi, h1⟩ := countInstr_inv h
  have ha : s.pc.toNat % 4 = 0 := not_not.1 h2.2.2
  have hr : s.pc.toNat + 4 ≤ s.countInstr.cfg.memSize := not_lt.1 h2.2.1
  exact ⟨transact_word_read hi h1 ha hr, transact_inv hi h1 ha hr,
    fun b => transact_archMem_other hi h1 ha hr (by simp), transact_accessStats _ _ _⟩

/-- The fetch of a step has every effect of `CacheAccess(pc, Read)` after the instruction count (R185). -/
theorem fetchWord_cacheEffects {s : State} (h : s.PcFetchable) :
    CacheEffects s.countInstr s.fetchWord.state s.pc .read :=
  cacheEffects_of_transact ⟨not_not.1 h.2.2, not_lt.1 h.2.1⟩ rfl rfl rfl

end Sys2Proof.Machine
end

