-- ==== Sys2Proof/Laws/HostMoves.lean ====
section
/-! SUPPORT. What the moves of a host do (spec/15_interfaces.md R54, R60, spec/60_exceptions.md R325,
spec/70_reset_and_hazards.md R330). -/

namespace Sys2Proof.Machine

@[simp] theorem onMove_grant (s : State) : s.onMove .grant = step s := rfl
@[simp] theorem onMove_withhold (s : State) : s.onMove .withhold = .next s := rfl
@[simp] theorem onMove_reset (s : State) (c : Config) :
    s.onMove (.reset c) = .next (State.resetWith c) := rfl
@[simp] theorem onMoves_nil (s : State) : s.onMoves [] = .next s := rfl

theorem onMoves_cons_next {s t : State} {m : HostMove} (h : s.onMove m = .next t) (ms : List HostMove) :
    s.onMoves (m :: ms) = t.onMoves ms := by
  simp only [State.onMoves, h]

/-- A withheld grant may be left out of any series of moves (R54, R325). -/
@[simp] theorem onMoves_withhold (s : State) (ms : List HostMove) :
    s.onMoves (.withhold :: ms) = s.onMoves ms := onMoves_cons_next rfl ms

/-- A series that answers a next state is one move that does, then the rest (R60). -/
theorem onMoves_cons_cases {s t : State} {m : HostMove} {ms : List HostMove}
    (h : s.onMoves (m :: ms) = .next t) : ∃ u, s.onMove m = .next u ∧ u.onMoves ms = .next t := by
  cases e : s.onMove m with
  | next u => exact ⟨u, rfl, onMoves_cons_next e ms ▸ h⟩
  | fault f => simp [State.onMoves, e] at h
  | refused r => simp [State.onMoves, e] at h

/-- What every step keeps and every reset with a configuration of the series establishes holds after any
series of moves. -/
theorem onMoves_keeps {P : State → Prop} {ms : List HostMove}
    (hstep : ∀ s t, P s → step s = .next t → P t)
    (hreset : ∀ c, .reset c ∈ ms → P (State.resetWith c)) {s t : State} (hs : P s)
    (h : s.onMoves ms = .next t) : P t := by
  induction ms generalizing s with
  | nil => cases h; exact hs
  | cons m ms ih =>
    obtain ⟨u, hu, hm⟩ := onMoves_cons_cases h
    refine ih (fun c hc => hreset c (.tail _ hc)) ?_ hm
    cases m with
    | grant => exact hstep s u hs hu
    | withhold => cases hu; exact hs
    | reset c => cases hu; exact hreset c (.head _)

end Sys2Proof.Machine
end

