-- ==== Sys2Proof/Laws/PerInstr.lean ====
section
/-! SUPPORT. Statements made per instruction. TableRow: the encoder gives every instruction a word that the
instruction's own row of spec/opcode_table.json matches (spec/30_encoding.md R157). -/

namespace Sys2Proof.Laws.TableRow

/-- The word of `i` carries the fixed bits of a row of the table, under that row's mask. -/
def Statement (i : Instr) : Prop := (encode i &&& tableMask i, tableMask i) ∈ opcodeRows

theorem sll (rd rt : Reg) (shamt : Shamt) : Statement (.sll rd rt shamt) := by
  show (_ &&& 0xFC00003F#32, 0xFC00003F#32) ∈ _
  rw [encode, rWord_mask]; decide

theorem srl (rd rt : Reg) (shamt : Shamt) : Statement (.srl rd rt shamt) := by
  show (_ &&& 0xFC00003F#32, 0xFC00003F#32) ∈ _
  rw [encode, rWord_mask]; decide

theorem jr (rs : Reg) : Statement (.jr rs) := by
  show (_ &&& 0xFC00003F#32, 0xFC00003F#32) ∈ _
  rw [encode, rWord_mask]; decide

theorem add (rd rs rt : Reg) : Statement (.add rd rs rt) := by
  show (_ &&& 0xFC00003F#32, 0xFC00003F#32) ∈ _
  rw [encode, rWord_mask]; decide

theorem addu (rd rs rt : Reg) : Statement (.addu rd rs rt) := by
  show (_ &&& 0xFC00003F#32, 0xFC00003F#32) ∈ _
  rw [encode, rWord_mask]; decide

theorem sub (rd rs rt : Reg) : Statement (.sub rd rs rt) := by
  show (_ &&& 0xFC00003F#32, 0xFC00003F#32) ∈ _
  rw [encode, rWord_mask]; decide

theorem subu (rd rs rt : Reg) : Statement (.subu rd rs rt) := by
  show (_ &&& 0xFC00003F#32, 0xFC00003F#32) ∈ _
  rw [encode, rWord_mask]; decide

theorem and (rd rs rt : Reg) : Statement (.and rd rs rt) := by
  show (_ &&& 0xFC00003F#32, 0xFC00003F#32) ∈ _
  rw [encode, rWord_mask]; decide

theorem or (rd rs rt : Reg) : Statement (.or rd rs rt) := by
  show (_ &&& 0xFC00003F#32, 0xFC00003F#32) ∈ _
  rw [encode, rWord_mask]; decide

theorem xor (rd rs rt : Reg) : Statement (.xor rd rs rt) := by
  show (_ &&& 0xFC00003F#32, 0xFC00003F#32) ∈ _
  rw [encode, rWord_mask]; decide

theorem nor (rd rs rt : Reg) : Statement (.nor rd rs rt) := by
  show (_ &&& 0xFC00003F#32, 0xFC00003F#32) ∈ _
  rw [encode, rWord_mask]; decide

theorem slt (rd rs rt : Reg) : Statement (.slt rd rs rt) := by
  show (_ &&& 0xFC00003F#32, 0xFC00003F#32) ∈ _
  rw [encode, rWord_mask]; decide

theorem sltu (rd rs rt : Reg) : Statement (.sltu rd rs rt) := by
  show (_ &&& 0xFC00003F#32, 0xFC00003F#32) ∈ _
  rw [encode, rWord_mask]; decide

theorem j (target : Target) : Statement (.j target) := by
  show (_ &&& 0xFC000000#32, 0xFC000000#32) ∈ _
  rw [encode, jWord_mask]; decide

theorem jal (target : Target) : Statement (.jal target) := by
  show (_ &&& 0xFC000000#32, 0xFC000000#32) ∈ _
  rw [encode, jWord_mask]; decide

theorem beq (rs rt : Reg) (imm : Imm16) : Statement (.beq rs rt imm) := by
  show (_ &&& 0xFC000000#32, 0xFC000000#32) ∈ _
  rw [encode, iWord_mask]; decide

theorem bne (rs rt : Reg) (imm : Imm16) : Statement (.bne rs rt imm) := by
  show (_ &&& 0xFC000000#32, 0xFC000000#32) ∈ _
  rw [encode, iWord_mask]; decide

theorem addi (rt rs : Reg) (imm : Imm16) : Statement (.addi rt rs imm) := by
  show (_ &&& 0xFC000000#32, 0xFC000000#32) ∈ _
  rw [encode, iWord_mask]; decide

theorem addiu (rt rs : Reg) (imm : Imm16) : Statement (.addiu rt rs imm) := by
  show (_ &&& 0xFC000000#32, 0xFC000000#32) ∈ _
  rw [encode, iWord_mask]; decide

theorem slti (rt rs : Reg) (imm : Imm16) : Statement (.slti rt rs imm) := by
  show (_ &&& 0xFC000000#32, 0xFC000000#32) ∈ _
  rw [encode, iWord_mask]; decide

theorem sltiu (rt rs : Reg) (imm : Imm16) : Statement (.sltiu rt rs imm) := by
  show (_ &&& 0xFC000000#32, 0xFC000000#32) ∈ _
  rw [encode, iWord_mask]; decide

theorem andi (rt rs : Reg) (imm : Imm16) : Statement (.andi rt rs imm) := by
  show (_ &&& 0xFC000000#32, 0xFC000000#32) ∈ _
  rw [encode, iWord_mask]; decide

theorem ori (rt rs : Reg) (imm : Imm16) : Statement (.ori rt rs imm) := by
  show (_ &&& 0xFC000000#32, 0xFC000000#32) ∈ _
  rw [encode, iWord_mask]; decide

theorem xori (rt rs : Reg) (imm : Imm16) : Statement (.xori rt rs imm) := by
  show (_ &&& 0xFC000000#32, 0xFC000000#32) ∈ _
  rw [encode, iWord_mask]; decide

theorem lui (rt : Reg) (imm : Imm16) : Statement (.lui rt imm) := by
  show (_ &&& 0xFC000000#32, 0xFC000000#32) ∈ _
  rw [encode, iWord_mask]; decide

theorem lw (rt rs : Reg) (imm : Imm16) : Statement (.lw rt rs imm) := by
  show (_ &&& 0xFC000000#32, 0xFC000000#32) ∈ _
  rw [encode, iWord_mask]; decide

theorem sw (rt rs : Reg) (imm : Imm16) : Statement (.sw rt rs imm) := by
  show (_ &&& 0xFC000000#32, 0xFC000000#32) ∈ _
  rw [encode, iWord_mask]; decide

end Sys2Proof.Laws.TableRow
end

