-- ==== Sys2Proof/Tests/Slice0.lean ====
section
/-! SUPPORT. Tests. Expected results come from spec/95_test_vectors.md (section numbers in the comments), from
the `encoding` column of spec/opcode_table.json, or from a rule by hand; and, for every statement with
hypotheses, a state and operands that meet them. -/

namespace Sys2Proof.Tests

open Sys2Proof.Machine

/-! ### Helpers -/

/-- A small cache (95 program 3.4, with more memory): two sets, two ways, 8-byte lines. -/
def small : Config :=
  { Config.reference with memSize := 512, cacheSize := 32, lineSize := 8, ways := 2, missPenalty := 10 }

/-- `small` under `WriteThrough`. -/
def smallThrough : Config := { small with wpol := .writeThrough }

/-- A state with some registers preset. -/
def preset (s : State) (rs : List (Reg × Word)) : State :=
  rs.foldl (fun s r => s.setReg r.1 r.2) s

/-- The state of 95 section 2: reset, registers preset, the word at `pc = 0x100`. -/
def vector (c : Config) (w : Nat) (rs : List (Reg × Word)) : State :=
  (preset ((State.resetWith c).setPc 0x100#32) rs).withFetchWord 32 w

/-- Put a word into main memory. -/
def poke (s : State) (a : Nat) (w : Word) : State := { s with mem := Memory.writeBytes s.mem a (beBytes w) }

/-- A field of the state after one step. -/
def after {α : Type} (s : State) (f : State → α) : Option α :=
  match step s with
  | .next t => some (f t)
  | _ => none

/-- The word of main memory at `a`. -/
def memWord (s : State) (a : Nat) : Word :=
  be32 (Memory.read s.mem a) (Memory.read s.mem (a + 1)) (Memory.read s.mem (a + 2))
    (Memory.read s.mem (a + 3))

/-- A bare cache access of an instruction of its own: the instruction count goes up by one first (95 1.2). -/
def bare (s : State) (a : Word) (dir : Direction) : State := (s.countInstr.cacheAccess a dir).2

/-- Bare reads, in order. -/
def reads (c : Config) (as : List Word) : State :=
  as.foldl (fun s a => bare s a .read) (State.resetWith c)

/-- A line as 95 writes it: valid, base, dirty, stamp, flag. -/
structure Shown where
  valid : Bool
  base : Nat
  dirty : Bool
  lru : Nat
  sc : Bool
deriving DecidableEq, Repr

/-- The lines of set 0. -/
def lines0 (s : State) : List Shown :=
  (s.setAt 0).lines.map fun L => ⟨L.valid, baseOf s.cfg L.tag 0, L.dirty, L.lru, L.sc⟩

/-- Way 1 of set 0. -/
def way1 (s : State) : Option Shown := (lines0 s)[1]?

/-! ### WellFormed: each check refuses an ill-formed configuration (00_scope.md R7) -/

theorem test_wf_reference : Config.reference.Legal := by decide
theorem test_wf_line_short : ¬ { Config.reference with lineSize := 0 }.LineOk := by decide
theorem test_wf_line_ragged : ¬ { Config.reference with lineSize := 6 }.LineOk := by decide
theorem test_wf_ways : ¬ { Config.reference with ways := 0 }.WaysOk := by decide
theorem test_wf_geometry : ¬ { Config.reference with cacheSize := 300 }.GeometryOk := by decide
theorem test_wf_no_sets : ¬ { Config.reference with cacheSize := 0 }.GeometryOk := by decide
theorem test_wf_memory_ragged : ¬ { Config.reference with memSize := 4100 }.MemoryOk := by decide
theorem test_wf_memory_large : ¬ { Config.reference with memSize := 2 ^ 32 + 64 }.MemoryOk := by decide
theorem test_wf_memory_empty : ¬ { Config.reference with memSize := 0 }.MemoryOk := by decide
theorem test_wf_largest : { Config.reference with memSize := 2 ^ 32 }.Legal := by decide

/-- The step refuses an illegal configuration and nothing else of the machine is looked at. -/
theorem test_illegal_refused :
    step (State.resetWith { Config.reference with lineSize := 6 }) = .refused .illegalConfig :=
  by rw [step, State.blocked, if_pos (by decide)]

/-! ### Decoding, one word per instruction written bit by bit from the table (30_encoding.md R151 to R157)

The ignored fields (`x` in the table) are filled with junk. Each is also the witness of the encoding clause
of that instruction's result statement. -/

theorem test_decode_sll : opField 0b000000_10111_00001_00010_11111_000000#32 = 0 ∧
    functField 0b000000_10111_00001_00010_11111_000000#32 = 0x0#6 ∧
    decodeWord 0b000000_10111_00001_00010_11111_000000#32 = some (.sll 2#5 1#5 31#5) := by decide
theorem test_decode_srl : opField 0b000000_11111_00001_00010_00100_000010#32 = 0 ∧
    functField 0b000000_11111_00001_00010_00100_000010#32 = 0x2#6 ∧
    decodeWord 0b000000_11111_00001_00010_00100_000010#32 = some (.srl 2#5 1#5 4#5) := by decide
theorem test_decode_jr : opField 0b000000_00100_00101_00110_00111_001000#32 = 0 ∧
    functField 0b000000_00100_00101_00110_00111_001000#32 = 0x8#6 ∧
    decodeWord 0b000000_00100_00101_00110_00111_001000#32 = some (.jr 4#5) := by decide
theorem test_decode_add : opField 0b000000_00001_00010_00011_01001_100000#32 = 0 ∧
    functField 0b000000_00001_00010_00011_01001_100000#32 = 0x20#6 ∧
    decodeWord 0b000000_00001_00010_00011_01001_100000#32 = some (.add 3#5 1#5 2#5) := by decide
theorem test_decode_addu : opField 0b000000_00001_00010_00011_10000_100001#32 = 0 ∧
    functField 0b000000_00001_00010_00011_10000_100001#32 = 0x21#6 ∧
    decodeWord 0b000000_00001_00010_00011_10000_100001#32 = some (.addu 3#5 1#5 2#5) := by decide
theorem test_decode_sub : opField 0b000000_00001_00010_00011_00001_100010#32 = 0 ∧
    functField 0b000000_00001_00010_00011_00001_100010#32 = 0x22#6 ∧
    decodeWord 0b000000_00001_00010_00011_00001_100010#32 = some (.sub 3#5 1#5 2#5) := by decide
theorem test_decode_subu : opField 0b000000_00001_00010_00011_11111_100011#32 = 0 ∧
    functField 0b000000_00001_00010_00011_11111_100011#32 = 0x23#6 ∧
    decodeWord 0b000000_00001_00010_00011_11111_100011#32 = some (.subu 3#5 1#5 2#5) := by decide
theorem test_decode_and : opField 0b000000_00001_00010_00011_00010_100100#32 = 0 ∧
    functField 0b000000_00001_00010_00011_00010_100100#32 = 0x24#6 ∧
    decodeWord 0b000000_00001_00010_00011_00010_100100#32 = some (.and 3#5 1#5 2#5) := by decide
theorem test_decode_or : opField 0b000000_00001_00010_00011_00100_100101#32 = 0 ∧
    functField 0b000000_00001_00010_00011_00100_100101#32 = 0x25#6 ∧
    decodeWord 0b000000_00001_00010_00011_00100_100101#32 = some (.or 3#5 1#5 2#5) := by decide
theorem test_decode_xor : opField 0b000000_00001_00010_00011_01000_100110#32 = 0 ∧
    functField 0b000000_00001_00010_00011_01000_100110#32 = 0x26#6 ∧
    decodeWord 0b000000_00001_00010_00011_01000_100110#32 = some (.xor 3#5 1#5 2#5) := by decide
theorem test_decode_nor : opField 0b000000_00001_00010_00011_00011_100111#32 = 0 ∧
    functField 0b000000_00001_00010_00011_00011_100111#32 = 0x27#6 ∧
    decodeWord 0b000000_00001_00010_00011_00011_100111#32 = some (.nor 3#5 1#5 2#5) := by decide
theorem test_decode_slt : opField 0b000000_00001_00010_00011_00101_101010#32 = 0 ∧
    functField 0b000000_00001_00010_00011_00101_101010#32 = 0x2a#6 ∧
    decodeWord 0b000000_00001_00010_00011_00101_101010#32 = some (.slt 3#5 1#5 2#5) := by decide
theorem test_decode_sltu : opField 0b000000_00001_00010_00011_00110_101011#32 = 0 ∧
    functField 0b000000_00001_00010_00011_00110_101011#32 = 0x2b#6 ∧
    decodeWord 0b000000_00001_00010_00011_00110_101011#32 = some (.sltu 3#5 1#5 2#5) := by decide
theorem test_decode_j : opField 0b000010_11111111110000000000000001#32 = 0x2#6 ∧
    decodeWord 0b000010_11111111110000000000000001#32 = some (.j 0b11111111110000000000000001#26) := by decide
theorem test_decode_jal : opField 0b000011_00000000000000000000010000#32 = 0x3#6 ∧
    decodeWord 0b000011_00000000000000000000010000#32 = some (.jal 16#26) := by decide
theorem test_decode_beq : opField 0b000100_00001_00010_1000000000000011#32 = 0x4#6 ∧
    decodeWord 0b000100_00001_00010_1000000000000011#32 = some (.beq 1#5 2#5 0x8003#16) := by decide
theorem test_decode_bne : opField 0b000101_00001_00010_1111111111111110#32 = 0x5#6 ∧
    decodeWord 0b000101_00001_00010_1111111111111110#32 = some (.bne 1#5 2#5 0xFFFE#16) := by decide
theorem test_decode_addi : opField 0b001000_00001_00010_1111111111111111#32 = 0x8#6 ∧
    decodeWord 0b001000_00001_00010_1111111111111111#32 = some (.addi 2#5 1#5 0xFFFF#16) := by decide
theorem test_decode_addiu : opField 0b001001_00001_00010_1000000000000000#32 = 0x9#6 ∧
    decodeWord 0b001001_00001_00010_1000000000000000#32 = some (.addiu 2#5 1#5 0x8000#16) := by decide
theorem test_decode_slti : opField 0b001010_00001_00010_0111111111111111#32 = 0xa#6 ∧
    decodeWord 0b001010_00001_00010_0111111111111111#32 = some (.slti 2#5 1#5 0x7FFF#16) := by decide
theorem test_decode_sltiu : opField 0b001011_00001_00010_0000000000000001#32 = 0xb#6 ∧
    decodeWord 0b001011_00001_00010_0000000000000001#32 = some (.sltiu 2#5 1#5 1#16) := by decide
theorem test_decode_andi : opField 0b001100_00001_00010_1010101010101010#32 = 0xc#6 ∧
    decodeWord 0b001100_00001_00010_1010101010101010#32 = some (.andi 2#5 1#5 0xAAAA#16) := by decide
theorem test_decode_ori : opField 0b001101_00001_00010_1000000000000000#32 = 0xd#6 ∧
    decodeWord 0b001101_00001_00010_1000000000000000#32 = some (.ori 2#5 1#5 0x8000#16) := by decide
theorem test_decode_xori : opField 0b001110_00001_00010_0101010101010101#32 = 0xe#6 ∧
    decodeWord 0b001110_00001_00010_0101010101010101#32 = some (.xori 2#5 1#5 0x5555#16) := by decide
theorem test_decode_lui : opField 0b001111_01001_00010_1000000000000000#32 = 0xf#6 ∧
    decodeWord 0b001111_01001_00010_1000000000000000#32 = some (.lui 2#5 0x8000#16) := by decide
theorem test_decode_lw : opField 0b100011_00001_00010_0000000000000100#32 = 0x23#6 ∧
    decodeWord 0b100011_00001_00010_0000000000000100#32 = some (.lw 2#5 1#5 4#16) := by decide
theorem test_decode_sw : opField 0b101011_00001_00010_0000000000001000#32 = 0x2b#6 ∧
    decodeWord 0b101011_00001_00010_0000000000001000#32 = some (.sw 2#5 1#5 8#16) := by decide

/-- Words outside the maps (95 2.1, 2.6), the empty word, and the table's numbering of bits. -/
theorem test_decode_unsupported : decodeWord 0x70000000#32 = none ∧ decodeWord 0x0000000C#32 = none ∧
    decodeWord 0xFFFFFFFF#32 = none ∧ decodeWord 0x00221818#32 = none ∧ decodeWord 0x00221803#32 = none ∧
    decodeWord 0x04000000#32 = none ∧ decodeWord 0#32 = some (.sll 0#5 0#5 0#5) := by decide
theorem test_decode_bytes : decode [0x20#8, 0x01#8, 0x00#8] = .error .truncated ∧
    decode [0x20#8, 0x01#8, 0x00#8, 0x05#8, 0xFF#8] = .ok (.addi 1#5 0#5 5#16, [0xFF#8]) := by decide
theorem test_table_word : decodeTableWord 32 0x8C220004 = some (.lw 2#5 1#5 4#16) := by decide

/-! ### One step per vector (95 section 2) -/

-- 2.1 R-type
theorem test_sll_loses_bits : after (vector Config.reference 0x00011040 [(1#5, 0xc0000001#32)])
    (fun t => (t.reg 2#5, t.pc, t.stat.nRType, t.reports)) = some (0x80000002#32, 0x104#32, 1, []) := by decide
theorem test_sll_ignores_rs : after (vector Config.reference 0x00E11100 [(1#5, 0x10#32), (7#5, 0xffffffff#32)])
    (fun t => (t.reg 2#5, t.pc, t.stat.nRType, t.reports)) = some (0x100#32, 0x104#32, 1, []) := by decide
theorem test_srl_zero_fill : after (vector Config.reference 0x000117C2 [(1#5, 0x80000000#32)])
    (fun t => (t.reg 2#5, t.pc, t.stat.nRType, t.reports)) = some (0x1#32, 0x104#32, 1, []) := by decide
theorem test_srl_by_four : after (vector Config.reference 0x00011102 [(1#5, 0xf0000000#32)])
    (fun t => (t.reg 2#5, t.pc, t.stat.nRType, t.reports)) = some (0xf000000#32, 0x104#32, 1, []) := by decide
theorem test_add_wraps : after (vector Config.reference 0x00221820 [(1#5, 0x7fffffff#32), (2#5, 0x1#32)])
    (fun t => (t.reg 3#5, t.pc, t.stat.nRType, t.reports)) = some (0x80000000#32, 0x104#32, 1, []) := by decide
theorem test_add_source_is_destination : after (vector Config.reference 0x00210820 [(1#5, 0x3#32)])
    (fun t => (t.reg 1#5, t.pc, t.stat.nRType, t.reports)) = some (0x6#32, 0x104#32, 1, []) := by decide
theorem test_addu_wraps : after (vector Config.reference 0x00221821 [(1#5, 0xffffffff#32), (2#5, 0x1#32), (3#5, 0x9#32)])
    (fun t => (t.reg 3#5, t.pc, t.stat.nRType, t.reports)) = some (0x0#32, 0x104#32, 1, []) := by decide
theorem test_sub_order : after (vector Config.reference 0x00221822 [(1#5, 0x5#32), (2#5, 0x7#32)])
    (fun t => (t.reg 3#5, t.pc, t.stat.nRType, t.reports)) = some (0xfffffffe#32, 0x104#32, 1, []) := by decide
theorem test_sub_wraps : after (vector Config.reference 0x00221822 [(1#5, 0x80000000#32), (2#5, 0x1#32)])
    (fun t => (t.reg 3#5, t.pc, t.stat.nRType, t.reports)) = some (0x7fffffff#32, 0x104#32, 1, []) := by decide
theorem test_subu_wraps : after (vector Config.reference 0x00221823 [(1#5, 0x0#32), (2#5, 0x1#32)])
    (fun t => (t.reg 3#5, t.pc, t.stat.nRType, t.reports)) = some (0xffffffff#32, 0x104#32, 1, []) := by decide
theorem test_and : after (vector Config.reference 0x00221824 [(1#5, 0xff00ff00#32), (2#5, 0xff00ff0#32)])
    (fun t => (t.reg 3#5, t.pc, t.stat.nRType, t.reports)) = some (0xf000f00#32, 0x104#32, 1, []) := by decide
theorem test_or : after (vector Config.reference 0x00221825 [(1#5, 0xff00ff00#32), (2#5, 0xff00ff0#32)])
    (fun t => (t.reg 3#5, t.pc, t.stat.nRType, t.reports)) = some (0xfff0fff0#32, 0x104#32, 1, []) := by decide
theorem test_xor : after (vector Config.reference 0x00221826 [(1#5, 0xff00ff00#32), (2#5, 0xff00ff0#32)])
    (fun t => (t.reg 3#5, t.pc, t.stat.nRType, t.reports)) = some (0xf0f0f0f0#32, 0x104#32, 1, []) := by decide
theorem test_nor : after (vector Config.reference 0x00221827 [(1#5, 0xff00ff00#32), (2#5, 0xff00ff0#32)])
    (fun t => (t.reg 3#5, t.pc, t.stat.nRType, t.reports)) = some (0xf000f#32, 0x104#32, 1, []) := by decide
theorem test_nor_register_zero : after (vector Config.reference 0x00001827 [])
    (fun t => (t.reg 3#5, t.pc, t.stat.nRType, t.reports)) = some (0xffffffff#32, 0x104#32, 1, []) := by decide
theorem test_slt_signed : after (vector Config.reference 0x0022182A [(1#5, 0x80000000#32), (2#5, 0x7fffffff#32)])
    (fun t => (t.reg 3#5, t.pc, t.stat.nRType, t.reports)) = some (0x1#32, 0x104#32, 1, []) := by decide
theorem test_slt_equal : after (vector Config.reference 0x0021182A [(1#5, 0x5#32), (3#5, 0x9#32)])
    (fun t => (t.reg 3#5, t.pc, t.stat.nRType, t.reports)) = some (0x0#32, 0x104#32, 1, []) := by decide
theorem test_sltu_unsigned : after (vector Config.reference 0x0022182B [(1#5, 0x80000000#32), (2#5, 0x7fffffff#32), (3#5, 0x9#32)])
    (fun t => (t.reg 3#5, t.pc, t.stat.nRType, t.reports)) = some (0x0#32, 0x104#32, 1, []) := by decide
theorem test_jr : after (vector Config.reference 0x03E00008 [(31#5, 0x200#32)])
    (fun t => (t.pc, t.stat.nRType, t.reg 31#5)) = some (0x200#32, 1, 0x200#32) := by decide
theorem test_jr_ignores_fields : after (vector Config.reference 0x008531C8 [(4#5, 0x300#32)])
    (fun t => (t.pc, t.reports)) = some (0x300#32, []) := by decide
-- 2.2 Jump
theorem test_j_region : after (vector Config.reference 0x0BFFFFFF [])
    (fun t => (t.pc, t.stat.nJump)) = some (0x0FFFFFFC#32, 1) := by decide
theorem test_j : after (vector Config.reference 0x08000010 [])
    (fun t => (t.pc, t.reg 31#5)) = some (0x40#32, 0#32) := by decide
theorem test_jal_link : after (vector Config.reference 0x0C000040 [(31#5, 0x7#32)])
    (fun t => (t.reg 31#5, t.pc, t.stat.nJump)) = some (0x104#32, 0x100#32, 1) := by decide
-- 2.3 Branch
theorem test_beq_taken : after (vector Config.reference 0x10220003 [(1#5, 0x5#32), (2#5, 0x5#32)])
    (fun t => (t.pc, t.stat.nBranch, t.stat.nBranchTaken)) = some (0x110#32, 1, 1) := by decide
theorem test_beq_wraps : after (vector Config.reference 0x10008000 [])
    (fun t => (t.pc, t.stat.nBranch, t.stat.nBranchTaken)) = some (0xFFFE0104#32, 1, 1) := by decide
theorem test_bne_taken : after (vector Config.reference 0x1420FFFE [(1#5, 0x1#32)])
    (fun t => (t.pc, t.stat.nBranch, t.stat.nBranchTaken)) = some (0x0FC#32, 1, 1) := by decide
theorem test_bne_not_taken : after (vector Config.reference 0x1420FFFE [])
    (fun t => (t.pc, t.stat.nBranch, t.stat.nBranchTaken)) = some (0x104#32, 1, 0) := by decide
-- 2.4 Immediate ALU
theorem test_addi_sign : after (vector Config.reference 0x2022FFFF [(1#5, 0x0#32)])
    (fun t => (t.reg 2#5, t.pc, t.stat.nImmAlu, t.reports)) = some (0xffffffff#32, 0x104#32, 1, []) := by decide
theorem test_addi_wraps : after (vector Config.reference 0x20220001 [(1#5, 0x7fffffff#32)])
    (fun t => (t.reg 2#5, t.pc, t.stat.nImmAlu, t.reports)) = some (0x80000000#32, 0x104#32, 1, []) := by decide
theorem test_addiu_sign : after (vector Config.reference 0x24228000 [(1#5, 0x10000#32)])
    (fun t => (t.reg 2#5, t.pc, t.stat.nImmAlu, t.reports)) = some (0x8000#32, 0x104#32, 1, []) := by decide
theorem test_slti_less : after (vector Config.reference 0x2822FFFF [(1#5, 0xfffffffe#32)])
    (fun t => (t.reg 2#5, t.pc, t.stat.nImmAlu, t.reports)) = some (0x1#32, 0x104#32, 1, []) := by decide
theorem test_slti_not_less : after (vector Config.reference 0x2822FFFF [(1#5, 0x0#32), (2#5, 0x9#32)])
    (fun t => (t.reg 2#5, t.pc, t.stat.nImmAlu, t.reports)) = some (0x0#32, 0x104#32, 1, []) := by decide
theorem test_sltiu_sign_then_unsigned : after (vector Config.reference 0x2C228000 [(1#5, 0xffff7fff#32)])
    (fun t => (t.reg 2#5, t.pc, t.stat.nImmAlu, t.reports)) = some (0x1#32, 0x104#32, 1, []) := by decide
theorem test_sltiu_zero : after (vector Config.reference 0x2C220000 [(1#5, 0x0#32), (2#5, 0x9#32)])
    (fun t => (t.reg 2#5, t.pc, t.stat.nImmAlu, t.reports)) = some (0x0#32, 0x104#32, 1, []) := by decide
theorem test_andi_zero_extends : after (vector Config.reference 0x3022FFFF [(1#5, 0x12345678#32)])
    (fun t => (t.reg 2#5, t.pc, t.stat.nImmAlu, t.reports)) = some (0x5678#32, 0x104#32, 1, []) := by decide
theorem test_ori_zero_extends : after (vector Config.reference 0x34228000 [(1#5, 0x0#32)])
    (fun t => (t.reg 2#5, t.pc, t.stat.nImmAlu, t.reports)) = some (0x8000#32, 0x104#32, 1, []) := by decide
theorem test_xori : after (vector Config.reference 0x3822FFFF [(1#5, 0xffffffff#32)])
    (fun t => (t.reg 2#5, t.pc, t.stat.nImmAlu, t.reports)) = some (0xffff0000#32, 0x104#32, 1, []) := by decide
theorem test_lui_clears_low : after (vector Config.reference 0x3C02FFFF [(2#5, 0x1234#32)])
    (fun t => (t.reg 2#5, t.pc, t.stat.nImmAlu, t.reports)) = some (0xffff0000#32, 0x104#32, 1, []) := by decide
theorem test_lui_ignores_rs : after (vector Config.reference 0x3D228000 [(9#5, 0xffffffff#32)])
    (fun t => (t.reg 2#5, t.pc, t.stat.nImmAlu, t.reports)) = some (0x80000000#32, 0x104#32, 1, []) := by decide
-- 2.5 Memory
theorem test_lw : after (poke (vector Config.reference 0x8C220004 [(1#5, 0x200#32)]) 0x204 0xCAFEBABE#32)
    (fun t => (t.reg 2#5, t.stat.nMemory, t.stat.nMemAccess, t.stat.nHit, t.stat.nMiss, t.stat.cycles)) =
    some (0xCAFEBABE#32, 1, 1, 0, 2, 2000) ∧
    after (vector Config.reference 0x8C020100 [])
    (fun t => (t.reg 2#5, t.stat.nMemory, t.stat.nMemAccess, t.stat.nHit, t.stat.nMiss, t.stat.cycles)) =
    some (0x8C020100#32, 1, 1, 1, 1, 1001) := ⟨by decide, by decide⟩
theorem test_lw_rejected : after (vector Config.reference 0x8C220001 [(1#5, 0x2000#32)])
    (fun t => (t.reports, t.pc, t.stat.nMemAccess, t.stat.nMiss)) =
    some ([.alignmentError (.data .load) 0x2001#32], 0x104#32, 0, 1) ∧
    after (vector Config.reference 0x8C02FFFC [])
    (fun t => (t.reports, t.pc, t.stat.nMemAccess, t.stat.nMiss)) =
    some ([.rangeError .load 0xFFFFFFFC#32], 0x104#32, 0, 1) := ⟨by decide, by decide⟩
theorem test_sw_policies : after (vector Config.reference 0xAC220008 [(1#5, 0x200#32), (2#5, 0xA1B2C3D4#32)])
    (fun t => (memWord t 0x208, t.archWord 0x208, (lines0 t).take 3, t.stat.cycles)) =
    some (0#32, 0xA1B2C3D4#32, [⟨true, 0x100, false, 1, true⟩, ⟨true, 0x200, true, 1, true⟩,
      ⟨false, 0, false, 0, false⟩], 2000) ∧
    after (vector { Config.reference with wpol := .writeThrough } 0xAC220008
      [(1#5, 0x200#32), (2#5, 0xA1B2C3D4#32)])
    (fun t => (memWord t 0x208, t.archWord 0x208, way1 t)) =
    some (0xA1B2C3D4#32, 0xA1B2C3D4#32, some ⟨true, 0x200, false, 1, true⟩) := ⟨by decide, by decide⟩
theorem test_sw_rejected : after (vector Config.reference 0xAC220002 [(1#5, 0x200#32)])
    (fun t => (t.reports, t.stat.nMemAccess, t.stat.nMiss, way1 t)) =
    some ([.alignmentError (.data .store) 0x202#32], 0, 1, some ⟨false, 0, false, 0, false⟩) ∧
    after (vector Config.reference 0xAC021000 [(2#5, 5#32)])
    (fun t => (t.reports, t.stat.nMemAccess)) =
    some ([.rangeError .store 0x1000#32], 0) := ⟨by decide, by decide⟩

/-- 1.9: register 0 is no destination of any class. -/
theorem test_register_zero :
    [0x00220020, 0x00010100, 0x20000005, 0x3C001234, 0x8C000204].map (fun w =>
      after (poke (vector Config.reference w [(1#5, 3#32), (2#5, 4#32)]) 0x204 0xCAFEBABE#32)
        fun t => (t.reg 0#5, t.pc)) = List.replicate 5 (some (0#32, 0x104#32)) := by decide

-- 2.6 Unsupported instruction, halts and the fault
theorem test_unsupported : after (vector Config.reference 0x00221818 [])
    (fun t => (t.reports, t.pc, t.stat)) =
    some ([.unsupportedInstruction 0x100#32 0x00221818#32], 0x104#32,
      ⟨1, 0, 0, 0, 0, 0, 0, 0, 0, 1, 1000⟩) := by decide
theorem test_sentinel_before_alignment :
    after ((State.resetWith { small with haltPc := 3#32 }).setPc 3#32) (fun t => (t.run, t.reports, t.stat.nInstr)) =
    some (.halted .sentinel, [], 0) := by decide
theorem test_range_before_alignment : after (State.reset.setPc 0xFFE#32) (fun t => (t.run, t.reports)) =
    some (.halted .pcOutOfRange, []) := by decide
theorem test_misaligned_fetch : after (State.reset.setPc 0xFFA#32) (fun t => (t.run, t.reports, t.stat.nInstr)) =
    some (.faulted, [.alignmentError .fetch 0xFFA#32], 0) := by decide
theorem test_stopped : after (State.reset.setRun .faulted) (fun t => (t.run, t.pc, t.stat.nInstr)) =
    some (.faulted, 0#32, 0) := by decide

/-! ### The cache (95 sections 1 and 2.7) -/

theorem test_decomposition :
    (blockOf Config.reference 0x1234, setIndexOf Config.reference 0x1234, tagOf Config.reference 0x1234,
      offsetOf Config.reference 0x1234, baseOf Config.reference 0x48 0) = (0x48, 0, 0x48, 0x34, 0x1200) ∧
    (setIndexOf small 0x94, tagOf small 0x94, offsetOf small 0x94, baseOf small 9 0) = (0, 9, 4, 0x90) ∧
    (setIndexOf small 0x0C, tagOf small 0x0C, offsetOf small 0x0C, baseOf small 0 1) = (1, 0, 4, 8) := by
  decide
/-- 1.1: alignment is tested before range, and the access touches nothing. -/
theorem test_alignment_property :
    State.reset.cacheAccess 0x1001#32 .read =
      (.rejected .alignment, State.reset.report (.alignmentError (.data .load) 0x1001#32)) := by decide
/-- 1.2: the dirty line is written back when the fifth block evicts it, and not before. -/
theorem test_write_back_invariant :
    let s4 := [0x140#32, 0x180#32, 0x1C0#32].foldl (fun s a => bare s a .read)
      (bare State.reset 0x100#32 (.write 0xCAFEBABE#32))
    let s5 := bare s4 0x200#32 .read
    (memWord s4 0x100, s4.archWord 0x100, memWord s5 0x100, s5.stat.nMiss, s5.stat.cycles) =
      (0#32, 0xCAFEBABE#32, 0xCAFEBABE#32, 5, 5000) := by decide
/-- 1.4: B1 B2 B3 B4 B1 B2 B3 B5 evicts B4. -/
theorem test_lru :
    let s := reads Config.reference
      [0x000#32, 0x040#32, 0x080#32, 0x0C0#32, 0x000#32, 0x040#32, 0x080#32, 0x100#32]
    (lines0 s, s.stat.nHit, s.stat.cycles) =
      ([⟨true, 0x000, false, 5, true⟩, ⟨true, 0x040, false, 6, true⟩, ⟨true, 0x080, false, 7, true⟩,
        ⟨true, 0x100, false, 8, true⟩], 3, 5003) := by decide
/-- 1.5: with re-touches FIFO evicts B1. -/
theorem test_fifo :
    let s := reads { Config.reference with repl := .fifo }
      [0x000#32, 0x040#32, 0x080#32, 0x0C0#32, 0x000#32, 0x040#32, 0x080#32, 0x100#32]
    ((lines0 s).map (·.base), (s.setAt 0).fifo) = ([0x100, 0x040, 0x080, 0x0C0], 1) := by decide
/-- 1.6: the eight reads of the second-chance trace, the state after the fifth and the eighth. -/
theorem test_clock :
    let c := { Config.reference with repl := .clock }
    let s5 := reads c [0x000#32, 0x040#32, 0x080#32, 0x0C0#32, 0x100#32]
    let s8 := [0x140#32, 0x040#32, 0x180#32].foldl (fun s a => bare s a .read) s5
    ((lines0 s5).map fun l => (l.base, l.sc)) =
      [(0x100, true), (0x040, false), (0x0C0, true), (0, false)] ∧
    ((lines0 s8).map fun l => (l.base, l.sc)) =
      [(0x040, false), (0x140, false), (0x0C0, false), (0x180, true)] := by decide
/-- 3.4 step 3: of two ways with one stamp the lower is the victim. -/
theorem test_lru_tie :
    lruVictim [installed 0 2 [], installed 0 2 [], installed 0 3 []] = 0 ∧
    lruVictim [installed 0 4 [], installed 0 3 [], installed 0 3 []] = 1 := by decide
/-- 2.7: with one way every `Random` draw is way 0. -/
theorem test_random_direct_mapped :
    (chooseVictim { Config.reference with repl := .random, ways := 1 } 5 ⟨[Line.reset 64], 0⟩).way = 0 :=
  Nat.mod_one _
/-- 1.8, the first step of the source's image: the fetch of the first instruction is the miss. -/
theorem test_boot_first_step :
    (match boot Config.reference [0x20#8, 0x01#8, 0x00#8, 0x05#8] with
      | .ok s => after s fun t => (t.reg 1#5, t.pc, t.stat.nHit, t.stat.nMiss)
      | .error _ => none) = some (5#32, 4#32, 0, 1) := by decide
theorem test_core_is_the_machine : core.step = step ∧ core.reset = State.reset := ⟨rfl, rfl⟩

/-! ### Witnesses: a state and operands for the hypotheses of every statement that has some

`quiet` gives the invariants of a state whose cache is as reset left it; from there `transact_inv` and
`inv_congr` carry them. -/

/-- A state whose cache is as reset left it meets the invariants. -/
theorem quiet {s : State} (hl : s.cfg.Legal) (hf : s.cacheFits = true) (hm : Memory.wf s.mem = true)
    (hr : ∀ e ∈ s.mem, e.1 < s.cfg.memSize) (h0 : s.regs[0] = 0#32)
    (hc : ∀ i, i < s.cfg.setCount → ∀ k, k < s.cfg.ways →
      (s.lineAt i k).valid = false ∧ (s.lineAt i k).dirty = false) : s.Inv := by
  have nv : ∀ i k, i < s.cfg.setCount → k < s.cfg.ways → (s.lineAt i k).valid ≠ true :=
    fun i k hi hk e => by rw [(hc i hi k hk).1] at e; cases e
  refine ⟨hl, hf, hm, fun a ha => ?_, h0, fun i k k' hi hk _ hv => (nv i k hi hk hv).elim,
    fun i k hi hk hd => ?_, fun i k hi hk hv => (nv i k hi hk hv).elim,
    fun i k j hi hk _ hv => (nv i k hi hk hv).elim, fun i k hi hk hv => (nv i k hi hk hv).elim⟩
  · clear hm
    generalize s.mem = m at hr
    induction m with
    | nil => rfl
    | cons e m ih =>
      obtain ⟨k, b⟩ := e
      have h1 : k < s.cfg.memSize := hr (k, b) (by simp)
      rw [Memory.read, if_neg (by omega)]
      exact ih fun x hx => hr x (by simp [hx])
  · rw [(hc i hi k hk).2] at hd; cases hd

/-- `quiet` for a concrete state: every premise is decided. -/
abbrev Quiet (s : State) : Prop :=
  s.cfg.Legal ∧ s.cacheFits = true ∧ Memory.wf s.mem = true ∧ (∀ e ∈ s.mem, e.1 < s.cfg.memSize) ∧
    s.regs[0] = 0#32 ∧ ∀ i, i < s.cfg.setCount → ∀ k, k < s.cfg.ways →
      (s.lineAt i k).valid = false ∧ (s.lineAt i k).dirty = false

theorem Quiet.inv {s : State} (h : Quiet s) : s.Inv := quiet h.1 h.2.1 h.2.2.1 h.2.2.2.1 h.2.2.2.2.1 h.2.2.2.2.2

/-- Reset of the small cache, one instruction counted. -/
def counted (c : Config) : State := (State.resetWith c).countInstr

theorem counted_inv : (counted small).Inv := Quiet.inv (by decide)
theorem counted_through_inv : (counted smallThrough).Inv := Quiet.inv (by decide)

/-- Blocks 0x00 and 0x10 are resident and dirty: set 0 is full of dirty lines. -/
def dirtySet (c : Config) : State :=
  (((counted c).transact 0x00 (.write 0x11#32)).state.transact 0x14 (.write 0x22#32)).state

theorem dirtySet_inv : (dirtySet small).Inv :=
  transact_inv (transact_inv counted_inv (by decide) (by decide) (by decide)) (by decide) (by decide) (by decide)
theorem dirtySet_through_inv : (dirtySet smallThrough).Inv :=
  transact_inv (transact_inv counted_through_inv (by decide) (by decide) (by decide)) (by decide) (by decide)
    (by decide)

theorem witness_UnusedFieldsAreIgnored :
    decodeWord 0x00E11100#32 = some (.sll 2#5 1#5 4#5) ∧
    (0x00000000#32, 0xFC00003F#32) ∈ opcodeRows ∧ 0x00E11100#32 &&& 0xFC00003F#32 = 0x00000000#32 ∧
    (0xAC000000#32, 0xFC000000#32) ∈ opcodeRows ∧ 0xAFFFFFFF#32 &&& 0xFC000000#32 = 0xAC000000#32 := by
  decide

theorem witness_UnsupportedOutsideTheMaps :
    (opField 0x70000000#32 ≠ 0 ∧ decodeWord 0x70000000#32 = none) ∧
    (opField 0x0000000C#32 = 0 ∧ decodeWord 0x0000000C#32 = none) ∧ decodeWord 0xAFFFFFFF#32 ≠ none := by
  decide

/-- `jr` to the sentinel, to the first pc out of range, and to the last misaligned pc in range. -/
theorem witness_JumpRegister :
    let s := preset (State.resetWith small) [(1#5, 0xFFFFFFFF#32), (2#5, 0x200#32), (3#5, 0x1FD#32), (4#5, 0x1FB#32)]
    s.Ready ∧ s.reg 1#5 = s.cfg.haltPc ∧
    (s.reg 2#5 ≠ s.cfg.haltPc ∧ (s.reg 2#5).toNat + 4 > s.cfg.memSize) ∧
    (s.reg 3#5 ≠ s.cfg.haltPc ∧ (s.reg 3#5).toNat + 4 > s.cfg.memSize) ∧
    (s.reg 4#5 ≠ s.cfg.haltPc ∧ (s.reg 4#5).toNat + 4 ≤ s.cfg.memSize ∧ (s.reg 4#5).toNat % 4 ≠ 0) := by
  decide

theorem witness_BranchResults :
    let s := preset State.reset [(1#5, 5#32)]
    s.reg 0#5 = s.reg 0#5 ∧ s.reg 1#5 ≠ s.reg 0#5 ∧ s.pc.toNat % 4 = 0 := by decide

/-- The last word of memory, missing; a resident word, hitting; address 0. -/
theorem witness_LoadWordCompletes :
    ((counted small).Inv ∧ 1 ≤ (counted small).stat.nInstr ∧ AccessOk (counted small).cfg 0x1FC#32 ∧
      BitVec.ofInt 32 (((counted small).reg 0#5).toNat + signedImm 0x1FC#16) = 0x1FC#32 ∧
      (counted small).lookup 0x1FC = none) ∧
    ((dirtySet small).Inv ∧ 1 ≤ (dirtySet small).stat.nInstr ∧ AccessOk (dirtySet small).cfg 0#32 ∧
      BitVec.ofInt 32 (((dirtySet small).reg 0#5).toNat + signedImm 0#16) = 0#32 ∧
      (dirtySet small).lookup 0 = some 0) :=
  ⟨⟨counted_inv, by decide⟩, ⟨dirtySet_inv, by decide⟩⟩

/-- Misaligned (and out of range too), and the first aligned address out of range. -/
theorem witness_LoadWordRejected :
    let s := counted small
    let ea := fun imm : Imm16 => (BitVec.ofInt 32 ((s.reg 0#5).toNat + signedImm imm) : Word)
    (ea 1#16).toNat % 4 ≠ 0 ∧ (ea 0x1FD#16).toNat % 4 ≠ 0 ∧
    ((ea 0x200#16).toNat % 4 = 0 ∧ s.cfg.memSize < (ea 0x200#16).toNat + 4) ∧
    ((ea 0xFFFC#16).toNat % 4 = 0 ∧ s.cfg.memSize < (ea 0xFFFC#16).toNat + 4) := by decide

theorem witness_StoreWordCompletes :
    ((counted small).Inv ∧ 1 ≤ (counted small).stat.nInstr ∧ AccessOk (counted small).cfg 0x1FC#32 ∧
      BitVec.ofInt 32 (((counted small).reg 0#5).toNat + signedImm 0x1FC#16) = 0x1FC#32 ∧
      (counted small).cfg.wpol = .writeBack) ∧
    ((dirtySet smallThrough).Inv ∧ 1 ≤ (dirtySet smallThrough).stat.nInstr ∧
      AccessOk (dirtySet smallThrough).cfg 0x1FC#32 ∧ (dirtySet smallThrough).cfg.wpol = .writeThrough) ∧
    (0x1FB < 0x1FC ∨ 0x1FC + 4 ≤ 0x1FB) ∧ (0x200 < 0x1FC ∨ 0x1FC + 4 ≤ 0x200) :=
  ⟨⟨counted_inv, by decide⟩, ⟨dirtySet_through_inv, by decide⟩, by decide, by decide⟩

theorem witness_StoreWordRejected :
    let s := counted smallThrough
    let ea := fun imm : Imm16 => (BitVec.ofInt 32 ((s.reg 0#5).toNat + signedImm imm) : Word)
    (ea 0x1FE#16).toNat % 4 ≠ 0 ∧
    ((ea 0x200#16).toNat % 4 = 0 ∧ s.cfg.memSize < (ea 0x200#16).toNat + 4) := by decide

theorem witness_NoSideEffects :
    destReg (.lw 2#5 1#5 0#16) ≠ some 1#5 ∧ destReg (.sw 2#5 1#5 0#16) ≠ some 2#5 ∧
    (Instr.jal 0#26).cls ≠ .memory ∧ (Instr.lw 2#5 1#5 0#16).cls ≠ .branch := by decide

theorem witness_RegisterZeroIsImmutable : (31#5 : Reg) ≠ 0#5 ∧ (1#5 : Reg) ≠ 31#5 := by decide

theorem witness_UnreadRegistersDoNotMatter :
    (2#5 : Reg) ∉ readRegs (.lw 2#5 1#5 0#16) ∧ destReg (.lw 2#5 1#5 0#16) = some 2#5 ∧
    (31#5 : Reg) ∉ readRegs (.sw 2#5 1#5 0#16) ∧ (0#5 : Reg) ∉ readRegs (.jal 0#26) := by decide

theorem witness_OnlyJrMisalignsThePc :
    (∀ rs, Instr.beq 0#5 0#5 0xFFFF#16 ≠ .jr rs) ∧ (0xFFFFFFFC#32 : Word).toNat % 4 = 0 ∧
    (State.reset.setPc 0xFFFFFFFC#32).pc.toNat % 4 = 0 := by
  refine ⟨fun rs h => (by cases h), by decide, by decide⟩

/-- The first and the last word of memory, both zero: `sll R0,R0,0`. -/
theorem witness_StepRunsDecodedInstruction :
    (let s := State.resetWith small
     s.Inv ∧ s.Ready ∧ s.PcFetchable ∧ decodeWord (s.archWord s.pc.toNat) = some (.sll 0#5 0#5 0#5)) ∧
    (let s := (State.resetWith small).setPc 0x1FC#32
     s.Inv ∧ s.Ready ∧ s.PcFetchable ∧ decodeWord (s.archWord s.pc.toNat) = some (.sll 0#5 0#5 0#5)) :=
  ⟨⟨Quiet.inv (by decide), by decide⟩, ⟨Quiet.inv (by decide), by decide⟩⟩

theorem witness_UnsupportedWordIsANoOp :
    let s := poke ((State.resetWith small).setPc 0x1FC#32) 0x1FC 0x70000000#32
    s.Inv ∧ s.Ready ∧ s.PcFetchable ∧ decodeWord (s.archWord s.pc.toNat) = none :=
  ⟨Quiet.inv (by decide), by decide⟩

/-- Every stop and `Running`, at its own kind of pc. -/
theorem witness_NoPowerStates :
    (State.resetWith small).Ready ∧ ((State.resetWith small).setPc 0x200#32).Ready ∧
    ((State.resetWith small).setPc 1#32).Ready := by decide

theorem witness_OnlyResetRestartsTheCore :
    (let s := (State.resetWith small).setRun .faulted
     s.cfg.Legal ∧ s.cacheFits = true ∧ s.run ≠ .running ∧ ∀ c, HostMove.reset c ∉ [HostMove.grant, .withhold]) ∧
    ∃ u, ((State.resetWith small).setRun .faulted).onMoves [.withhold] = .next u :=
  ⟨⟨by decide, by decide, by decide, fun c h => by simp at h⟩, _, rfl⟩

/-- 95_test_vectors.md section 2.6, any grant when `run != Running`; and a grant between withheld ones (R325)
takes exactly one step, of the zero word at address 0. -/
theorem test_withheld_grants :
    (match ((State.resetWith small).setRun .faulted).onMoves [.grant, .withhold, .grant] with
      | .next t => t = (State.resetWith small).setRun .faulted | _ => False) ∧
    (match (State.resetWith small).onMoves [.withhold, .withhold, .grant, .withhold] with
      | .next t => t.pc = 4#32 ∧ t.stat.nInstr = 1 ∧ t.run = .running | _ => False) :=
  ⟨rfl, rfl, rfl, rfl⟩

/-- A sentinel that is misaligned and one that is out of range. -/
theorem witness_SentinelHalt :
    (let s := (State.resetWith small).setPc 0xFFFFFFFF#32; s.Ready ∧ s.pc = s.cfg.haltPc) ∧
    (let s := (State.resetWith { small with haltPc := 3#32 }).setPc 3#32; s.Ready ∧ s.pc = s.cfg.haltPc) := by
  decide

/-- The first pc out of range, aligned and not; and memory of 2^32 bytes with its last aligned pc. -/
theorem witness_RangeHalt :
    (let s := (State.resetWith small).setPc 0x200#32
     s.Ready ∧ s.pc ≠ s.cfg.haltPc ∧ s.pc.toNat + 4 > s.cfg.memSize) ∧
    (let s := (State.resetWith small).setPc 0x1FD#32
     s.Ready ∧ s.pc ≠ s.cfg.haltPc ∧ s.pc.toNat + 4 > s.cfg.memSize) ∧
    (let s := (State.resetWith { small with memSize := 2 ^ 32 }).setPc 0xFFFFFFFC#32
     s.cfg.memSize = 2 ^ 32 ∧ s.pc.toNat % 4 = 0) := by decide

theorem witness_MisalignedFetchFaults :
    (let s := (State.resetWith small).setPc 0x1FB#32
     s.Ready ∧ s.pc ≠ s.cfg.haltPc ∧ s.pc.toNat + 4 ≤ s.cfg.memSize ∧ s.pc.toNat % 4 ≠ 0) ∧
    (let s := (State.resetWith small).setPc 1#32
     s.Ready ∧ s.pc ≠ s.cfg.haltPc ∧ s.pc.toNat + 4 ≤ s.cfg.memSize ∧ s.pc.toNat % 4 ≠ 0) := by decide

theorem witness_StoppedCoreDoesNothing :
    ∀ r ∈ [RunState.halted .sentinel, .halted .pcOutOfRange, .faulted],
      let s := (State.resetWith small).setRun r
      s.cfg.Legal ∧ s.cacheFits = true ∧ s.run ≠ .running := by decide

theorem witness_StepIsTotal :
    (small.Legal ∧ (State.resetWith small).cacheFits = true) ∧
    ¬ { small with ways := 0 }.Legal ∧
    (small.Legal ∧ { State.resetWith small with cache := [] }.cacheFits = false) := by decide

/-- A step that answers a next state, for the statements about every such step. -/
theorem witness_step : ∃ t, step (State.resetWith small) = .next t := by
  rw [step_ready (by decide), runStep_word (by decide)]
  exact ⟨_, rfl⟩

theorem witness_ConfigurationIsConstant : ∃ t, step (State.resetWith small) = .next t := witness_step

theorem witness_ReportsAreAnOutputHistory :
    (∃ t, step (State.resetWith small) = .next t) ∧
    after ((State.resetWith small).setPc 1#32) (·.reports) = some [.alignmentError .fetch 1#32] :=
  ⟨witness_step, by decide⟩

theorem witness_OnlyTheInstructionCountIsRead :
    (⟨0, 9, 8, 7, 6, 5, 4, 3, 2, 1, 77⟩ : Stats).nInstr = (State.resetWith small).stat.nInstr ∧
    ∃ t, step (State.resetWith small) = .next t := ⟨rfl, witness_step⟩

theorem witness_CountersNeverFall : ∃ t, step (State.resetWith small) = .next t := witness_step

/-- The first and the last word of memory, and another byte of the last word's block. -/
theorem witness_AddressDecomposition :
    small.Legal ∧ AccessOk small 0#32 ∧ AccessOk small 0x1FC#32 ∧ tagOf small 0x1F8 = tagOf small 0x1FC ∧
    setIndexOf small 0x1F8 = setIndexOf small 0x1FC := by decide

theorem witness_RejectedAccessChangesNothing :
    (0x1FF#32 : Word).toNat % 4 ≠ 0 ∧
    ((0x200#32 : Word).toNat % 4 = 0 ∧ (0x200#32 : Word).toNat + 4 > (counted small).cfg.memSize) ∧
    AccessOk (counted small).cfg 0x1FC#32 ∧ (counted small).cfg.Legal := by decide

theorem witness_HitIffResident :
    (counted small).cfg.Legal ∧ (counted small).cacheFits = true ∧ AccessOk (counted small).cfg 0x1FC#32 ∧
    0 ≠ setIndexOf (counted small).cfg 0x1FC := by decide

/-- A hit on the first and on the last way, at the first and the last word of a line. -/
theorem witness_HitAccess :
    let s := dirtySet small
    s.cfg.Legal ∧ s.cacheFits = true ∧ Memory.wf s.mem = true ∧ (AccessOk s.cfg 0#32 ∧ s.lookup 0 = some 0) ∧
    (AccessOk s.cfg 0x14#32 ∧ s.lookup 0x14 = some 1) ∧ ¬ (1 = setIndexOf s.cfg 0 ∧ 0 = 0) := by decide

/-- A miss that finds an invalid way, and one that evicts a dirty line; both policies. -/
theorem witness_MissAccess :
    (let s := counted smallThrough
     s.cfg.Legal ∧ s.cacheFits = true ∧ Memory.wf s.mem = true ∧ AccessOk s.cfg 0x1FC#32 ∧ s.lookup 0x1FC = none ∧
       1 ≠ (s.choice 0x1FC).way) ∧
    (let s := dirtySet small
     s.cfg.Legal ∧ s.cacheFits = true ∧ Memory.wf s.mem = true ∧ AccessOk s.cfg 0x20#32 ∧ s.lookup 0x20 = none ∧
       (s.lineOf 0x20 (s.choice 0x20).way).valid = true ∧ (s.lineOf 0x20 (s.choice 0x20).way).dirty = true) := by
  decide

theorem witness_WritePolicies :
    ((dirtySet small).Inv ∧ 1 ≤ (dirtySet small).stat.nInstr ∧ AccessOk (dirtySet small).cfg 0x1FC#32 ∧
      (dirtySet small).cfg.wpol = .writeBack) ∧
    ((dirtySet smallThrough).Inv ∧ 1 ≤ (dirtySet smallThrough).stat.nInstr ∧
      AccessOk (dirtySet smallThrough).cfg 4#32 ∧ (dirtySet smallThrough).cfg.wpol = .writeThrough ∧
      (3 < 4 ∨ 4 + 4 ≤ 3) ∧ (8 < 4 ∨ 4 + 4 ≤ 8)) :=
  ⟨⟨dirtySet_inv, by decide⟩, ⟨dirtySet_through_inv, by decide⟩⟩

theorem witness_WriteInvariants :
    ((dirtySet smallThrough).Inv ∧ 1 ≤ (dirtySet smallThrough).stat.nInstr ∧
      AccessOk (dirtySet smallThrough).cfg 0x20#32 ∧ (dirtySet smallThrough).cfg.wpol = .writeThrough) ∧
    (let s := dirtySet small
     s.Inv ∧ 1 ≤ s.stat.nInstr ∧ AccessOk s.cfg 0x20#32 ∧ s.lookup 0x20 = none ∧
       (s.lineOf 0x20 (s.choice 0x20).way).valid = true ∧ (s.lineOf 0x20 (s.choice 0x20).way).dirty = true ∧
       7 < s.cfg.lineSize) :=
  ⟨⟨dirtySet_through_inv, by decide⟩, ⟨dirtySet_inv, by decide⟩⟩

/-- A set of two ways, its cursor on the last. -/
def twoWays (stamp0 stamp1 : Nat) (sc0 sc1 : Bool) (fifo : Nat) : CacheSet :=
  ⟨[{ installed 0 stamp0 [] with sc := sc0 }, { installed 1 stamp1 [] with sc := sc1 }], fifo⟩

theorem witness_VictimIsAWayOfTheSet :
    let S := twoWays 1 2 true true 1
    0 < small.ways ∧ S.lines.length = small.ways ∧ S.fifo < small.ways ∧ small.repl = .lru ∧
    { small with repl := .random }.repl = .random := by decide

theorem witness_FifoCycles :
    { small with repl := .fifo }.repl = .fifo ∧ 0 < small.ways ∧ (twoWays 1 2 true true 0).fifo = 0 ∧
    (dirtySet small).cfg.Legal ∧ (dirtySet small).cacheFits = true ∧ AccessOk (dirtySet small).cfg 0x14#32 ∧
    (dirtySet small).lookup 0x14 = some 1 := by decide

/-- Equal stamps, and the last way the older. -/
theorem witness_LruTakesTheOldest :
    small.repl = .lru ∧ 0 < small.ways ∧ (twoWays 2 2 true true 0).lines.length = small.ways ∧
    (twoWays 2 1 true true 0).lines.length = small.ways ∧
    (twoWays 2 1 false false 1).lines.map (·.lru) = (twoWays 2 1 true true 0).lines.map (·.lru) := by decide

/-- The first way unset, only the last way unset, every flag set. -/
theorem witness_ClockSecondChance :
    let c := { small with repl := .clock }
    c.repl = .clock ∧ 0 < c.ways ∧ (twoWays 1 2 false true 0).lines.length = c.ways ∧
    (0 < c.ways ∧ ((twoWays 1 2 false true 0).line 0).sc = false) ∧
    (1 < c.ways ∧ ((twoWays 1 2 true false 0).line 1).sc = false ∧
      ∀ j, j < 1 → ((twoWays 1 2 true false 0).line j).sc = true) ∧
    ∀ k, k < c.ways → ((twoWays 1 2 true true 0).line k).sc = true := by decide

theorem witness_AccessKeepsArchitecturalMemory :
    (dirtySet small).Inv ∧ 1 ≤ (dirtySet small).stat.nInstr ∧ AccessOk (dirtySet small).cfg 0x1FC#32 ∧
    ¬ AccessOk (dirtySet small).cfg 0x200#32 := ⟨dirtySet_inv, by decide⟩

/-- `sw R0,4(R0)` at address 0: the next fetch is at the word just stored. -/
theorem witness_StoreIsSeenByTheNextFetch :
    let s := counted small
    s.Inv ∧ 1 ≤ s.stat.nInstr ∧ s.Ready ∧ AccessOk s.cfg 4#32 ∧
    (BitVec.ofInt 32 ((s.reg 0#5).toNat + signedImm 4#16) : Word) = 4#32 ∧ s.pc + 4#32 = 4#32 ∧
    4#32 ≠ s.cfg.haltPc ∧ decodeWord (s.reg 0#5) = some (.sll 0#5 0#5 0#5) :=
  ⟨counted_inv, by decide⟩

/-- The same memory behind a cache of another geometry and other policies. -/
def other : Config :=
  { small with cacheSize := 64, lineSize := 16, ways := 1, repl := .clock, wpol := .writeThrough, missPenalty := 7 }

theorem witness_CacheIsTransparent :
    (State.resetWith small).Inv ∧ (State.resetWith other).Inv ∧
    SameProgramView (State.resetWith small) (State.resetWith other) := by
  have h := Quiet.inv (s := State.resetWith small) (by decide)
  have h' := Quiet.inv (s := State.resetWith other) (by decide)
  have v : ∀ i, i < small.setCount → ∀ k, k < small.ways → ((State.resetWith small).lineAt i k).valid = false := by
    decide
  have v' : ∀ i, i < other.setCount → ∀ k, k < other.ways → ((State.resetWith other).lineAt i k).valid = false := by
    decide
  refine ⟨h, h', fun q => by simp [State.reg, State.resetWith, resetRegs, small, other], rfl, rfl, rfl, rfl, rfl, rfl,
    fun a => ?_⟩
  have l := lookup_eq_none ((cacheFits_iff _).1 h.fits) h.legal (a := a) fun k hk => by
    rw [Line.holds, State.lineOf, v _ (setIndexOf_lt h.legal a) k hk]; rfl
  have l' := lookup_eq_none ((cacheFits_iff _).1 h'.fits) h'.legal (a := a) fun k hk => by
    rw [Line.holds, State.lineOf, v' _ (setIndexOf_lt h'.legal a) k hk]; rfl
  rw [archMem_absent l, archMem_absent l']; rfl

theorem witness_StepKeepsMemoryCanonical :
    Memory.wf (State.resetWith small).mem = true ∧ ∃ t, step (State.resetWith small) = .next t :=
  ⟨rfl, witness_step⟩

theorem witness_StepKeepsInvariants :
    (State.resetWith small).Inv ∧ ∃ t, step (State.resetWith small) = .next t :=
  ⟨Quiet.inv (by decide), witness_step⟩

theorem witness_StepKeepsStatisticsBalanced :
    (State.resetWith small).StatsBalanced ∧ ∃ t, step (State.resetWith small) = .next t :=
  ⟨⟨rfl, rfl, rfl, Nat.le_refl _, rfl⟩, witness_step⟩

/-- The first and the last register, and the last line of the last set. -/
theorem witness_ResetValues : (1#5 : Reg) ≠ 0#5 ∧ (31#5 : Reg) ≠ 0#5 ∧ 1 < small.setCount ∧ 1 < small.ways := by
  decide

theorem witness_ResetMeetsInvariants : small.Legal ∧ Config.reference.Legal := by decide

/-- An illegal configuration, an image one byte too long, and one that fills memory. -/
theorem witness_BootLoadsTheImage :
    ¬ { small with lineSize := 6 }.Legal ∧ small.Legal ∧ (List.replicate 513 0x20#8).length > small.memSize ∧
    (List.replicate 512 0x20#8).length ≤ small.memSize := by
  refine ⟨by decide, by decide, ?_, ?_⟩ <;> rw [List.length_replicate] <;> decide

theorem witness_AverageMemoryAccessTime :
    State.reset.stat.nHit + State.reset.stat.nMiss = 0 ∧
    (let s : State := { State.reset with stat := { Stats.reset with nHit := 9, nMiss := 1 } }
     s.stat.nHit + s.stat.nMiss ≠ 0 ∧ s.stat.nHit = 9 ∧ s.stat.nMiss = 1 ∧ s.cfg.missPenalty = 1000) := by
  decide

end Sys2Proof.Tests
end

namespace Sys2Proof.Machine

/-! ### What an instruction asks for, as a function of the registers and the pc

An instruction reads registers and the pc and then does one of three things. `effectOf` says which, and
`exec_eq_perform` ties it to `exec`: a fact about every instruction is a fact about three effects. -/

/-- What an instruction asks of the state (R23, R188). -/
inductive Effect where
  /-- No data access: the class counter `k`, the counter of taken branches if `taken`, `r <- v` (nothing if
  `r` is 0, R22), and `pc <- npc`. -/
  | internal (k : InstrClass) (taken : Bool) (r : Reg) (v npc : Word)
  /-- A `lw` of `ea` into `rt` (R271). -/
  | load (rt : Reg) (ea : Word)
  /-- A `sw` of `w` to `ea` (R272). -/
  | store (ea w : Word)

/-- A computed register, then the next instruction (R200, R250). -/
def Effect.compute (k : InstrClass) (r : Reg) (v pc : Word) : Effect := .internal k false r v (nextPc pc)

/-- A jump that writes no register (R216, R230). -/
def Effect.goto (k : InstrClass) (npc : Word) : Effect := .internal k false 0#5 0#32 npc

/-- A branch on `cond` (R240). -/
def Effect.branch (cond : Bool) (pc : Word) (imm : Imm16) : Effect :=
  .internal .branch cond 0#5 0#32 (if cond then branchTarget pc imm else nextPc pc)

/-- The effect of an instruction at `pc` when register `q` reads `x q`. -/
def effectOf (x : Reg → Word) (pc : Word) : Instr → Effect
  | .sll rd rt shamt => .compute .rType rd (x rt <<< shamt.toNat) pc
  | .srl rd rt shamt => .compute .rType rd (x rt >>> shamt.toNat) pc
  | .jr rs => .goto .rType (x rs)
  | .add rd rs rt | .addu rd rs rt => .compute .rType rd (x rs + x rt) pc
  | .sub rd rs rt | .subu rd rs rt => .compute .rType rd (x rs - x rt) pc
  | .and rd rs rt => .compute .rType rd (x rs &&& x rt) pc
  | .or rd rs rt => .compute .rType rd (x rs ||| x rt) pc
  | .xor rd rs rt => .compute .rType rd (x rs ^^^ x rt) pc
  | .nor rd rs rt => .compute .rType rd (~~~(x rs ||| x rt)) pc
  | .slt rd rs rt => .compute .rType rd (truth (lessSigned (x rs) (x rt))) pc
  | .sltu rd rs rt => .compute .rType rd (truth (lessUnsigned (x rs) (x rt))) pc
  | .j target => .goto .jump (jumpTarget pc target)
  | .jal target => .internal .jump false linkReg (nextPc pc) (jumpTarget pc target)
  | .beq rs rt imm => .branch (sameWord (x rs) (x rt)) pc imm
  | .bne rs rt imm => .branch (!sameWord (x rs) (x rt)) pc imm
  | .addi rt rs imm | .addiu rt rs imm => .compute .immAlu rt (x rs + sext32 imm) pc
  | .slti rt rs imm => .compute .immAlu rt (truth (lessSigned (x rs) (sext32 imm))) pc
  | .sltiu rt rs imm => .compute .immAlu rt (truth (lessUnsigned (x rs) (sext32 imm))) pc
  | .andi rt rs imm => .compute .immAlu rt (x rs &&& zext32 imm) pc
  | .ori rt rs imm => .compute .immAlu rt (x rs ||| zext32 imm) pc
  | .xori rt rs imm => .compute .immAlu rt (x rs ^^^ zext32 imm) pc
  | .lui rt imm => .compute .immAlu rt (upperImm imm) pc
  | .lw rt rs imm => .load rt (effectiveAddress (x rs) imm)
  | .sw rt rs imm => .store (effectiveAddress (x rs) imm) (x rt)

/-- The class counter, and the counter of taken branches if `taken` (R188, R240). -/
def Stats.countExec (t : Stats) (k : InstrClass) (taken : Bool) : Stats :=
  { t.countClass k with nBranchTaken := t.nBranchTaken + taken.toNat }

/-- The state after an effect. -/
def State.perform (s : State) : Effect → State
  | .internal k taken r v npc => { s.setReg r v with pc := npc, stat := s.stat.countExec k taken }
  | .load rt ea => loadResult rt ((s.dispatched .memory).cacheAccess ea .read)
  | .store ea w => storeResult ((s.dispatched .memory).cacheAccess ea (.write w))

theorem countExec_false (t : Stats) (k : InstrClass) : t.countExec k false = t.countClass k := by
  cases k <;> rfl

theorem perform_compute (s : State) (k : InstrClass) (r : Reg) (v : Word) :
    s.perform (.compute k r v s.pc) = ((s.dispatched k).setReg r v).advance := by
  by_cases h : r = 0#5 <;>
    simp [State.perform, Effect.compute, countExec_false, State.setReg, State.advance, State.setPc,
      State.dispatched, h]

theorem perform_goto (s : State) (k : InstrClass) (npc : Word) :
    s.perform (.goto k npc) = (s.dispatched k).setPc npc := by
  simp [State.perform, Effect.goto, countExec_false, State.setPc, State.dispatched]

theorem branchIf_eq_perform (s : State) (cond : Bool) (imm : Imm16) :
    s.branchIf cond imm = .next (s.perform (.branch cond s.pc imm)) := by
  cases cond <;> simp [State.branchIf, State.perform, Effect.branch, Stats.countExec, Stats.countClass,
    State.setPc, State.advance, State.dispatched, State.countTaken]

/-- Every instruction performs its effect, of the registers and the pc it finds. -/
theorem exec_eq_perform (i : Instr) (s : State) : exec i s = .next (s.perform (effectOf s.reg s.pc i)) := by
  cases i with
  | sll | srl | add | addu | sub | subu | and | or | xor | nor | slt | sltu =>
    exact congrArg Host.Outcome.next (perform_compute s .rType _ _).symm
  | addi | addiu | slti | sltiu | andi | ori | xori | lui =>
    exact congrArg Host.Outcome.next (perform_compute s .immAlu _ _).symm
  | jr | j => exact congrArg Host.Outcome.next (perform_goto s _ _).symm
  | beq | bne => exact branchIf_eq_perform s _ _
  | jal => rfl
  | lw | sw => rfl

/-! ### The parts of an effect, and what they are for each instruction -/

/-- The class whose counter moves. -/
def Effect.cls : Effect → InstrClass
  | .internal k _ _ _ _ => k
  | .load _ _ | .store _ _ => .memory

/-- Whether the counter of taken branches moves. -/
def Effect.taken : Effect → Bool
  | .internal _ taken _ _ _ => taken
  | .load _ _ | .store _ _ => false

/-- The register written; 0 if none is. -/
def Effect.dest : Effect → Reg
  | .internal _ _ r _ _ => r
  | .load rt _ => rt
  | .store _ _ => 0#5

/-- The pc after the effect at `pc`. -/
def Effect.npc (pc : Word) : Effect → Word
  | .internal _ _ _ _ npc => npc
  | .load _ _ | .store _ _ => nextPc pc

section effectOf

variable (x : Reg → Word) (pc : Word) (i : Instr)

theorem effectOf_cls : (effectOf x pc i).cls = i.cls := by cases i <;> rfl

theorem effectOf_dest : (effectOf x pc i).dest = (destReg i).getD 0#5 := by cases i <;> rfl

theorem effectOf_taken (h : i.cls ≠ .branch) : (effectOf x pc i).taken = false := by
  cases i with
  | beq | bne => exact absurd rfl h
  | _ => rfl

/-- The effect depends on the registers the instruction reads and on no other (R23). -/
theorem effectOf_congr {y : Reg → Word} (h : ∀ q ∈ readRegs i, x q = y q) :
    effectOf x pc i = effectOf y pc i := by
  cases i <;> simp_all [effectOf, readRegs]

end effectOf

/-! ### Aligned program counters (R25) -/

theorem nextPc_aligned {pc : Word} (h : pc.toNat % 4 = 0) : (nextPc pc).toNat % 4 = 0 := by
  rw [nextPc, BitVec.toNat_add]
  simp
  omega

theorem branchTarget_aligned {pc : Word} (imm : Imm16) (h : pc.toNat % 4 = 0) :
    (branchTarget pc imm).toNat % 4 = 0 := by
  have := nextPc_aligned h
  rw [branchTarget, BitVec.toNat_add, BitVec.toNat_shiftLeft, Nat.shiftLeft_eq]
  omega

theorem jumpTarget_aligned (pc : Word) (target : Target) : (jumpTarget pc target).toNat % 4 = 0 := by
  unfold jumpTarget
  rw [BitVec.toNat_append]
  simp [Nat.shiftLeft_eq]

/-- From an aligned pc every instruction but `jr` goes to an aligned pc (R25). -/
theorem effectOf_npc_aligned (x : Reg → Word) {pc : Word} (i : Instr) (hj : ∀ rs, i ≠ .jr rs)
    (h : pc.toNat % 4 = 0) : ((effectOf x pc i).npc pc).toNat % 4 = 0 := by
  cases i with
  | jr rs => exact absurd rfl (hj rs)
  | j target | jal target => exact jumpTarget_aligned pc target
  | beq rs rt imm | bne rs rt imm =>
    simp only [effectOf, Effect.branch, Effect.npc]
    split
    · exact branchTarget_aligned imm h
    · exact nextPc_aligned h
  | _ => exact nextPc_aligned h

/-! ### `CacheAccess` as part of a step -/

/-- The two ends of an access (R73, R74, R100). -/
theorem cacheAccess_cases (s : State) (a : Word) (dir : Direction) :
    (¬ AccessOk s.cfg a ∧ ∃ r, (s.cacheAccess a dir).2 = s.report r) ∨
    (AccessOk s.cfg a ∧ (s.cacheAccess a dir).2 = (s.transact a.toNat dir).state) := by
  by_cases h : AccessOk s.cfg a
  · exact .inr ⟨h, cacheAccess_state h⟩
  · cases e : rejectionOf s.cfg a with
    | none => exact absurd (rejectionOf_none e) h
    | some kind => exact .inl ⟨h, _, by rw [cacheAccess_rejected e]⟩

/-- No access touches configuration, registers, pc or run state, or a counter beside those of hits, misses
and cycles. -/
theorem cacheAccess_frame (s : State) (a : Word) (dir : Direction) :
    (s.cacheAccess a dir).2.cfg = s.cfg ∧ (s.cacheAccess a dir).2.regs = s.regs ∧
      (s.cacheAccess a dir).2.pc = s.pc ∧ (s.cacheAccess a dir).2.run = s.run ∧
      ∃ h m c, (s.cacheAccess a dir).2.stat = { s.stat with nHit := h, nMiss := m, cycles := c } := by
  rcases cacheAccess_cases s a dir with ⟨-, r, e⟩ | ⟨-, e⟩ <;> rw [e]
  · exact ⟨rfl, rfl, rfl, rfl, _, _, _, rfl⟩
  · obtain ⟨hc, hr, hp, hrun, -, -⟩ := transact_frame s a.toNat dir
    refine ⟨hc, hr, hp, hrun, ?_⟩
    rw [transact_stat]
    split
    · exact ⟨_, _, _, rfl⟩
    · exact ⟨_, _, _, rfl⟩

/-- Every access keeps memory canonical. -/
theorem cacheAccess_memWf {s : State} (h : Memory.wf s.mem = true) (a : Word) (dir : Direction) :
    Memory.wf (s.cacheAccess a dir).2.mem = true := by
  rcases cacheAccess_cases s a dir with ⟨-, r, e⟩ | ⟨-, e⟩ <;> rw [e]
  · exact h
  · exact transact_memWf h _ _

/-- Every access, rejected or not, keeps the invariants. -/
theorem cacheAccess_inv {s : State} (h : s.Inv) (h1 : 1 ≤ s.stat.nInstr) (a : Word) (dir : Direction) :
    (s.cacheAccess a dir).2.Inv := by
  rcases cacheAccess_cases s a dir with ⟨-, r, e⟩ | ⟨hok, e⟩ <;> rw [e]
  · exact inv_congr h rfl rfl rfl rfl (Nat.le_refl _)
  · exact transact_inv h h1 hok.1 hok.2

/-! ### The end of a memory instruction, and every effect -/

/-- What the end of a memory instruction leaves of the state `a` after its access: it may write register `r`
and count the access, and it moves the pc on (R270 to R272). -/
structure AfterAccess (a t : State) (r : Reg) : Prop where
  cfg : t.cfg = a.cfg
  run : t.run = a.run
  mem : t.mem = a.mem
  cache : t.cache = a.cache
  pc : t.pc = nextPc a.pc
  slot : t.regs[0] = a.regs[0]
  others : ∀ q, q ≠ r → t.reg q = a.reg q
  stat : ∃ n, t.stat = { a.stat with nMemAccess := n }

/-- Writing `r` and advancing, from a state that differs from `a` in the two counters of an access only. -/
theorem afterAccess_of_setReg {a u : State} (r : Reg) (v : Word)
    (h : u = a ∨ u = a.countMemAccess ∨ u = a.drawnWord) :
    AfterAccess a (u.setReg r v).advance r := by
  rcases h with rfl | rfl | rfl <;>
  exact ⟨by simp, by simp, by simp, by simp, by simp, setReg_slot_zero _ r v,
    fun q hq => setReg_reg_other _ v hq, _, (advance_stat _).trans (setReg_stat _ r v)⟩

theorem loadResult_after (rt : Reg) (p : AccessResult × State) :
    AfterAccess p.2 (loadResult rt p) rt := by
  obtain ⟨v | v | kind, a⟩ := p
  · exact afterAccess_of_setReg rt v (.inr (.inl rfl))
  · exact afterAccess_of_setReg rt v (.inr (.inl rfl))
  · exact afterAccess_of_setReg rt a.unspec32 (.inr (.inr rfl))

theorem storeResult_after (p : AccessResult × State) : AfterAccess p.2 (storeResult p) 0#5 := by
  obtain ⟨v | v | kind, a⟩ := p
  · exact afterAccess_of_setReg 0#5 0#32 (.inr (.inl rfl))
  · exact afterAccess_of_setReg 0#5 0#32 (.inr (.inl rfl))
  · exact afterAccess_of_setReg 0#5 0#32 (.inl rfl)

/-- What an effect `e` leaves of `s`. -/
structure Performed (s t : State) (e : Effect) : Prop where
  cfg : t.cfg = s.cfg
  run : t.run = s.run
  pc : t.pc = e.npc s.pc
  slot : t.regs[0] = s.regs[0]
  others : ∀ q, q ≠ e.dest → t.reg q = s.reg q
  stat : ∃ n h m c, t.stat =
    { s.stat.countExec e.cls e.taken with nMemAccess := n, nHit := h, nMiss := m, cycles := c }

/-- A memory instruction is its class counter, one access and its end. -/
theorem AfterAccess.performed {s t : State} {a : Word} {dir : Direction} {e : Effect}
    (h : AfterAccess ((s.dispatched .memory).cacheAccess a dir).2 t e.dest) (hc : e.cls = .memory)
    (ht : e.taken = false) (hp : e.npc s.pc = nextPc s.pc) : Performed s t e := by
  obtain ⟨hcfg, hregs, hpc, hrun, hh, hm, hcy, hstat⟩ := cacheAccess_frame (s.dispatched .memory) a dir
  obtain ⟨n, hn⟩ := h.stat
  refine ⟨h.cfg.trans hcfg, h.run.trans hrun, by rw [h.pc, hpc, hp]; rfl, ?_,
    fun q hq => (h.others q hq).trans (reg_congr hregs q), n, hh, hm, hcy, ?_⟩
  · rw [h.slot, hregs]; rfl
  · rw [hn, hstat, hc, ht, countExec_false]; rfl

theorem perform_performed (s : State) (e : Effect) : Performed s (s.perform e) e := by
  cases e with
  | internal k taken r v npc =>
    exact ⟨setReg_cfg s r v, setReg_run s r v, rfl, setReg_slot_zero s r v,
      fun q hq => setReg_reg_other s v hq, _, _, _, _, rfl⟩
  | load rt ea => exact AfterAccess.performed (loadResult_after rt _) rfl rfl rfl
  | store ea w => exact AfterAccess.performed (storeResult_after _) rfl rfl rfl

/-- Without a data access memory, cache, reports and draws are left alone. -/
theorem perform_internal_rest (s : State) (k : InstrClass) (taken : Bool) (r : Reg) (v npc : Word) :
    let t := s.perform (.internal k taken r v npc)
    SameMemory s t ∧ SameRest s t :=
  ⟨⟨fun _ => by simp [State.perform],
      archMem_congr (setReg_cfg s r v) (setReg_mem s r v) (setReg_cache s r v), setReg_cache s r v⟩,
    ⟨setReg_cfg s r v, setReg_run s r v, setReg_reports s r v, setReg_wordDraws s r v,
      setReg_wayDraws s r v⟩⟩

theorem perform_memWf {s : State} (h : Memory.wf s.mem = true) (e : Effect) :
    Memory.wf (s.perform e).mem = true := by
  cases e with
  | internal k taken r v npc => exact (setReg_mem s r v).symm ▸ h
  | load rt ea =>
    rw [State.perform, (loadResult_after rt _).mem]
    exact cacheAccess_memWf (s := s.dispatched .memory) h ea .read
  | store ea w =>
    rw [State.perform, (storeResult_after _).mem]
    exact cacheAccess_memWf (s := s.dispatched .memory) h ea (.write w)

/-- The end of a memory instruction keeps the invariants its access keeps. -/
theorem AfterAccess.inv {a t : State} {r : Reg} (h : AfterAccess a t r) (ha : a.Inv) : t.Inv := by
  obtain ⟨n, hn⟩ := h.stat
  exact inv_congr ha h.cfg h.mem h.cache h.slot (by rw [hn])

/-- Counting an instruction's class keeps the invariants. -/
theorem dispatched_inv {s : State} (h : s.Inv) (k : InstrClass) : (s.dispatched k).Inv :=
  inv_congr h rfl rfl rfl rfl (by cases k <;> exact Nat.le_refl _)

/-- Every effect keeps the invariants, once an instruction is counted. -/
theorem perform_inv {s : State} (h : s.Inv) (h1 : 1 ≤ s.stat.nInstr) (e : Effect) : (s.perform e).Inv := by
  cases e with
  | internal k taken r v npc =>
    exact inv_congr h (setReg_cfg s r v) (setReg_mem s r v) (setReg_cache s r v) (setReg_slot_zero s r v)
      (by cases k <;> exact Nat.le_refl _)
  | load rt ea =>
    exact (loadResult_after rt _).inv (cacheAccess_inv (dispatched_inv h .memory) h1 ea .read)
  | store ea w =>
    exact (storeResult_after _).inv (cacheAccess_inv (dispatched_inv h .memory) h1 ea (.write w))

end Sys2Proof.Machine

namespace Sys2Proof.Machine

/-! ### The branches of a running step, and what a step keeps -/

section runStep

variable {s : State}

theorem runStep_sentinel (h : s.pc = s.cfg.haltPc) :
    runStep s = .next (s.setRun (.halted .sentinel)) := by
  rw [runStep, State.fetch, if_pos h]

theorem runStep_outOfRange (h : s.pc ≠ s.cfg.haltPc) (h2 : s.PcOutOfRange) :
    runStep s = .next (s.setRun (.halted .pcOutOfRange)) := by
  rw [runStep, State.fetch, if_neg h, if_pos h2]

theorem runStep_misaligned (h : s.pc ≠ s.cfg.haltPc) (h2 : ¬ s.PcOutOfRange) (h3 : s.PcMisaligned) :
    runStep s = .next ((s.report (.alignmentError .fetch s.pc)).setRun .faulted) := by
  rw [runStep, State.fetch, if_neg h, if_neg h2, if_pos h3]

theorem runStep_decoded {i : Instr} (h : s.PcFetchable) (hd : decodeWord s.fetchWord.word = some i) :
    runStep s =
      .next (s.fetchWord.state.perform (effectOf s.fetchWord.state.reg s.fetchWord.state.pc i)) := by
  rw [runStep_word h, hd]
  exact exec_eq_perform i _

theorem runStep_undecoded (h : s.PcFetchable) (hd : decodeWord s.fetchWord.word = none) :
    runStep s = .next (s.fetchWord.state.unsupported s.fetchWord.word) := by
  rw [runStep_word h, hd]

end runStep

theorem runStep_next (s : State) : ∃ t, runStep s = .next t := by
  unfold runStep
  split
  · exact ⟨_, rfl⟩
  · split
    · exact exec_next _ _
    · exact ⟨_, rfl⟩

theorem step_stopped {s : State} (hl : s.cfg.Legal) (hf : s.cacheFits = true) (hr : s.run ≠ .running) :
    step s = .next s := by
  rcases step_cases s with ⟨h, -⟩ | ⟨-, h, -⟩ | ⟨-, -, -, h⟩ | ⟨⟨-, -, h⟩, -⟩
  · exact absurd hl h
  · rw [hf] at h; cases h
  · exact h
  · exact absurd h hr

/-- A step that answers a next state does nothing to a stopped CORE, or runs. -/
theorem step_next_cases {s t : State} (h : step s = .next t) :
    (s.cfg.Legal ∧ s.cacheFits = true ∧ s.run ≠ .running ∧ t = s) ∨ (s.Ready ∧ runStep s = .next t) := by
  rcases step_cases s with ⟨-, e⟩ | ⟨-, -, e⟩ | ⟨hl, hf, hr, e⟩ | ⟨hr, e⟩ <;> rw [e] at h
  · cases h
  · cases h
  · cases h; exact .inl ⟨hl, hf, hr, rfl⟩
  · exact .inr ⟨hr, h⟩

/-- A property `P` is kept by every step when the run state and the records do not matter to it, the fetch
turns it into some `Q`, and every effect and every unsupported word turns `Q` back into `P`. -/
theorem step_keeps {P Q : State → Prop} (hrun : ∀ s r, P s → P (s.setRun r))
    (hreport : ∀ s r, P s → P (s.report r)) (hfetch : ∀ s, P s → s.PcFetchable → Q s.fetchWord.state)
    (hperform : ∀ s e, Q s → P (s.perform e)) (hunsupported : ∀ s ir, Q s → P (s.unsupported ir))
    {s t : State} (hs : P s) (h : step s = .next t) : P t := by
  rcases step_next_cases h with ⟨-, -, -, rfl⟩ | ⟨-, h⟩
  · exact hs
  rcases runStep_cases h with ⟨-, rfl⟩ | ⟨-, -, rfl⟩ | ⟨-, -, -, rfl⟩ | ⟨hpc, h⟩
  · exact hrun _ _ hs
  · exact hrun _ _ hs
  · exact hrun _ _ (hreport _ _ hs)
  rcases h with ⟨i, -, h⟩ | ⟨-, rfl⟩
  · rw [exec_eq_perform] at h
    cases h
    exact hperform _ _ (hfetch s hs hpc)
  · exact hunsupported _ _ (hfetch s hs hpc)

/-- The fetch keeps the invariants and leaves at least one instruction counted. -/
theorem fetchWord_inv {s : State} (h : s.Inv) (hpc : s.PcFetchable) :
    s.fetchWord.state.Inv ∧ 1 ≤ s.fetchWord.state.stat.nInstr := by
  refine ⟨(fetchWord_spec h hpc).2.1, ?_⟩
  rw [State.fetchWord, transact_nInstr]
  exact (countInstr_inv h).2

/-! ### States a program cannot tell apart (R36, R37) -/

namespace SameProgramView

variable {s s' : State}

theorem withStat (h : SameProgramView s s') (x y : Stats) :
    SameProgramView { s with stat := x } { s' with stat := y } :=
  ⟨h.regs, h.pc, h.run, h.reports, h.wordDraws, h.memSize, h.haltPc, h.arch⟩

theorem setPc (h : SameProgramView s s') (v : Word) : SameProgramView (s.setPc v) (s'.setPc v) :=
  ⟨h.regs, rfl, h.run, h.reports, h.wordDraws, h.memSize, h.haltPc, h.arch⟩

theorem advance (h : SameProgramView s s') : SameProgramView s.advance s'.advance := by
  have := h.setPc (nextPc s.pc)
  rw [State.advance, State.advance, ← h.pc]
  exact this

theorem setRun (h : SameProgramView s s') (r : RunState) : SameProgramView (s.setRun r) (s'.setRun r) :=
  ⟨h.regs, h.pc, rfl, h.reports, h.wordDraws, h.memSize, h.haltPc, h.arch⟩

theorem report (h : SameProgramView s s') (r : Report) : SameProgramView (s.report r) (s'.report r) :=
  ⟨h.regs, h.pc, h.run, congrArg (· ++ [r]) h.reports, h.wordDraws, h.memSize, h.haltPc, h.arch⟩

theorem drawnWord (h : SameProgramView s s') : SameProgramView s.drawnWord s'.drawnWord :=
  ⟨h.regs, h.pc, h.run, h.reports, congrArg (· + 1) h.wordDraws, h.memSize, h.haltPc, h.arch⟩

theorem setReg (h : SameProgramView s s') (r : Reg) (v : Word) :
    SameProgramView (s.setReg r v) (s'.setReg r v) := by
  refine ⟨fun q => ?_, ?_, ?_, ?_, ?_, ?_, ?_, fun a => ?_⟩
  · by_cases hq : q = r
    · subst hq; rw [setReg_reg_same, setReg_reg_same]
    · rw [setReg_reg_other _ _ hq, setReg_reg_other _ _ hq, h.regs]
  · simpa using h.pc
  · simpa using h.run
  · simpa using h.reports
  · simpa using h.wordDraws
  · simpa using h.memSize
  · simpa using h.haltPc
  · simpa using h.arch a

/-- The words a load sees are as the bytes. -/
theorem archWord_eq (h : SameProgramView s s') (a : Nat) : s.archWord a = s'.archWord a := by
  simp only [State.archWord, h.arch]

theorem accessOk (h : SameProgramView s s') {a : Word} (ok : AccessOk s.cfg a) : AccessOk s'.cfg a :=
  ⟨ok.1, h.memSize ▸ ok.2⟩

theorem rejectionOf_eq (h : SameProgramView s s') (a : Word) : rejectionOf s.cfg a = rejectionOf s'.cfg a := by
  rw [rejectionOf, rejectionOf, h.memSize]

theorem unspec32_eq (h : SameProgramView s s') : s.unspec32 = s'.unspec32 :=
  congrArg Config.freeWord h.wordDraws

/-- A completed access shows a program the same, whatever it hits or evicts in either CORE. -/
theorem transact (h : SameProgramView s s') (hi : s.Inv) (hi' : s'.Inv) (h1 : 1 ≤ s.stat.nInstr)
    (h1' : 1 ≤ s'.stat.nInstr) {a : Nat} (ha : a % 4 = 0) (hr : a + 4 ≤ s.cfg.memSize) (dir : Direction) :
    SameProgramView (s.transact a dir).state (s'.transact a dir).state := by
  have hr' : a + 4 ≤ s'.cfg.memSize := h.memSize ▸ hr
  obtain ⟨hc, hreg, hpc, hrun, hrep, hw⟩ := transact_frame s a dir
  obtain ⟨hc', hreg', hpc', hrun', hrep', hw'⟩ := transact_frame s' a dir
  refine ⟨fun q => ?_, ?_, ?_, ?_, ?_, ?_, ?_, fun b => ?_⟩
  · rw [reg_congr hreg, reg_congr hreg', h.regs]
  · rw [hpc, hpc', h.pc]
  · rw [hrun, hrun', h.run]
  · rw [hrep, hrep', h.reports]
  · rw [hw, hw', h.wordDraws]
  · rw [hc, hc', h.memSize]
  · rw [hc, hc', h.haltPc]
  by_cases hb : ∀ w, dir = .write w → b < a ∨ a + 4 ≤ b
  · rw [transact_archMem_other hi h1 ha hr hb, transact_archMem_other hi' h1' ha hr' hb, h.arch]
  · simp only [not_forall, not_or, not_lt, not_le] at hb
    obtain ⟨w, rfl, hle, hlt⟩ := hb
    obtain ⟨j, rfl⟩ := Nat.exists_eq_add_of_le hle
    have hj : j < 4 := by omega
    rw [transact_archMem_written hi h1 ha hr hj, transact_archMem_written hi' h1' ha hr' hj]

/-- A `lw` shows a program the same: the same word if completed, the same draw if rejected. -/
theorem load (h : SameProgramView s s') (hi : s.Inv) (hi' : s'.Inv) (h1 : 1 ≤ s.stat.nInstr)
    (h1' : 1 ≤ s'.stat.nInstr) (rt : Reg) (ea : Word) :
    SameProgramView (loadResult rt (s.cacheAccess ea .read)) (loadResult rt (s'.cacheAccess ea .read)) := by
  cases e : rejectionOf s.cfg ea with
  | some kind =>
    rw [cacheAccess_rejected e, cacheAccess_rejected (h.rejectionOf_eq ea ▸ e), loadResult_rejected,
      loadResult_rejected, (h.report _).unspec32_eq]
    exact ((h.report _).drawnWord.setReg rt _).advance
  | none =>
    have ok := rejectionOf_none e
    have ok' := h.accessOk ok
    rw [cacheAccess_ok ok, cacheAccess_ok ok', loadResult_completed, loadResult_completed,
      transact_word_read hi h1 ok.1 ok.2, transact_word_read hi' h1' ok'.1 ok'.2, h.archWord_eq]
    exact (((h.transact hi hi' h1 h1' ok.1 ok.2 .read).withStat _ _).setReg rt _).advance

/-- A `sw` shows a program the same. -/
theorem store (h : SameProgramView s s') (hi : s.Inv) (hi' : s'.Inv) (h1 : 1 ≤ s.stat.nInstr)
    (h1' : 1 ≤ s'.stat.nInstr) (ea w : Word) :
    SameProgramView (storeResult (s.cacheAccess ea (.write w)))
      (storeResult (s'.cacheAccess ea (.write w))) := by
  cases e : rejectionOf s.cfg ea with
  | some kind =>
    rw [cacheAccess_rejected e, cacheAccess_rejected (h.rejectionOf_eq ea ▸ e), storeResult_rejected,
      storeResult_rejected]
    exact (h.report _).advance
  | none =>
    have ok := rejectionOf_none e
    rw [cacheAccess_ok ok, cacheAccess_ok (h.accessOk ok), storeResult_completed, storeResult_completed]
    exact ((h.transact hi hi' h1 h1' ok.1 ok.2 (.write w)).withStat _ _).advance

/-- Every effect shows a program the same. -/
theorem perform (h : SameProgramView s s') (hi : s.Inv) (hi' : s'.Inv) (h1 : 1 ≤ s.stat.nInstr)
    (h1' : 1 ≤ s'.stat.nInstr) (e : Effect) : SameProgramView (s.perform e) (s'.perform e) := by
  cases e with
  | internal k taken r v npc => exact ((h.setReg r v).setPc npc).withStat _ _
  | load rt ea =>
    exact (h.withStat _ _).load (dispatched_inv hi .memory) (dispatched_inv hi' .memory) h1 h1' rt ea
  | store ea w =>
    exact (h.withStat _ _).store (dispatched_inv hi .memory) (dispatched_inv hi' .memory) h1 h1' ea w

theorem effectOf_eq (h : SameProgramView s s') (i : Instr) :
    effectOf s.reg s.pc i = effectOf s'.reg s'.pc i := by
  rw [funext h.regs, h.pc]

theorem atSentinel_iff (h : SameProgramView s s') : s.pc = s.cfg.haltPc ↔ s'.pc = s'.cfg.haltPc := by
  rw [h.pc, h.haltPc]

theorem pcOutOfRange_iff (h : SameProgramView s s') : s.PcOutOfRange ↔ s'.PcOutOfRange := by
  rw [State.PcOutOfRange, h.pc, h.memSize]

theorem pcMisaligned_iff (h : SameProgramView s s') : s.PcMisaligned ↔ s'.PcMisaligned := by
  rw [State.PcMisaligned, h.pc]

theorem pcFetchable (h : SameProgramView s s') (hpc : s.PcFetchable) : s'.PcFetchable := by
  obtain ⟨h1, h2, h3⟩ := hpc
  exact ⟨mt h.atSentinel_iff.2 h1, mt h.pcOutOfRange_iff.2 h2, mt h.pcMisaligned_iff.2 h3⟩

/-- The fetch shows a program the same and delivers the same word. -/
theorem fetchWord (h : SameProgramView s s') (hi : s.Inv) (hi' : s'.Inv) (hpc : s.PcFetchable) :
    s.fetchWord.word = s'.fetchWord.word ∧ SameProgramView s.fetchWord.state s'.fetchWord.state := by
  have hpc' := h.pcFetchable hpc
  constructor
  · rw [(fetchWord_spec hi hpc).1, (fetchWord_spec hi' hpc').1, h.archWord_eq, h.pc]
  · have := (h.withStat s.countInstr.stat s'.countInstr.stat).transact (countInstr_inv hi).1
      (countInstr_inv hi').1 (countInstr_inv hi).2 (countInstr_inv hi').2 (not_not.1 hpc.2.2)
      (not_lt.1 hpc.2.1) .read
    unfold State.fetchWord
    rw [← h.pc]
    exact this

/-- A running step shows a program the same: the same halt check, or the same word fetched and performed. -/
theorem runStep (h : SameProgramView s s') (hi : s.Inv) (hi' : s'.Inv) {t : State}
    (ht : runStep s = .next t) : ∃ t', runStep s' = .next t' ∧ SameProgramView t t' := by
  rcases runStep_cases ht with ⟨h1, rfl⟩ | ⟨h1, h2, rfl⟩ | ⟨h1, h2, h3, rfl⟩ | ⟨hpc, hd⟩
  · exact ⟨_, runStep_sentinel (h.atSentinel_iff.1 h1), h.setRun _⟩
  · exact ⟨_, runStep_outOfRange (mt h.atSentinel_iff.2 h1) (h.pcOutOfRange_iff.1 h2), h.setRun _⟩
  · refine ⟨_, runStep_misaligned (mt h.atSentinel_iff.2 h1) (mt h.pcOutOfRange_iff.2 h2)
      (h.pcMisaligned_iff.1 h3), ?_⟩
    rw [h.pc]
    exact (h.report _).setRun _
  · obtain ⟨hword, hv⟩ := h.fetchWord hi hi' hpc
    have hpc' := h.pcFetchable hpc
    rcases hd with ⟨i, hd, he⟩ | ⟨hd, rfl⟩
    · refine ⟨_, runStep_decoded hpc' (hword ▸ hd), ?_⟩
      rw [exec_eq_perform] at he
      cases he
      obtain ⟨hf, h1⟩ := fetchWord_inv hi hpc
      obtain ⟨hf', h1'⟩ := fetchWord_inv hi' hpc'
      rw [← hv.effectOf_eq]
      exact hv.perform hf hf' h1 h1' _
    · refine ⟨_, runStep_undecoded hpc' (hword ▸ hd), ?_⟩
      rw [State.unsupported, State.unsupported, ← hword, ← hv.pc]
      exact (hv.report _).advance

end SameProgramView

end Sys2Proof.Machine

namespace Sys2Proof.Machine

/-! ### What an effect does not read: the history, and registers that are not its sources -/

/-! #### Another history -/

/-- `s` with another history of reports (R33). -/
def State.withReports (s : State) (old : List Report) : State := { s with reports := old }

section withReports

variable (s : State) (old : List Report)

theorem setReg_withReports (r : Reg) (v : Word) :
    (s.withReports old).setReg r v = (s.setReg r v).withReports old := by
  unfold State.setReg; split <;> rfl

/-- A completed access neither reads nor writes the history. -/
theorem transact_withReports (a : Nat) (dir : Direction) :
    (s.withReports old).transact a dir =
      ⟨(s.transact a dir).hit, (s.transact a dir).word, (s.transact a dir).state.withReports old⟩ := by
  have e : (s.withReports old).lookup a = s.lookup a := rfl
  cases h : s.lookup a with
  | none => rw [transact_miss h, transact_miss (e.trans h)]; rfl
  | some k => rw [transact_hit h, transact_hit (e.trans h)]; rfl

theorem loadResult_withReports (rt : Reg) (r : AccessResult) :
    loadResult rt (r, s.withReports old) = (loadResult rt (r, s)).withReports old := by
  cases r with
  | hit v | miss v => exact congrArg State.advance (setReg_withReports s.countMemAccess old rt v)
  | rejected kind => exact congrArg State.advance (setReg_withReports s.drawnWord old rt s.unspec32)

theorem storeResult_withReports (r : AccessResult) :
    storeResult (r, s.withReports old) = (storeResult (r, s)).withReports old := by
  cases r <;> rfl

end withReports

/-- Running `f` on `s` emits the records `new`, at most one, and reads nothing of the history (R33). -/
def Emits (f : State → State) (s : State) (new : List Report) : Prop :=
  new.length ≤ 1 ∧ ∀ old, f (s.withReports old) = (f s).withReports (old ++ new)

theorem emits_nil {f : State → State} {s : State}
    (h : ∀ old, f (s.withReports old) = (f s).withReports old) : Emits f s [] :=
  ⟨Nat.zero_le 1, fun old => by rw [List.append_nil, h]⟩

/-- An access emits its record if it is rejected, and the same result from any history. -/
theorem cacheAccess_emits (s : State) (a : Word) (dir : Direction) :
    ∃ new, Emits (fun u => (u.cacheAccess a dir).2) s new ∧
      ∀ old, ((s.withReports old).cacheAccess a dir).1 = (s.cacheAccess a dir).1 := by
  cases e : rejectionOf s.cfg a with
  | some kind =>
    have e' : ∀ old, rejectionOf (s.withReports old).cfg a = some kind := fun _ => e
    refine ⟨[rejectionReport kind dir.source a], ⟨Nat.le_refl 1, fun old => ?_⟩, fun old => ?_⟩
    · simp only [cacheAccess_rejected e, cacheAccess_rejected (e' old)]; rfl
    · rw [cacheAccess_rejected e, cacheAccess_rejected (e' old)]
  | none =>
    have ok := rejectionOf_none e
    have ok' : ∀ old, AccessOk (s.withReports old).cfg a := fun _ => ok
    refine ⟨[], emits_nil fun old => ?_, fun old => ?_⟩
    · simp only [cacheAccess_state ok, cacheAccess_state (ok' old), transact_withReports]
    · rw [cacheAccess_ok ok, cacheAccess_ok (ok' old), transact_withReports]

/-- The end of a memory instruction emits nothing of its own. -/
theorem emits_end {s : State} {a : Word} {dir : Direction} {finish : AccessResult × State → State}
    (hf : ∀ r u old, finish (r, u.withReports old) = (finish (r, u)).withReports old) :
    ∃ new, Emits (fun u => finish ((u.dispatched .memory).cacheAccess a dir)) s new := by
  obtain ⟨new, ⟨hlen, hst⟩, hres⟩ := cacheAccess_emits (s.dispatched .memory) a dir
  refine ⟨new, hlen, fun old => ?_⟩
  have e : ((s.dispatched .memory).withReports old).cacheAccess a dir =
      (((s.dispatched .memory).cacheAccess a dir).1,
        ((s.dispatched .memory).cacheAccess a dir).2.withReports (old ++ new)) :=
    Prod.ext (hres old) (hst old)
  exact (congrArg finish e).trans (hf _ _ _)

theorem perform_emits (s : State) (e : Effect) : ∃ new, Emits (State.perform · e) s new := by
  cases e with
  | internal k taken r v npc =>
    refine ⟨[], emits_nil fun old => ?_⟩
    simp only [State.perform, setReg_withReports]
    rfl
  | load rt ea => exact emits_end fun r u old => loadResult_withReports u old rt r
  | store ea w => exact emits_end fun r u old => storeResult_withReports u old r

theorem fetchWord_withReports (s : State) (old : List Report) :
    (s.withReports old).fetchWord =
      ⟨s.fetchWord.hit, s.fetchWord.word, s.fetchWord.state.withReports old⟩ :=
  transact_withReports s.countInstr old s.pc.toNat .read

/-- A running step emits at most one record and reads nothing of the history. -/
theorem runStep_withReports {s t : State} (h : runStep s = .next t) :
    ∃ new : List Report, new.length ≤ 1 ∧
      ∀ old, runStep (s.withReports old) = .next (t.withReports (old ++ new)) := by
  rcases runStep_cases h with ⟨h1, rfl⟩ | ⟨h1, h2, rfl⟩ | ⟨h1, h2, h3, rfl⟩ | ⟨hpc, hd⟩
  · exact ⟨[], Nat.zero_le 1, fun old => by
      rw [runStep_sentinel (s := s.withReports old) h1, List.append_nil]; rfl⟩
  · exact ⟨[], Nat.zero_le 1, fun old => by
      rw [runStep_outOfRange (s := s.withReports old) h1 h2, List.append_nil]; rfl⟩
  · exact ⟨[.alignmentError .fetch s.pc], Nat.le_refl 1, fun old =>
      runStep_misaligned (s := s.withReports old) h1 h2 h3⟩
  have hword : ∀ old, (s.withReports old).fetchWord.word = s.fetchWord.word :=
    fun old => by rw [fetchWord_withReports]
  have hstate : ∀ old, (s.withReports old).fetchWord.state = s.fetchWord.state.withReports old :=
    fun old => by rw [fetchWord_withReports]
  rcases hd with ⟨i, hd, he⟩ | ⟨hd, rfl⟩
  · rw [exec_eq_perform] at he
    cases he
    obtain ⟨new, hlen, hnew⟩ :=
      perform_emits s.fetchWord.state (effectOf s.fetchWord.state.reg s.fetchWord.state.pc i)
    refine ⟨new, hlen, fun old => ?_⟩
    rw [runStep_decoded (s := s.withReports old) hpc ((hword old).symm ▸ hd), hstate]
    exact congrArg Host.Outcome.next (hnew old)
  · refine ⟨[.unsupportedInstruction s.fetchWord.state.pc s.fetchWord.word], Nat.le_refl 1, fun old => ?_⟩
    rw [runStep_undecoded (s := s.withReports old) hpc ((hword old).symm ▸ hd), hstate, hword]
    rfl

/-! #### Another value in a register -/

section setReg

variable (s : State)

theorem setReg_setReg_same (r : Reg) (v w : Word) : (s.setReg r v).setReg r w = s.setReg r w := by
  by_cases h : r = 0#5 <;> simp [State.setReg, h]

theorem setReg_comm {q r : Reg} (h : q ≠ r) (v w : Word) :
    (s.setReg q v).setReg r w = (s.setReg r w).setReg q v := by
  have : q.toNat ≠ r.toNat := fun e => h (BitVec.eq_of_toNat_eq e)
  by_cases hq : q = 0#5 <;> by_cases hr : r = 0#5 <;> simp [State.setReg, hq, hr]
  exact Vector.set_comm _ _ this

/-- A completed access neither reads nor writes a register. -/
theorem transact_setReg (r : Reg) (v : Word) (a : Nat) (dir : Direction) :
    (s.setReg r v).transact a dir =
      ⟨(s.transact a dir).hit, (s.transact a dir).word, (s.transact a dir).state.setReg r v⟩ := by
  by_cases hr : r = 0#5
  · simp only [hr, setReg_zero]
  have e : ∀ u : State, u.setReg r v = { u with regs := u.regs.set r.toNat v r.isLt } :=
    fun u => by rw [State.setReg, if_neg hr]
  have hl : (s.setReg r v).lookup a = s.lookup a := by rw [e]; rfl
  cases h : s.lookup a with
  | none => rw [transact_miss h, transact_miss (hl.trans h), e, e]; rfl
  | some k => rw [transact_hit h, transact_hit (hl.trans h), e, e]; rfl

theorem report_setReg (r : Reg) (v : Word) (x : Report) :
    (s.setReg r v).report x = (s.report x).setReg r v := by
  unfold State.setReg; split <;> rfl

theorem dispatched_setReg (r : Reg) (v : Word) (k : InstrClass) :
    (s.setReg r v).dispatched k = (s.dispatched k).setReg r v := by
  unfold State.setReg; split <;> rfl

theorem advance_setReg (r : Reg) (v : Word) : (s.setReg r v).advance = s.advance.setReg r v := by
  unfold State.setReg; split <;> rfl

theorem countMemAccess_setReg (r : Reg) (v : Word) :
    (s.setReg r v).countMemAccess = s.countMemAccess.setReg r v := by
  unfold State.setReg; split <;> rfl

theorem drawnWord_setReg (r : Reg) (v : Word) : (s.setReg r v).drawnWord = s.drawnWord.setReg r v := by
  unfold State.setReg; split <;> rfl

theorem setReg_withPcStat (r : Reg) (v pc : Word) (st : Stats) :
    { s.setReg r v with pc := pc, stat := st } = State.setReg { s with pc := pc, stat := st } r v := by
  unfold State.setReg; split <;> rfl

theorem unspec32_setReg (r : Reg) (v : Word) : (s.setReg r v).unspec32 = s.unspec32 := by
  rw [State.unspec32, setReg_wordDraws]; rfl

/-- `CacheAccess` neither reads nor writes a register. -/
theorem cacheAccess_setReg (r : Reg) (v : Word) (a : Word) (dir : Direction) :
    (s.setReg r v).cacheAccess a dir =
      ((s.cacheAccess a dir).1, (s.cacheAccess a dir).2.setReg r v) := by
  have hc := setReg_cfg s r v
  cases e : rejectionOf s.cfg a with
  | some kind => rw [cacheAccess_rejected e, cacheAccess_rejected (hc.symm ▸ e), report_setReg]
  | none =>
    have ok := rejectionOf_none e
    rw [cacheAccess_ok ok, cacheAccess_ok (hc.symm ▸ ok), transact_setReg]

/-- The end of a `lw` that writes `rt` is that of a `lw` of register 0, and a write of `rt` (R22). -/
theorem loadResult_eq_setReg (rt : Reg) (p : AccessResult × State) :
    ∃ v, loadResult rt p = (loadResult 0#5 p).setReg rt v := by
  obtain ⟨w | w | kind, u⟩ := p
  · exact ⟨w, by simp only [loadResult, setReg_zero, advance_setReg]⟩
  · exact ⟨w, by simp only [loadResult, setReg_zero, advance_setReg]⟩
  · exact ⟨u.unspec32, by simp only [loadResult, setReg_zero, advance_setReg]⟩

/-- The value a `lw` overwrites does not matter. -/
theorem loadResult_setReg_same (rt : Reg) (v : Word) (x : AccessResult) :
    loadResult rt (x, s.setReg rt v) = loadResult rt (x, s) := by
  cases x <;>
    simp only [loadResult, countMemAccess_setReg, drawnWord_setReg, unspec32_setReg, setReg_setReg_same]

theorem loadResult_setReg_other {r rt : Reg} (h : r ≠ rt) (v : Word) (x : AccessResult) :
    loadResult rt (x, s.setReg r v) = (loadResult rt (x, s)).setReg r v := by
  cases x <;>
    simp only [loadResult, countMemAccess_setReg, drawnWord_setReg, unspec32_setReg, setReg_comm _ h,
      advance_setReg]

theorem storeResult_setReg (r : Reg) (v : Word) (x : AccessResult) :
    storeResult (x, s.setReg r v) = (storeResult (x, s)).setReg r v := by
  cases x <;> simp only [storeResult, countMemAccess_setReg, advance_setReg]

/-- The value an effect overwrites does not matter to it. -/
theorem perform_setReg_dest (e : Effect) (v : Word) : (s.setReg e.dest v).perform e = s.perform e := by
  cases e with
  | internal k taken r w npc => simp only [State.perform, Effect.dest, setReg_setReg_same, setReg_stat]
  | load rt ea =>
    simp only [State.perform, Effect.dest, dispatched_setReg, cacheAccess_setReg, loadResult_setReg_same]
  | store ea w => rw [Effect.dest, setReg_zero]

/-- The value of any other register does not matter to an effect, and is kept. -/
theorem perform_setReg_other {r : Reg} {e : Effect} (h : r ≠ e.dest) (v : Word) :
    (s.setReg r v).perform e = (s.perform e).setReg r v := by
  cases e with
  | internal k taken q w npc =>
    have hq : r ≠ q := h
    simp only [State.perform, setReg_comm s hq, setReg_stat, setReg_withPcStat]
  | load rt ea =>
    have hrt : r ≠ rt := h
    simp only [State.perform, dispatched_setReg, cacheAccess_setReg, loadResult_setReg_other _ hrt]
  | store ea w => simp only [State.perform, dispatched_setReg, cacheAccess_setReg, storeResult_setReg]

end setReg

/-! ### The counters, registers and memory of an instruction (R23, R26) -/

/-- What `countExec` does to the counters of instructions. -/
theorem countExec_counters (t : Stats) (k : InstrClass) (taken : Bool) :
    (t.countExec k taken).nInstr = t.nInstr ∧
    (t.countExec k taken).nRType = t.nRType + (if k = .rType then 1 else 0) ∧
    (t.countExec k taken).nJump = t.nJump + (if k = .jump then 1 else 0) ∧
    (t.countExec k taken).nBranch = t.nBranch + (if k = .branch then 1 else 0) ∧
    (t.countExec k taken).nImmAlu = t.nImmAlu + (if k = .immAlu then 1 else 0) ∧
    (t.countExec k taken).nMemory = t.nMemory + (if k = .memory then 1 else 0) := by
  cases k <;> exact ⟨rfl, rfl, rfl, rfl, rfl, rfl⟩

/-- `countExec` moves no counter of accesses. -/
theorem countExec_accesses (t : Stats) (k : InstrClass) (taken : Bool) :
    (t.countExec k taken).nHit = t.nHit ∧ (t.countExec k taken).nMiss = t.nMiss ∧
    (t.countExec k taken).cycles = t.cycles ∧ (t.countExec k taken).nMemAccess = t.nMemAccess := by
  cases k <;> exact ⟨rfl, rfl, rfl, rfl⟩

/-- An effect of another class than memory has no data access. -/
theorem Effect.internal_of_cls {e : Effect} (h : e.cls ≠ .memory) :
    ∃ k taken r v npc, e = .internal k taken r v npc := by
  cases e with
  | internal k taken r v npc => exact ⟨k, taken, r, v, npc, rfl⟩
  | load | store => exact absurd rfl h

/-- A register an instruction has not as its destination is not written by its effect, or is register 0. -/
theorem ne_effectOf_dest {i : Instr} {q : Reg} (h : destReg i ≠ some q) (x : Reg → Word) (pc : Word) :
    q ≠ (effectOf x pc i).dest ∨ q = 0#5 := by
  rw [effectOf_dest]
  cases hd : destReg i with
  | none => exact (em (q = 0#5)).symm
  | some d => exact .inl fun e => h (by rw [hd, e]; rfl)

/-! ### The state after reset (R39) -/

section reset

variable (c : Config)

theorem resetWith_setAt {i : Nat} (hi : i < c.setCount) :
    (State.resetWith c).setAt i = CacheSet.reset c := by
  simp [State.setAt, State.resetWith, List.getD, hi]

theorem resetWith_lineAt {i k : Nat} (hi : i < c.setCount) (hk : k < c.ways) :
    (State.resetWith c).lineAt i k = Line.reset c.lineSize := by
  rw [State.lineAt, resetWith_setAt c hi]
  simp [CacheSet.line, CacheSet.reset, List.getD, hk]

theorem resetWith_fits (hw : 0 < c.ways) : (State.resetWith c).Fits := by
  refine ⟨by simp [State.resetWith], fun i hi => ?_, fun i hi => ?_, fun i k hi hk => ?_⟩
  · rw [resetWith_setAt c hi]; simp [CacheSet.reset, State.resetWith]
  · rw [resetWith_setAt c hi]; exact hw
  · rw [resetWith_lineAt c hi hk]; simp [Line.reset, State.resetWith]

/-- Every byte of a reset line is 0. -/
theorem byteAt_reset (n j : Nat) : (Line.reset n).byteAt j = 0#8 := by
  by_cases h : j < n <;> simp [Line.byteAt, Line.reset, List.getD, h]

theorem resetWith_reg {r : Reg} (h : r ≠ 0#5) :
    (State.resetWith c).reg r = c.resetReg.toList.getD (r.toNat - 1) 0#32 := by
  have h0 : r.toNat ≠ 0 := fun e => h (BitVec.eq_of_toNat_eq e)
  obtain ⟨n, hn⟩ := Nat.exists_eq_succ_of_ne_zero h0
  have hlt := r.isLt
  have : n < 31 := by omega
  simp [State.reg, h, State.resetWith, resetRegs, hn, List.getD, this]

/-- No line of a cache just reset is valid or dirty, so every invariant of lines holds of it (R30). -/
theorem resetWith_inv (hl : c.Legal) : (State.resetWith c).Inv := by
  have invalid : ∀ i k, i < c.setCount → k < c.ways → ((State.resetWith c).lineAt i k).valid ≠ true :=
    fun i k hi hk hv => by rw [resetWith_lineAt c hi hk] at hv; cases hv
  refine ⟨hl, (cacheFits_iff _).2 (resetWith_fits c (legal_ways_pos hl)), rfl, fun _ _ => rfl, rfl,
    ?_, ?_, ?_, ?_, ?_⟩
  · exact fun i k _ hi hk _ hv => absurd hv (invalid i k hi hk)
  · intro i k hi hk hd
    rw [resetWith_lineAt c hi hk] at hd
    cases hd
  · exact fun i k hi hk hv => absurd hv (invalid i k hi hk)
  · exact fun i k _ hi hk _ hv => absurd hv (invalid i k hi hk)
  · exact fun i k hi hk hv => absurd hv (invalid i k hi hk)

end reset

end Sys2Proof.Machine

namespace Sys2Proof.Machine

/-! ### The obligations -/

/-- Settles O49: a running step goes through the same checks and performs the same effect in both COREs
(`SameProgramView.runStep`). -/
theorem cacheIsTransparent : Obligations.CacheIsTransparent := by
  intro s s' hi hi' h
  by_cases hr : s.run = .running
  · obtain ⟨t, ht⟩ := runStep_next s
    obtain ⟨t', ht', hv⟩ := h.runStep hi hi' ht
    exact ⟨t, t', (step_ready ⟨hi.legal, hi.fits, hr⟩).trans ht,
      (step_ready ⟨hi'.legal, hi'.fits, h.run ▸ hr⟩).trans ht', hv⟩
  · exact ⟨s, s', step_stopped hi.legal hi.fits hr, step_stopped hi'.legal hi'.fits (h.run ▸ hr), h⟩

/-- Settles O50: the fetch and every effect keep memory canonical. -/
theorem stepKeepsMemoryCanonical : Obligations.StepKeepsMemoryCanonical := by
  intro s t hs h
  exact step_keeps (P := fun s => Memory.wf s.mem = true) (Q := fun s => Memory.wf s.mem = true)
    (fun _ _ h => h) (fun _ _ h => h) (fun s h _ => transact_memWf (s := s.countInstr) h _ _)
    (fun _ e h => perform_memWf h e)
    (fun _ _ h => h) hs h

/-- Settles O51: the fetch keeps the invariants and counts an instruction, and every effect after it keeps
them. -/
theorem stepKeepsInvariants : Obligations.StepKeepsInvariants := by
  intro s t hs h
  exact step_keeps (P := State.Inv) (Q := fun s => s.Inv ∧ 1 ≤ s.stat.nInstr)
    (fun _ _ h => inv_congr h rfl rfl rfl rfl (Nat.le_refl _))
    (fun _ _ h => inv_congr h rfl rfl rfl rfl (Nat.le_refl _)) (fun _ h hpc => fetchWord_inv h hpc)
    (fun _ e h => perform_inv h.1 h.2 e)
    (fun _ _ h => inv_congr h.1 rfl rfl rfl rfl (Nat.le_refl _)) hs h

/-- Settles O21: the effect of an instruction has the instruction's class and destination, and what an effect
leaves is `perform_performed`. -/
theorem noSideEffects : Obligations.NoSideEffects := by
  intro i s
  have h := perform_performed s (effectOf s.reg s.pc i)
  obtain ⟨n, hh, m, c, hstat⟩ := h.stat
  rw [effectOf_cls] at hstat
  obtain ⟨h1, h2, h3, h4, h5, h6⟩ := countExec_counters s.stat i.cls (effectOf s.reg s.pc i).taken
  refine ⟨_, exec_eq_perform i s, h.cfg, h.run, fun q hq => ?_, fun hk => ?_, ?_, ?_, ?_, ?_, ?_, ?_,
    fun hk => ?_⟩
  · rcases ne_effectOf_dest hq s.reg s.pc with hne | rfl
    · exact h.others q hne
    · rw [reg_zero, reg_zero]
  · rw [← effectOf_cls s.reg s.pc] at hk
    obtain ⟨k, taken, r, v, npc, e⟩ := Effect.internal_of_cls hk
    obtain ⟨hmem, hrest⟩ := perform_internal_rest s k taken r v npc
    rw [e]
    exact ⟨hmem, hrest, countExec_accesses s.stat k taken⟩
  · rw [hstat]; exact h1
  · rw [hstat]; exact h2
  · rw [hstat]; exact h3
  · rw [hstat]; exact h4
  · rw [hstat]; exact h5
  · rw [hstat]; exact h6
  · rw [hstat, effectOf_taken s.reg s.pc i hk]; rfl

/-- Settles O22: the laws of `setReg`, the frame of every effect, and `loadResult_eq_setReg`. -/
theorem registerZeroIsImmutable : Obligations.RegisterZeroIsImmutable := by
  refine ⟨setReg_zero, fun s r v hr => ⟨?_, fun q hq => setReg_reg_other s v hq⟩, fun i s => ?_,
    fun rt rs imm s => ?_⟩
  · rw [setReg_reg_same, if_neg hr]
  · have h := perform_performed s (effectOf s.reg s.pc i)
    exact ⟨_, exec_eq_perform i s, reg_zero _, h.slot, _, h.others⟩
  · obtain ⟨v, hv⟩ := loadResult_eq_setReg rt
      ((s.dispatched .memory).cacheAccess (effectiveAddress (s.reg rs) imm) .read)
    exact ⟨_, v, rfl, congrArg Host.Outcome.next hv⟩

/-- Settles O23: the effect depends on the sources only, and performing it neither reads nor loses another
register. -/
theorem unreadRegistersDoNotMatter : Obligations.UnreadRegistersDoNotMatter := by
  intro i s r v hr
  refine ⟨_, exec_eq_perform i s, ?_⟩
  have he : effectOf (s.setReg r v).reg (s.setReg r v).pc i = effectOf s.reg s.pc i := by
    rw [setReg_pc]
    exact effectOf_congr _ _ i fun q hq => setReg_reg_other s v fun e => hr (e ▸ hq)
  rw [exec_eq_perform, he]
  split
  next hd =>
    have : r = (effectOf s.reg s.pc i).dest := by rw [effectOf_dest, hd]; rfl
    rw [this, perform_setReg_dest]
  next hd =>
    rcases ne_effectOf_dest hd s.reg s.pc with hne | rfl
    · rw [perform_setReg_other s hne]
    · rw [setReg_zero, setReg_zero]

/-- Settles O24: every target but that of `jr` is aligned when the pc is. -/
theorem onlyJrMisalignsThePc : Obligations.OnlyJrMisalignsThePc := by
  intro i s hj ha
  refine ⟨_, exec_eq_perform i s, ?_⟩
  rw [(perform_performed s _).pc]
  exact effectOf_npc_aligned s.reg i hj ha

/-- Settles O33: a running step emits at most one record and reads nothing of the history; the history it
started from is one of them. -/
theorem reportsAreAnOutputHistory : Obligations.ReportsAreAnOutputHistory := by
  refine ⟨fun _ => rfl, fun s t h => ?_⟩
  rcases step_next_cases h with ⟨hl, hf, hr, rfl⟩ | ⟨hready, hrun⟩
  · refine ⟨[], (List.append_nil _).symm, Nat.zero_le 1, fun old => ?_⟩
    rw [List.append_nil]
    exact step_stopped (s := t.withReports old) hl hf hr
  · obtain ⟨new, hlen, hnew⟩ := runStep_withReports hrun
    refine ⟨new, ?_, hlen, fun old => (step_ready (s := s.withReports old) hready).trans (hnew old)⟩
    have hself : runStep s = .next (t.withReports (s.reports ++ new)) := hnew s.reports
    rw [hrun] at hself
    injection hself with hself
    exact congrArg State.reports hself

/-- Settles O47: an access is rejected, or completes and shows a load the bytes it wrote and no other
change. -/
theorem accessKeepsArchitecturalMemory : Obligations.AccessKeepsArchitecturalMemory := by
  intro s a dir h h1
  refine ⟨(s.cacheAccess a dir).1, (s.cacheAccess a dir).2, rfl, cacheAccess_inv h h1 a dir, ?_,
    fun b => ?_⟩
  · rintro ok rfl
    rw [cacheAccess_ok ok, transact_word_read h h1 ok.1 ok.2]
    cases (s.transact a.toNat .read).hit
    · exact .inr rfl
    · exact .inl rfl
  rcases cacheAccess_cases s a dir with ⟨hno, r, e⟩ | ⟨ok, e⟩ <;> rw [e]
  · cases dir with
    | read => rfl
    | write w => exact (if_neg fun hb => hno hb.1).symm
  cases dir with
  | read => exact transact_archMem_other h h1 ok.1 ok.2 (by simp)
  | write w =>
    by_cases hb : a.toNat ≤ b ∧ b < a.toNat + 4
    · obtain ⟨j, rfl⟩ := Nat.exists_eq_add_of_le hb.1
      refine ((transact_archMem_written h h1 ok.1 ok.2 (by omega)).trans ?_).trans (if_pos ⟨ok, hb⟩).symm
      rw [Nat.add_sub_cancel_left]
    · refine (transact_archMem_other h h1 ok.1 ok.2 fun _ _ => by omega).trans ?_
      exact (if_neg fun hb' => hb hb'.2).symm

/-- Settles O30: a granted step of a stopped CORE is the third of the four cases of a grant. -/
theorem stoppedCoreDoesNothing : Obligations.StoppedCoreDoesNothing :=
  fun _ hl hf hr => step_stopped hl hf hr

/-- Settles O53: the reset values, field by field. -/
theorem resetValues : Obligations.ResetValues := by
  intro c
  refine ⟨rfl, reg_zero _, fun r hr => resetWith_reg c hr, rfl, fun _ => rfl, by simp [State.resetWith],
    fun i hi => ⟨?_, ?_, fun k hk => ?_⟩, rfl, rfl, rfl⟩
  · rw [resetWith_setAt c hi]; rfl
  · rw [resetWith_setAt c hi]; exact List.length_replicate
  · rw [resetWith_lineAt c hi hk]
    exact ⟨rfl, rfl, rfl, rfl, rfl, List.length_replicate, byteAt_reset _⟩

/-- Settles O54: `resetWith_inv`; every counter is 0 and there are no records. -/
theorem resetMeetsInvariants : Obligations.ResetMeetsInvariants :=
  ⟨resetWith_inv, fun c => ⟨rfl, rfl, by simp [State.resetWith, Stats.reset], Nat.le_refl _, rfl⟩,
    by decide, rfl⟩

end Sys2Proof.Machine

namespace Sys2Proof.Machine

/-! ### The host's side: the configuration of a run, and the image it starts from -/

/-- The fetch reads through the cache and keeps the configuration (R51). -/
theorem fetchWord_cfg (s : State) : s.fetchWord.state.cfg = s.cfg :=
  (transact_frame s.countInstr s.pc.toNat .read).1

/-- Settles O32: the fetch and every effect keep the configuration. -/
theorem configurationIsConstant : Obligations.ConfigurationIsConstant := by
  intro s t h
  exact step_keeps (P := fun u => u.cfg = s.cfg) (Q := fun u => u.cfg = s.cfg)
    (fun _ _ hu => hu) (fun _ _ hu => hu) (fun u hu _ => (fetchWord_cfg u).trans hu)
    (fun u e hu => (perform_performed u e).cfg.trans hu) (fun _ _ hu => hu) rfl h

/-- Bytes written from address 0 into an all-zero memory stand at their index, with 0 beyond them. -/
theorem Memory.read_writeBytes_nil (bs : List Byte) (a : Nat) :
    Memory.read (Memory.writeBytes [] 0 bs) a = bs.getD a 0#8 := by
  by_cases h : a < bs.length
  · have := Memory.read_writeBytes_same (m := []) rfl (a := 0) h
    rwa [Nat.zero_add] at this
  · rw [Memory.read_writeBytes_other (by omega), List.getD_eq_default _ _ (by omega)]
    rfl

section boot

variable {c : Config} {image : List Byte}

theorem boot_illegal (h : ¬ c.Legal) : boot c image = .error .illegalConfig := by
  rw [boot, if_pos h]

theorem boot_tooLong (hl : c.Legal) (h : image.length > c.memSize) :
    boot c image = .error .imageTooLong := by
  rw [boot, if_neg (not_not_intro hl), if_pos h]

theorem boot_ok (hl : c.Legal) (h : image.length ≤ c.memSize) :
    boot c image = .ok ((State.resetWith c).loadImage image) := by
  rw [boot, if_neg (not_not_intro hl), if_neg (Nat.not_lt.2 h)]

/-- After the load every line is still the one reset left (R52). -/
theorem loadImage_lineAt {i k : Nat} (hi : i < c.setCount) (hk : k < c.ways) :
    ((State.resetWith c).loadImage image).lineAt i k = Line.reset c.lineSize :=
  resetWith_lineAt c hi hk

/-- Byte `a` of the image stands at address `a` of main memory, and 0 beyond it (R52). -/
theorem loadImage_read (a : Nat) :
    Memory.read ((State.resetWith c).loadImage image).mem a = image.getD a 0#8 :=
  Memory.read_writeBytes_nil image a

/-- A loaded image bypasses the cache: no address is resident (R52). -/
theorem loadImage_lookup (hl : c.Legal) (a : Nat) :
    ((State.resetWith c).loadImage image).lookup a = none := by
  have hf : ((State.resetWith c).loadImage image).Fits :=
    (cacheFits_iff _).1 (resetWith_inv c hl).fits
  refine lookup_eq_none hf hl fun k hk => ?_
  have hline : ((State.resetWith c).loadImage image).lineOf a k = Line.reset c.lineSize :=
    loadImage_lineAt (setIndexOf_lt hl a) hk
  rw [hline]
  rfl

/-- Loading an image changes memory only, and no line is valid, so of the invariants only those of memory
itself are at stake (R30, R52). -/
theorem loadImage_inv (hl : c.Legal) (h : image.length ≤ c.memSize) :
    ((State.resetWith c).loadImage image).Inv := by
  obtain ⟨legal, fits, memWf, -, regZero, unique, dirty, resident, -, stamps⟩ := resetWith_inv c hl
  refine ⟨legal, fits, Memory.wf_writeBytes 0 image memWf, fun a ha => ?_, regZero, unique, dirty,
    resident, fun i k _ hi hk _ hv => ?_, stamps⟩
  · rw [loadImage_read]
    exact List.getD_eq_default _ _ (h.trans ha)
  · have hline : ((State.resetWith c).loadImage image).lineAt i k = Line.reset c.lineSize :=
      loadImage_lineAt hi hk
    rw [hline] at hv
    cases hv

end boot

/-- Settles O55: `boot` answers by its two checks; a load misses every line of a fresh cache and so sees what
the host sees, memory, which holds the image. -/
theorem bootLoadsTheImage : Obligations.BootLoadsTheImage := by
  refine fun c image => ⟨boot_illegal, boot_tooLong, fun hl h =>
    ⟨_, boot_ok hl h, loadImage_inv hl h, fun a => ?_, fun a => ?_, rfl⟩⟩
  · rw [archMem_absent (loadImage_lookup hl a), loadImage_read]
  · rw [State.hostRead, loadImage_read]
    rfl

end Sys2Proof.Machine

namespace Sys2Proof.Machine

/-! ### Byte order as numbers (R71) -/

/-- Putting bits below a number multiplies it by their range and adds them. -/
theorem toNat_append_eq {m n : Nat} (x : BitVec m) (y : BitVec n) :
    (x ++ y).toNat = x.toNat * 2 ^ n + y.toNat := by
  rw [BitVec.toNat_append, ← Nat.shiftLeft_add_eq_or_of_lt y.isLt, Nat.shiftLeft_eq]

/-- `BE32` as a number in base 256, the byte at the lowest address first (R71). -/
theorem be32_toNat (b0 b1 b2 b3 : Byte) : (be32 b0 b1 b2 b3).toNat =
    b0.toNat * 2 ^ 24 + b1.toNat * 2 ^ 16 + b2.toNat * 2 ^ 8 + b3.toNat := by
  simp only [be32, toNat_append_eq]
  omega

/-- Settles O5: `be32_toNat`, `be32_beBytes`, and each byte of a word as a base-256 digit. -/
theorem bigEndianPacking : Obligations.BigEndianPacking := by
  refine ⟨be32_toNat, fun w => ⟨_, _, _, _, rfl, be32_beBytes w, ?_, ?_, ?_, ?_⟩⟩
  · rw [BitVec.extractLsb'_toNat, Nat.shiftRight_eq_div_pow]
    have := w.isLt
    omega
  · rw [BitVec.extractLsb'_toNat, Nat.shiftRight_eq_div_pow]
  · rw [BitVec.extractLsb'_toNat, Nat.shiftRight_eq_div_pow]
  · rw [BitVec.extractLsb'_toNat, Nat.shiftRight_zero]

/-! ### Rejected accesses (R73 to R75) -/

/-- An access in range completes: its result is a hit or a miss (R73, R74). -/
theorem cacheAccess_not_rejected {s : State} {a : Word} (h : AccessOk s.cfg a) (dir : Direction)
    (kind : Rejection) : (s.cacheAccess a dir).1 ≠ .rejected kind := by
  rw [cacheAccess_ok h]
  cases (s.transact a.toNat dir).hit
  · exact nofun
  · exact nofun

/-- A legal memory is a whole number of words: lines are, and memory is a whole number of lines (R7). -/
theorem legal_memSize_aligned {c : Config} (h : c.Legal) : c.memSize % 4 = 0 := by
  obtain ⟨⟨-, hline⟩, -, -, -, -, hmem⟩ := h
  exact Nat.mod_eq_zero_of_dvd
    ((Nat.dvd_of_mod_eq_zero hline).trans (Nat.dvd_of_mod_eq_zero hmem))

/-- Settles O37: the two rejections of `rejectionOf` in their order, and the multiples of 4 below a multiple
of 4. -/
theorem rejectedAccessChangesNothing : Obligations.RejectedAccessChangesNothing := by
  refine fun s a dir => ⟨fun ha => cacheAccess_rejected (rejectionOf_misaligned ha),
    fun ha hr => cacheAccess_rejected (rejectionOf_outside ha hr),
    fun ok => cacheAccess_not_rejected ok dir, fun hl ha => ?_⟩
  have := legal_memSize_aligned hl
  omega

/-! ### A store and the fetch that reads it (R83) -/

/-- After a completed write a load sees the word written (R104, R110). -/
theorem transact_archWord_written {s : State} (h : s.Inv) (h1 : 1 ≤ s.stat.nInstr) {a : Nat}
    (ha : a % 4 = 0) (hr : a + 4 ≤ s.cfg.memSize) (w : Word) :
    (s.transact a (.write w)).state.archWord a = w := by
  have hbyte : ∀ j, j < 4 → (s.transact a (.write w)).state.archMem (a + j) = (beBytes w).getD j 0#8 :=
    fun j hj => transact_archMem_written h h1 ha hr hj
  have hfirst := hbyte 0 (by decide)
  rw [Nat.add_zero] at hfirst
  rw [State.archWord, hfirst, hbyte 1 (by decide), hbyte 2 (by decide), hbyte 3 (by decide), be32_beBytes]

/-- The state a completed `sw` of `w` to `ea` leaves (R272). -/
def State.stored (s : State) (ea w : Word) : State :=
  ((s.dispatched .memory).transact ea.toNat (.write w)).state.countMemAccess.advance

/-- A `sw` whose address is in range completes (R272). -/
theorem exec_sw_completed {rt rs : Reg} {imm : Imm16} {s : State}
    (ok : AccessOk s.cfg (effectiveAddress (s.reg rs) imm)) :
    exec (.sw rt rs imm) s = .next (s.stored (effectiveAddress (s.reg rs) imm) (s.reg rt)) := by
  rw [exec_eq_perform, effectOf, State.perform, cacheAccess_ok (s := s.dispatched .memory) ok,
    storeResult_completed]
  rfl

section stored

variable {s : State} {ea : Word} (w : Word)

theorem stored_cfg : (s.stored ea w).cfg = s.cfg := (transact_frame (s.dispatched .memory) _ _).1

theorem stored_run : (s.stored ea w).run = s.run := by
  obtain ⟨-, -, -, hrun, -⟩ := transact_frame (s.dispatched .memory) ea.toNat (.write w)
  exact hrun

/-- A completed `sw` keeps the invariants. -/
theorem stored_inv (h : s.Inv) (h1 : 1 ≤ s.stat.nInstr) (ok : AccessOk s.cfg ea) : (s.stored ea w).Inv :=
  inv_congr (transact_inv (dispatched_inv h .memory) h1 ok.1 ok.2) rfl rfl rfl rfl (Nat.le_refl _)

/-- After a completed `sw` a load sees the word stored. -/
theorem stored_archWord (h : s.Inv) (h1 : 1 ≤ s.stat.nInstr) (ok : AccessOk s.cfg ea) :
    (s.stored ea w).archWord ea.toNat = w :=
  transact_archWord_written (dispatched_inv h .memory) h1 ok.1 ok.2 w

end stored

/-- A granted step runs the instruction a load would see at the pc, with the registers, the pc and every byte a
load sees as they were before the fetch (R185 to R188). -/
theorem step_runs_archWord {s : State} (h : s.Inv) (hrun : s.run = .running) (hpc : s.PcFetchable)
    {i : Instr} (hd : decodeWord (s.archWord s.pc.toNat) = some i) :
    ∃ f, step s = exec i f ∧ f.pc = s.pc ∧ f.regs = s.regs ∧ SameArch s f := by
  obtain ⟨hword, -, harch, -⟩ := fetchWord_spec h hpc
  obtain ⟨-, hregs, hpc', -⟩ := transact_frame s.countInstr s.pc.toNat .read
  refine ⟨s.fetchWord.state, ?_, hpc', hregs, harch⟩
  rw [step_ready ⟨h.legal, h.fits, hrun⟩, runStep_word hpc, hword, hd]

/-- Settles O48: the word a load sees at the address is the word stored (`stored_archWord`), and the next step
runs the word a load sees at its pc (`step_runs_archWord`). -/
theorem storeIsSeenByTheNextFetch : Obligations.StoreIsSeenByTheNextFetch := by
  intro rt rs imm s i ea h h1 hready ok
  have hea : effectiveAddress (s.reg rs) imm = ea := effectiveAddress_eq _ _
  have hword := stored_archWord (s.reg rt) h h1 ok
  refine ⟨s.stored ea (s.reg rt), hea ▸ exec_sw_completed (hea ▸ ok), hword, fun hpc hhalt hd => ?_⟩
  have ok' : AccessOk (s.stored ea (s.reg rt)).cfg (s.stored ea (s.reg rt)).pc := by
    rw [stored_cfg, hpc]
    exact ok
  obtain ⟨f, hstep, hfpc, hfregs, harch⟩ := step_runs_archWord (stored_inv (s.reg rt) h h1 ok)
    ((stored_run _).trans hready.2.2) ⟨hhalt, Nat.not_lt.2 ok'.2, not_not_intro ok'.1⟩ (i := i)
    (by rw [hpc, hword, hd])
  exact ⟨f, hstep, hfpc.trans hpc, hfregs, harch⟩

end Sys2Proof.Machine

namespace Sys2Proof.Machine

/-! ### Replacement policies (R113 to R118) -/

/-- Settles O43: `chooseVictim_spec`, and the two policies that leave the set as it is. -/
theorem victimIsAWayOfTheSet : Obligations.VictimIsAWayOfTheSet := by
  intro c n S hw hl hf
  obtain ⟨hway, -, hfifo, hsame⟩ := chooseVictim_spec n hw hl hf
  refine ⟨hway, hfifo, fun k => ?_, ?_⟩
  · obtain ⟨hdata, htag, hvalid, hdirty, hlru⟩ := hsame k
    exact ⟨hdata, htag, hvalid, hdirty, hlru⟩
  · rintro (hr | hr) <;> rw [chooseVictim, hr]

section fifo

variable {c : Config} (d : Nat) {S : CacheSet}

/-- The choice of `FIFO` (R116). -/
theorem chooseVictim_fifo (hr : c.repl = .fifo) (S : CacheSet) :
    chooseVictim c d S = ⟨S.fifo, { S with fifo := (S.fifo + 1) % c.ways }, d⟩ := by
  rw [chooseVictim, hr]

/-- From cursor 0 the cursor stands at `n` modulo the ways after `n` choices (R116). -/
theorem iterate_chooseVictim_fifo (hr : c.repl = .fifo) (h0 : S.fifo = 0) (n : Nat) :
    ((fun T => (chooseVictim c d T).set)^[n] S).fifo = n % c.ways := by
  induction n with
  | zero => rw [Function.iterate_zero_apply, h0, Nat.zero_mod]
  | succ n ih =>
    rw [Function.iterate_succ_apply', chooseVictim_fifo d hr]
    show (_ + 1) % c.ways = _
    rw [ih, Nat.mod_add_mod]

end fifo

/-- The victim of `LRU` is the way chosen from the lines alone (R117). -/
theorem chooseVictim_lru {c : Config} (hr : c.repl = .lru) (d : Nat) (S : CacheSet) :
    chooseVictim c d S = ⟨lruVictim S.lines, S, d⟩ := by
  rw [chooseVictim, hr]

/-- No line of the set is older than the victim of `LRU` (R117). -/
theorem lruVictim_le {ls : List Line} (D : Line) {M : Line} (hM : M ∈ ls) :
    (ls.getD (lruVictim ls) D).lru ≤ M.lru := by
  induction ls generalizing M with
  | nil => cases hM
  | cons L rest ih =>
    rw [lruVictim]
    split
    next hall =>
      have hleast : ∀ N ∈ rest, L.lru ≤ N.lru := by simpa using hall
      rcases List.mem_cons.1 hM with rfl | hM
      · exact Nat.le_refl _
      · exact hleast M hM
    next hall =>
      obtain ⟨N, hN, hlt⟩ : ∃ N ∈ rest, N.lru < L.lru := by simpa using hall
      rw [List.getD_cons_succ]
      rcases List.mem_cons.1 hM with rfl | hM
      · exact (ih hN).trans hlt.le
      · exact ih hM

/-- Every way below the victim of `LRU` has a larger stamp: among equals the lowest way is taken (R117). -/
theorem lt_of_lt_lruVictim {ls : List Line} (D : Line) {j : Nat} (hj : j < lruVictim ls) :
    (ls.getD (lruVictim ls) D).lru < (ls.getD j D).lru := by
  induction ls generalizing j with
  | nil => cases hj
  | cons L rest ih =>
    rw [lruVictim] at hj ⊢
    split at hj
    next => cases hj
    next hall =>
      rw [if_neg hall, List.getD_cons_succ]
      cases j with
      | zero =>
        obtain ⟨N, hN, hlt⟩ : ∃ N ∈ rest, N.lru < L.lru := by simpa using hall
        exact (lruVictim_le D hN).trans_lt hlt
      | succ j => exact ih (Nat.lt_of_succ_lt_succ hj)

/-- The choice of `LRU` depends on the stamps alone (R117). -/
theorem lruVictim_congr {ls ms : List Line} (h : ms.map (·.lru) = ls.map (·.lru)) :
    lruVictim ms = lruVictim ls := by
  induction ls generalizing ms with
  | nil => rw [List.map_eq_nil_iff.1 h]
  | cons L rest ih =>
    obtain ⟨M, rest', rfl, hM, hrest⟩ := List.map_eq_cons_iff.1 h
    have hall : ∀ ns : List Line, ns.all (fun N => decide (L.lru ≤ N.lru)) =
        (ns.map (·.lru)).all (fun x => decide (L.lru ≤ x)) := fun ns => by rw [List.all_map]; rfl
    rw [lruVictim, lruVictim, hM, ih hrest, hall, hall, hrest]

/-- Settles O45: `lruVictim_le`, `lt_of_lt_lruVictim` and `lruVictim_congr`. -/
theorem lruTakesTheOldest : Obligations.LruTakesTheOldest := by
  intro c d S hr hw hl
  simp only [chooseVictim_lru hr]
  have hne : S.lines ≠ [] := List.ne_nil_of_length_pos (hl ▸ hw)
  refine ⟨hl ▸ lruVictim_lt hne, fun j hj => ?_, fun j hj => lt_of_lt_lruVictim _ hj, trivial,
    fun T hT => lruVictim_congr hT⟩
  exact (forall_mem_iff_getD S.lines _).1 (fun M hM => lruVictim_le _ hM) j (hl ▸ hj)

section clock

variable {ls : List Line} {D : Line} {j k : Nat}

/-- The choice of `Clock` (R118). -/
theorem chooseVictim_clock {c : Config} (hr : c.repl = .clock) (d : Nat) (S : CacheSet) :
    chooseVictim c d S = ⟨(clockHit S.lines).getD 0, { S with lines := clockSweep S.lines }, d⟩ := by
  rw [chooseVictim, hr]

/-- The scan of `Clock` stops at the first way with an unset flag (R118). -/
theorem clockHit_eq_some (hk : k < ls.length) (hunset : (ls.getD k D).sc = false)
    (hset : ∀ j, j < k → (ls.getD j D).sc = true) : clockHit ls = some k := by
  induction ls generalizing k with
  | nil => cases hk
  | cons L rest ih =>
    rw [clockHit]
    cases k with
    | zero =>
      have hL : L.sc = false := hunset
      rw [hL]; rfl
    | succ k =>
      have hL : L.sc = true := hset 0 k.succ_pos
      rw [if_pos hL, ih (Nat.lt_of_succ_lt_succ hk) hunset fun j hj => hset (j + 1) (Nat.succ_lt_succ hj)]
      rfl

/-- The scan of `Clock` finds no way when every flag is set (R118). -/
theorem clockHit_eq_none (hset : ∀ L ∈ ls, L.sc = true) : clockHit ls = none := by
  induction ls with
  | nil => rfl
  | cons L rest ih =>
    rw [clockHit, if_pos (hset L List.mem_cons_self), ih fun M hM => hset M (List.mem_cons_of_mem L hM)]
    rfl

/-- The scan clears the flag of a way when it and every way before it are set (R118). -/
theorem clockSweep_getD_cleared (hj : j < ls.length) (hset : ∀ i, i ≤ j → (ls.getD i D).sc = true) :
    (clockSweep ls).getD j D = { ls.getD j D with sc := false } := by
  induction ls generalizing j with
  | nil => cases hj
  | cons L rest ih =>
    have hL : L.sc = true := hset 0 j.zero_le
    rw [clockSweep, if_pos hL]
    cases j with
    | zero => rfl
    | succ j => exact ih (Nat.lt_of_succ_lt_succ hj) fun i hi => hset (i + 1) (Nat.succ_le_succ hi)

/-- The scan leaves a way with an unset flag, and every way after it, alone (R118). -/
theorem clockSweep_getD_kept (hkj : k ≤ j) (hunset : (ls.getD k D).sc = false) :
    (clockSweep ls).getD j D = ls.getD j D := by
  induction ls generalizing j k with
  | nil => rfl
  | cons L rest ih =>
    rw [clockSweep]
    split
    next hL =>
      cases k with
      | zero =>
        have hL' : L.sc = false := hunset
        rw [hL] at hL'; cases hL'
      | succ k =>
        cases j with
        | zero => cases hkj
        | succ j => exact ih (Nat.le_of_succ_le_succ hkj) hunset
    next => rfl

end clock

/-- Settles O46: where the scan stops (`clockHit_eq_some`, `clockHit_eq_none`) and what it does to the ways
before (`clockSweep_getD_cleared`) and from there on (`clockSweep_getD_kept`). -/
theorem clockSecondChance : Obligations.ClockSecondChance := by
  intro c d S hr hw hl
  simp only [chooseVictim_clock hr]
  refine ⟨fun k hk hunset hset => ⟨?_, fun j hj => ?_, fun j hj => ?_⟩,
    fun hset => ⟨?_, fun j hj => ?_⟩, trivial⟩
  · rw [clockHit_eq_some (hl ▸ hk) hunset hset]; rfl
  · exact clockSweep_getD_cleared (by omega) fun i hi => hset i (by omega)
  · exact clockSweep_getD_kept hj hunset
  · rw [clockHit_eq_none ((forall_mem_iff_getD S.lines (Line.reset 0)).2 fun i hi => hset i (hl ▸ hi))]; rfl
  · exact clockSweep_getD_cleared (hl ▸ hj) fun i hi => hset i (by omega)

end Sys2Proof.Machine

namespace Sys2Proof.Machine

/-! ### The cache -/

section decomposition

variable {c : Config}

/-- The offset of an aligned address is a multiple of 4, for lines are whole words (R7 (a), R101). -/
theorem offsetOf_aligned (h : c.Legal) {a : Nat} (ha : a % 4 = 0) : offsetOf c a % 4 = 0 := by
  obtain ⟨⟨-, hline⟩, -⟩ := h
  rw [offsetOf, Nat.mod_mod_of_dvd _ (Nat.dvd_of_mod_eq_zero hline), ha]

/-- The tag is the address divided by what one way of the whole cache holds (R101). -/
theorem tagOf_eq_div (c : Config) (a : Nat) : tagOf c a = a / (c.lineSize * c.setCount) :=
  Nat.div_div_eq_div_mul a c.lineSize c.setCount

/-- An address is the base of its block plus its offset (R101). -/
theorem blockOf_mul_add_offsetOf (c : Config) (a : Nat) : blockOf c a * c.lineSize + offsetOf c a = a := by
  rw [← baseOf_tagOf, baseOf_add_offsetOf]

end decomposition

/-- Settles O36: the laws of the decomposition (`baseOf_add_offsetOf`, `offsetOf_word`, `blockOf_eq`). -/
theorem addressDecomposition : Obligations.AddressDecomposition := by
  intro c a hl ok
  exact ⟨(baseOf_add_offsetOf c a.toNat).symm, rfl, rfl, setIndexOf_lt hl _, tagOf_eq_div c _, rfl,
    offsetOf_aligned hl ok.1, offsetOf_word hl ok.1, fun y ht hi => blockOf_eq ht hi⟩

/-! ### The result of an access, and the sets it leaves alone (R100, R103) -/

section result

variable {s : State} {a : Word} (dir : Direction)

/-- An access that finds its block is a hit (R103). -/
theorem cacheAccess_hit (ok : AccessOk s.cfg a) {k : Nat} (h : s.lookup a.toNat = some k) :
    s.cacheAccess a dir = (.hit (s.servedWord a.toNat k dir), (s.hitAccess a.toNat dir k).state) := by
  rw [cacheAccess_ok ok, transact_hit h]; rfl

/-- An access that does not find its block is a miss (R103). -/
theorem cacheAccess_miss (ok : AccessOk s.cfg a) (h : s.lookup a.toNat = none) :
    s.cacheAccess a dir = (.miss ((s.fillLine a.toNat).servedWord a.toNat (s.choice a.toNat).way dir),
      (s.missAccess a.toNat dir).state) := by
  rw [cacheAccess_ok ok, transact_miss h]; rfl

end result

section hit

variable {s : State} {a k : Nat} {dir : Direction}

/-- Every line after a hit (R104, R105). -/
theorem hitAccess_lineAt (hf : s.Fits) (hl : s.cfg.Legal) (hk : k < s.cfg.ways) (i' k' : Nat) :
    (s.hitAccess a dir k).state.lineAt i' k' =
      if i' = setIndexOf s.cfg a ∧ k' = k then servedLine s a k dir else s.lineAt i' k' :=
  serve_lineAt hf hl hk i' k'

/-- Every set after a hit (R105). -/
theorem hitAccess_setAt (hf : s.Fits) (hl : s.cfg.Legal) (i : Nat) :
    (s.hitAccess a dir k).state.setAt i = if i = setIndexOf s.cfg a
      then (s.setAt (setIndexOf s.cfg a)).putLine k (servedLine s a k dir) else s.setAt i :=
  setAt_set (hf.sets ▸ setIndexOf_lt hl a) rfl

/-- A hit moves no cursor (R105, R116). -/
theorem hitAccess_fifo (hf : s.Fits) (hl : s.cfg.Legal) (i : Nat) :
    ((s.hitAccess a dir k).state.setAt i).fifo = (s.setAt i).fifo := by
  rw [hitAccess_setAt hf hl]
  split
  next h => rw [h]; rfl
  next => rfl

end hit

/-- A completed access leaves every set but its own alone (R103). -/
theorem transact_setAt_other {s : State} (hf : s.Fits) (hl : s.cfg.Legal) (a : Nat) (dir : Direction)
    {i : Nat} (h : i ≠ setIndexOf s.cfg a) : (s.transact a dir).state.setAt i = s.setAt i := by
  cases e : s.lookup a with
  | none => rw [transact_miss e, missAccess_setAt_other hf hl a dir h]
  | some k => rw [transact_hit e, hitAccess_setAt hf hl, if_neg h]

/-- Settles O38: the result is decided by the lookup, and the lookup finds a way exactly when one holds the
tag. -/
theorem hitIffResident : Obligations.HitIffResident := by
  intro s a dir hl hfit ok
  have hf := (cacheFits_iff s).1 hfit
  refine ⟨⟨?_, ?_⟩, fun i hi => ?_⟩
  · rintro ⟨v, hv⟩
    cases e : s.lookup a.toNat with
    | none => rw [cacheAccess_miss dir ok e] at hv; cases hv
    | some k =>
      obtain ⟨hk, hh⟩ := lookup_some hf hl e
      exact ⟨k, hk, Line.holds_iff.1 hh⟩
  · rintro ⟨k, hk, hh⟩
    cases e : s.lookup a.toNat with
    | none => exact absurd (Line.holds_iff.2 hh) (Bool.eq_false_iff.1 (lookup_none hf hl e hk))
    | some k' => exact ⟨_, congrArg Prod.fst (cacheAccess_hit dir ok e)⟩
  · rw [cacheAccess_state ok, transact_setAt_other hf hl _ _ hi]

/-- Settles O44: the cursor of `chooseVictim_fifo`, its course by `iterate_chooseVictim_fifo`, and
`hitAccess_fifo`. -/
theorem fifoCycles : Obligations.FifoCycles := by
  refine ⟨fun c d S hr _ => ?_, fun s a dir k i hl hfit ok h => ?_⟩
  · refine ⟨?_, ?_, ?_, fun h0 n => ?_⟩
    · rw [chooseVictim_fifo d hr]
    · rw [chooseVictim_fifo d hr]
    · rw [chooseVictim_fifo d hr]
    · rw [chooseVictim_fifo d hr, iterate_chooseVictim_fifo d hr h0]
  · rw [cacheAccess_hit dir ok h, hitAccess_fifo ((cacheFits_iff s).1 hfit) hl]

/-! ### The bytes of a served access (R104, R110, R112) -/

section served

variable {s : State} {a k : Nat} {dir : Direction}

/-- Every byte of the line a served write leaves (R104). -/
theorem servedLine_byteAt_write (w : Word) (hd : offsetOf s.cfg a + 4 ≤ (s.lineOf a k).data.length) (j : Nat) :
    (servedLine s a k (.write w)).byteAt j = if offsetOf s.cfg a ≤ j ∧ j < offsetOf s.cfg a + 4
      then (beBytes w).getD (j - offsetOf s.cfg a) 0#8 else (s.lineOf a k).byteAt j := by
  split
  next h =>
    obtain ⟨j, rfl⟩ := Nat.exists_eq_add_of_le h.1
    rw [servedLine_byteAt_written (by omega) hd, Nat.add_sub_cancel_left]
  next h => exact servedLine_byteAt_other fun _ _ => by omega

/-- Every byte of main memory after a served access: a write-through store's four bytes, else as before
(R112). -/
theorem serve_mem_byte (hm : Memory.wf s.mem = true) (b : Nat) :
    Memory.read (s.serve a k dir).mem b = match dir, s.cfg.wpol with
      | .write w, .writeThrough => if a ≤ b ∧ b < a + 4 then (beBytes w).getD (b - a) 0#8
          else Memory.read s.mem b
      | _, _ => Memory.read s.mem b := by
  cases dir with
  | read => rfl
  | write w =>
    cases hp : s.cfg.wpol with
    | writeBack => exact serve_mem_read fun _ _ hw => by rw [hp] at hw; cases hw
    | writeThrough =>
      dsimp only
      split
      next h =>
        obtain ⟨j, rfl⟩ := Nat.exists_eq_add_of_le h.1
        rw [serve_mem_written hm hp (by omega), Nat.add_sub_cancel_left]
      next h => exact serve_mem_read fun _ _ _ => by omega

/-- The four bytes of an aligned word lie in its line (R101). -/
theorem word_in_line (hf : s.Fits) (hl : s.cfg.Legal) (hk : k < s.cfg.ways) (ha : a % 4 = 0) :
    offsetOf s.cfg a + 4 ≤ (s.lineOf a k).data.length := by
  have hword := offsetOf_word hl ha
  have hdata : (s.lineOf a k).data.length = s.cfg.lineSize := hf.data _ _ (setIndexOf_lt hl a) hk
  omega

end served

/-- Settles O39: a hit serves its line (`hitAccess_lineAt`, `servedLine_fields`) and memory (`serve_mem_byte`),
and moves nothing else. -/
theorem hitAccess : Obligations.HitAccess := by
  intro s a dir k hl hfit hm ok h L off
  have hf := (cacheFits_iff s).1 hfit
  obtain ⟨hk, -⟩ := lookup_some hf hl h
  have hline : (s.hitAccess a.toNat dir k).state.lineOf a.toNat k = servedLine s a.toNat k dir :=
    (hitAccess_lineAt hf hl hk _ _).trans (if_pos ⟨rfl, rfl⟩)
  obtain ⟨htag, hvalid, hlru, hsc, -⟩ := servedLine_fields s a.toNat k dir
  refine ⟨_, _, cacheAccess_hit dir ok h, ?_, ?_, ?_, ?_, ?_, ?_, ?_, ?_, fun b => serve_mem_byte hm b,
    fun i' k' hne => ?_, hitAccess_fifo hf hl, rfl, rfl, rfl, rfl, rfl, rfl, rfl, rfl⟩
  · rintro rfl; rfl
  · rw [hline, hvalid]
  · rw [hline, htag]
  · rw [hline, hlru]
  · rw [hline, hsc]
  · rintro rfl; rw [hline]; rfl
  · rintro w rfl j -
    rw [hline, servedLine_byteAt_write w (word_in_line hf hl hk ok.1)]
  · rw [hline]
    exact servedLine_dirty s a.toNat k dir
  · rw [hitAccess_lineAt hf hl hk, if_neg hne]

end Sys2Proof.Machine

namespace Sys2Proof.Machine

/-! ### A miss, and the write policies (R107 to R112) -/

section miss

variable {s : State} {a : Nat}

/-- The filled line stands in the way of the victim (R108). -/
theorem fillLine_lineOf_victim (hf : s.Fits) (hl : s.cfg.Legal) :
    (s.fillLine a).lineOf a (s.choice a).way = filledLine s a :=
  fillLine_lineAt_victim hf hl

/-- Byte `j` of the filled line is byte `j` of the block in memory (R109). -/
theorem filledLine_byteAt_fillLine {j : Nat} (hj : j < s.cfg.lineSize) :
    (filledLine s a).byteAt j = Memory.read (s.fillLine a).mem (blockOf s.cfg a * s.cfg.lineSize + j) :=
  Memory.readBytes_getD _ _ hj

/-- Byte `j` of the word in a filled line is the byte memory holds there (R109, R110). -/
theorem filledLine_word (hl : s.cfg.Legal) (ha : a % 4 = 0) {j : Nat} (hj : j < 4) :
    (filledLine s a).byteAt (offsetOf s.cfg a + j) = Memory.read (s.fillLine a).mem (a + j) := by
  have hword := offsetOf_word hl ha
  rw [filledLine_byteAt_fillLine (by omega), ← Nat.add_assoc, blockOf_mul_add_offsetOf]

/-- A read that misses delivers the word memory holds after the write-back (R110). -/
theorem fillLine_servedWord_read (hf : s.Fits) (hl : s.cfg.Legal) (ha : a % 4 = 0) :
    (s.fillLine a).servedWord a (s.choice a).way .read =
      be32 (Memory.read (s.fillLine a).mem a) (Memory.read (s.fillLine a).mem (a + 1))
        (Memory.read (s.fillLine a).mem (a + 2)) (Memory.read (s.fillLine a).mem (a + 3)) := by
  have hword : (s.fillLine a).servedWord a (s.choice a).way .read =
      (filledLine s a).wordAt (offsetOf s.cfg a) := by
    rw [← fillLine_lineOf_victim hf hl]; rfl
  have hfirst := filledLine_word hl ha (j := 0) (by decide)
  rw [Nat.add_zero, Nat.add_zero] at hfirst
  rw [hword, Line.wordAt, hfirst, filledLine_word hl ha (by decide), filledLine_word hl ha (by decide),
    filledLine_word hl ha (by decide)]

/-- A read that misses leaves the filled block in the line (R109, R110). -/
theorem fillLine_servedLine_byteAt_read (hf : s.Fits) (hl : s.cfg.Legal) {j : Nat} (hj : j < s.cfg.lineSize) :
    (servedLine (s.fillLine a) a (s.choice a).way .read).byteAt j =
      Memory.read (s.fillLine a).mem (blockOf s.cfg a * s.cfg.lineSize + j) := by
  rw [← filledLine_byteAt_fillLine hj, ← fillLine_lineOf_victim hf hl]
  rfl

/-- Every byte of the line a write that misses leaves: the filled block with the word on top (R109, R110). -/
theorem fillLine_servedLine_byteAt_write (hf : s.Fits) (hl : s.cfg.Legal) (ha : a % 4 = 0) (w : Word)
    {j : Nat} (hj : j < s.cfg.lineSize) :
    (servedLine (s.fillLine a) a (s.choice a).way (.write w)).byteAt j =
      if a ≤ blockOf s.cfg a * s.cfg.lineSize + j ∧ blockOf s.cfg a * s.cfg.lineSize + j < a + 4
      then (beBytes w).getD (blockOf s.cfg a * s.cfg.lineSize + j - a) 0#8
      else Memory.read (s.fillLine a).mem (blockOf s.cfg a * s.cfg.lineSize + j) := by
  have haddr := blockOf_mul_add_offsetOf s.cfg a
  have hway := (choice_spec hf hl a).1
  rw [servedLine_byteAt_write w (word_in_line (fillLine_fits hf hl) hl hway ha),
    fillLine_lineOf_victim hf hl, filledLine_byteAt_fillLine hj, fillLine_cfg]
  have hsub : blockOf s.cfg a * s.cfg.lineSize + j - a = j - offsetOf s.cfg a := by omega
  have hiff : a ≤ blockOf s.cfg a * s.cfg.lineSize + j ∧ blockOf s.cfg a * s.cfg.lineSize + j < a + 4 ↔
      offsetOf s.cfg a ≤ j ∧ j < offsetOf s.cfg a + 4 := by omega
  simp only [hsub, hiff]

/-- Filling a line keeps memory canonical: it writes at most the victim's bytes (R107). -/
theorem fillLine_memWf (hm : Memory.wf s.mem = true) (a : Nat) : Memory.wf (s.fillLine a).mem = true := by
  rw [State.fillLine, writeBack]
  split
  next => exact Memory.wf_writeBytes _ _ hm
  next => exact hm

/-- A line served after a fill is dirty exactly by a write under `WriteBack` (R110, R112). -/
theorem fillLine_servedLine_dirty (hf : s.Fits) (hl : s.cfg.Legal) (dir : Direction) :
    (servedLine (s.fillLine a) a (s.choice a).way dir).dirty = true ↔
      (∃ w, dir = .write w) ∧ s.cfg.wpol = .writeBack := by
  rw [servedLine_dirty, fillLine_lineOf_victim hf hl, fillLine_cfg]
  cases dir with
  | read => exact ⟨nofun, nofun⟩
  | write w =>
    cases s.cfg.wpol with
    | writeBack => exact ⟨fun _ => ⟨⟨w, rfl⟩, rfl⟩, fun _ => rfl⟩
    | writeThrough => exact ⟨nofun, nofun⟩

end miss

/-- Settles O40: a miss evicts (`evictedMem_read`), fills (`filledLine_byteAt_fillLine`) and serves the filled
line (`missAccess_lineAt`); the statement's memory is the memory the line is filled from. -/
theorem missAccess : Obligations.MissAccess := by
  intro s a dir hl hfit hm ok h i k victim base memory block
  have hf := (cacheFits_iff s).1 hfit
  have hmem : ∀ b, Memory.read (s.fillLine a.toNat).mem b = memory b := fun b => by
    rw [fillLine_mem hf hl]
    exact evictedMem_read hf hl hm a.toNat b
  have hline : (s.missAccess a.toNat dir).state.lineAt i k = servedLine (s.fillLine a.toNat) a.toNat k dir :=
    (missAccess_lineAt hf hl _ _ _ _).trans (if_pos ⟨rfl, rfl⟩)
  obtain ⟨htag, hvalid, hlru, hsc, -⟩ := servedLine_fields (s.fillLine a.toNat) a.toNat k dir
  rw [fillLine_lineOf_victim hf hl] at htag hvalid
  refine ⟨_, _, cacheAccess_miss dir ok h, ?_, ?_, ?_, ?_, ?_, ?_, fun j hj => ?_, fun b => ?_,
    fun k' hk' => ?_, missAccess_fifo hf hl _ _, fun i' hi' => missAccess_setAt_other hf hl _ _ hi',
    rfl, rfl, rfl, rfl, rfl, rfl, rfl⟩
  · rintro rfl
    simp only [fillLine_servedWord_read hf hl ok.1, hmem]
  · rw [hline, hvalid]; rfl
  · rw [hline, htag]; rfl
  · rw [hline, hlru]; rfl
  · rw [hline, hsc]
  · rw [hline]
    exact fillLine_servedLine_dirty hf hl dir
  · rw [hline]
    cases dir with
    | read =>
      rw [fillLine_servedLine_byteAt_read hf hl hj, hmem]
      rfl
    | write w =>
      rw [fillLine_servedLine_byteAt_write hf hl ok.1 w hj, hmem]
      rfl
  · simp only [← hmem]
    exact serve_mem_byte (fillLine_memWf hm a.toNat) b
  · rw [missAccess_lineAt hf hl, if_neg fun e => hk' e.2, fillLine_lineAt hf hl, if_pos rfl, if_neg hk']

/-- Settles O41: the line as served (`transact_servedLine`), main memory by `transact_evictedOnly` and
`transact_writeThrough`, and R30 (b) of the state left. -/
theorem writePolicies : Obligations.WritePolicies := by
  intro s a w h h1 ok
  have hinv := transact_inv (dir := .write w) h h1 ok.1 ok.2
  have hcfg := (transact_frame s a.toNat (.write w)).1
  obtain ⟨u, k, -, hu, -, hk, hline⟩ := transact_servedLine (dir := .write w) h h1 ok.1 ok.2
  refine ⟨_, _, k, cacheAccess_ok ok, hk, fun hp => ?_, fun hp => ?_, transact_accessStats _ _ _⟩
  · have hevict : EvictedOnly s (s.transact a.toNat (.write w)).state a.toNat :=
      transact_evictedOnly h _ _ fun _ _ => hp
    refine ⟨?_, hevict, fun j hj => EvictedOnly_word h ok.1 hevict hj⟩
    rw [hline, servedLine_dirty, hu, hp]
  · obtain ⟨hword, hother⟩ := transact_writeThrough h a.toNat w hp
    refine ⟨hword, hother, fun i k' hi hk' => ?_⟩
    rw [← hcfg] at hp hi hk'
    exact writeThrough_clean hinv hp hi hk'

/-- Under `WriteThrough` main memory holds the whole of every valid line (R30 (b), (d)). -/
theorem writeThrough_line_coherent {s : State} (h : s.Inv) (hp : s.cfg.wpol = .writeThrough) {a k : Nat}
    (hk : s.lookup a = some k) {j : Nat} (hj : j < s.cfg.lineSize) :
    Memory.read s.mem (baseOf s.cfg (tagOf s.cfg a) (setIndexOf s.cfg a) + j) = (s.lineOf a k).byteAt j := by
  obtain ⟨hway, hh⟩ := lookup_some ((cacheFits_iff s).1 h.fits) h.legal hk
  obtain ⟨hvalid, htag⟩ := Line.holds_iff.1 hh
  have hi := setIndexOf_lt h.legal a
  rw [← htag]
  exact (h.coherent _ _ j hi hway hj hvalid (writeThrough_clean h hp hi hway)).symm

/-- A dirty victim's bytes stand at its resident address after the miss (R107). -/
theorem EvictedOnly.victim_byte {s t : State} {a : Nat} (he : EvictedOnly s t a) (hm : s.lookup a = none)
    (hv : (victimLine s a).valid = true) (hd : (victimLine s a).dirty = true) {j : Nat}
    (hj : j < s.cfg.lineSize) :
    Memory.read t.mem (baseOf s.cfg (victimLine s a).tag (setIndexOf s.cfg a) + j) =
      (victimLine s a).byteAt j := by
  refine (he _).trans ((if_pos ⟨hm, hv, hd, Nat.le_add_right _ _, Nat.add_lt_add_left hj _⟩).trans ?_)
  exact congrArg (victimLine s a).byteAt (Nat.add_sub_cancel_left _ _)

/-- Settles O42: `writeThrough_line_coherent` of the state the write leaves; and a dirty victim means
`WriteBack`, where a miss writes nothing but the victim (`EvictedOnly.victim_byte`). -/
theorem writeInvariants : Obligations.WriteInvariants := by
  refine ⟨fun s a w h h1 ok hp => ?_, ?_⟩
  · have hinv := transact_inv (dir := .write w) h h1 ok.1 ok.2
    have hcfg := (transact_frame s a.toNat (.write w)).1
    obtain ⟨-, k, -, -, -, hk, -⟩ := transact_servedLine (dir := .write w) h h1 ok.1 ok.2
    rw [cacheAccess_state ok]
    refine ⟨k, hk, fun j hj => ?_⟩
    rw [← hcfg] at hp hj ⊢
    exact writeThrough_line_coherent hinv hp hk hj
  · intro s a dir h h1 ok hm L hv hd j hj
    have hway := (choice_spec ((cacheFits_iff s).1 h.fits) h.legal a.toNat).1
    obtain ⟨-, hp⟩ := h.dirty _ _ (setIndexOf_lt h.legal a.toNat) hway hd
    rw [cacheAccess_state ok]
    exact (transact_evictedOnly h a.toNat dir fun _ _ => hp).victim_byte hm hv hd hj

end Sys2Proof.Machine

namespace Sys2Proof

/-! ### The fields of a masked word, and a word from its fields (R151) -/

section fields

variable (w m : Word)

@[simp] theorem opField_and : opField (w &&& m) = opField w &&& opField m := BitVec.extractLsb'_and
@[simp] theorem rsField_and : rsField (w &&& m) = rsField w &&& rsField m := BitVec.extractLsb'_and
@[simp] theorem rtField_and : rtField (w &&& m) = rtField w &&& rtField m := BitVec.extractLsb'_and
@[simp] theorem rdField_and : rdField (w &&& m) = rdField w &&& rdField m := BitVec.extractLsb'_and
@[simp] theorem shamtField_and : shamtField (w &&& m) = shamtField w &&& shamtField m :=
  BitVec.extractLsb'_and
@[simp] theorem functField_and : functField (w &&& m) = functField w &&& functField m :=
  BitVec.extractLsb'_and
@[simp] theorem immField_and : immField (w &&& m) = immField w &&& immField m := BitVec.extractLsb'_and

end fields

/-- A word is the J-format word of its own fields. -/
theorem jWord_fields (w : Word) : jWord (opField w) (targetField w) = w :=
  (BitVec.extractLsb'_append_extractLsb'_eq_extractLsb' rfl).trans BitVec.extractLsb'_eq_self

/-- A word is the I-format word of its own fields. -/
theorem iWord_fields (w : Word) : iWord (opField w) (rsField w) (rtField w) (immField w) = w := by
  simp (disch := rfl) only [iWord, opField, rsField, rtField, immField,
    BitVec.extractLsb'_append_extractLsb'_eq_extractLsb', BitVec.extractLsb'_eq_self]

/-- A word of opcode 0 is the R-format word of its own fields. -/
theorem rWord_fields {w : Word} (hop : opField w = 0) :
    rWord (rsField w) (rtField w) (rdField w) (shamtField w) (functField w) = w := by
  rw [rWord, show 0#6 = opField w from hop.symm]
  simp (disch := rfl) only [opField, rsField, rtField, rdField, shamtField, functField,
    BitVec.extractLsb'_append_extractLsb'_eq_extractLsb', BitVec.extractLsb'_eq_self]

theorem eq_rWord_iff {w : Word} {rs rt rd : Reg} {shamt : Shamt} {f : BitVec 6} :
    w = rWord rs rt rd shamt f ↔
      opField w = 0 ∧ functField w = f ∧ rsField w = rs ∧ rtField w = rt ∧ rdField w = rd ∧
        shamtField w = shamt := by
  constructor
  · rintro rfl
    simp
  · rintro ⟨hop, rfl, rfl, rfl, rfl, rfl⟩
    exact (rWord_fields hop).symm

theorem eq_iWord_iff {w : Word} {op : BitVec 6} {rs rt : Reg} {imm : Imm16} :
    w = iWord op rs rt imm ↔
      opField w = op ∧ rsField w = rs ∧ rtField w = rt ∧ immField w = imm := by
  constructor
  · rintro rfl
    simp
  · rintro ⟨rfl, rfl, rfl, rfl⟩
    exact (iWord_fields w).symm

theorem eq_jWord_iff {w : Word} {op : BitVec 6} {target : Target} :
    w = jWord op target ↔ opField w = op ∧ targetField w = target := by
  constructor
  · rintro rfl
    simp
  · rintro ⟨rfl, rfl⟩
    exact (jWord_fields w).symm

/-! ### The used bits of a word, format by format (R157) -/

section usedBits

variable {w : Word} {op funct : BitVec 6} {rs rt rd : Reg} {shamt : Shamt} {imm : Imm16} {target : Target}

/-- A masked word in the R format, field by field. -/
theorem and_eq_rWord_iff {m : Word} : w &&& m = rWord rs rt rd shamt funct ↔
    opField w &&& opField m = 0 ∧ functField w &&& functField m = funct ∧ rsField w &&& rsField m = rs ∧
      rtField w &&& rtField m = rt ∧ rdField w &&& rdField m = rd ∧ shamtField w &&& shamtField m = shamt := by
  rw [eq_rWord_iff, opField_and, functField_and, rsField_and, rtField_and, rdField_and, shamtField_and]

/-- `sll` and `srl` use every field but `rs`. -/
theorem shiftBits_iff : w &&& 0xFC1FFFFF#32 = rWord 0 rt rd shamt funct ↔
    opField w = 0 ∧ functField w = funct ∧ rtField w = rt ∧ rdField w = rd ∧ shamtField w = shamt := by
  rw [and_eq_rWord_iff]
  change _ &&& BitVec.allOnes 6 = 0 ∧ _ &&& BitVec.allOnes 6 = _ ∧ _ &&& 0 = 0 ∧ _ &&& BitVec.allOnes 5 = _ ∧
    _ &&& BitVec.allOnes 5 = _ ∧ _ &&& BitVec.allOnes 5 = _ ↔ _
  simp only [BitVec.and_allOnes, BitVec.and_zero, true_and, BitVec.ofNat_eq_ofNat]

/-- `jr` uses `rs` alone. -/
theorem jrBits_iff : w &&& 0xFFE0003F#32 = rWord rs 0 0 0 funct ↔
    opField w = 0 ∧ functField w = funct ∧ rsField w = rs := by
  rw [and_eq_rWord_iff]
  change _ &&& BitVec.allOnes 6 = 0 ∧ _ &&& BitVec.allOnes 6 = _ ∧ _ &&& BitVec.allOnes 5 = _ ∧ _ &&& 0 = 0 ∧
    _ &&& 0 = 0 ∧ _ &&& 0 = 0 ↔ _
  simp only [BitVec.and_allOnes, BitVec.and_zero, and_true, BitVec.ofNat_eq_ofNat]

/-- The other R-type instructions use every field but `shamt`. -/
theorem threeRegBits_iff : w &&& 0xFFFFF83F#32 = rWord rs rt rd 0 funct ↔
    opField w = 0 ∧ functField w = funct ∧ rsField w = rs ∧ rtField w = rt ∧ rdField w = rd := by
  rw [and_eq_rWord_iff]
  change _ &&& BitVec.allOnes 6 = 0 ∧ _ &&& BitVec.allOnes 6 = _ ∧ _ &&& BitVec.allOnes 5 = _ ∧
    _ &&& BitVec.allOnes 5 = _ ∧ _ &&& BitVec.allOnes 5 = _ ∧ _ &&& 0 = 0 ↔ _
  simp only [BitVec.and_allOnes, BitVec.and_zero, and_true, BitVec.ofNat_eq_ofNat]

/-- `lui` uses every field but `rs`. -/
theorem luiBits_iff : w &&& 0xFC1FFFFF#32 = iWord op 0 rt imm ↔
    opField w = op ∧ rtField w = rt ∧ immField w = imm := by
  rw [eq_iWord_iff, opField_and, rsField_and, rtField_and, immField_and]
  change _ &&& BitVec.allOnes 6 = _ ∧ _ &&& 0 = 0 ∧ _ &&& BitVec.allOnes 5 = _ ∧ _ &&& BitVec.allOnes 16 = _ ↔ _
  simp only [BitVec.and_allOnes, BitVec.and_zero, true_and, BitVec.ofNat_eq_ofNat]

/-- The other I-type instructions use every bit. -/
theorem immBits_iff : w &&& 0xFFFFFFFF#32 = iWord op rs rt imm ↔
    opField w = op ∧ rsField w = rs ∧ rtField w = rt ∧ immField w = imm := by
  rw [show w &&& 0xFFFFFFFF#32 = w from BitVec.and_allOnes, eq_iWord_iff]

/-- The jumps use every bit. -/
theorem targetBits_iff : w &&& 0xFFFFFFFF#32 = jWord op target ↔
    opField w = op ∧ targetField w = target := by
  rw [show w &&& 0xFFFFFFFF#32 = w from BitVec.and_allOnes, eq_jWord_iff]

end usedBits

/-! ### Decoding against encoding (R155 to R157) -/

/-- The used bits of a word the function map accepts are the encoded instruction. -/
theorem usedBits_of_decodeRType {w : Word} {i : Instr} (hop : opField w = 0) (h : decodeRType w = some i) :
    w &&& usedBits i = encode i := by
  unfold decodeRType at h
  split at h
  case h_1 hf | h_2 hf =>
    cases h
    exact shiftBits_iff.2 ⟨hop, hf, rfl, rfl, rfl⟩
  case h_3 hf =>
    cases h
    exact jrBits_iff.2 ⟨hop, hf, rfl⟩
  case h_14 => cases h
  all_goals
    next hf =>
      cases h
      exact threeRegBits_iff.2 ⟨hop, hf, rfl, rfl, rfl⟩

/-- The used bits of a word that decodes are the encoded instruction. -/
theorem usedBits_of_decodeWord {w : Word} {i : Instr} (h : decodeWord w = some i) :
    w &&& usedBits i = encode i := by
  unfold decodeWord at h
  split at h
  case h_1 hop => exact usedBits_of_decodeRType hop h
  case h_2 hop | h_3 hop =>
    cases h
    exact targetBits_iff.2 ⟨hop, rfl⟩
  case h_13 hop =>
    cases h
    exact luiBits_iff.2 ⟨hop, rfl, rfl⟩
  case h_16 => cases h
  all_goals
    next hop =>
      cases h
      exact immBits_iff.2 ⟨hop, rfl, rfl, rfl⟩

/-- A word whose used bits are an encoded instruction decodes to it. -/
theorem decodeWord_of_usedBits {w : Word} {i : Instr} (h : w &&& usedBits i = encode i) :
    decodeWord w = some i := by
  cases i
  case sll | srl =>
    obtain ⟨hop, hf, rfl, rfl, rfl⟩ := shiftBits_iff.1 h
    simp [decodeWord, decodeRType, hop, hf]
  case jr =>
    obtain ⟨hop, hf, rfl⟩ := jrBits_iff.1 h
    simp [decodeWord, decodeRType, hop, hf]
  case add | addu | sub | subu | and | or | xor | nor | slt | sltu =>
    obtain ⟨hop, hf, rfl, rfl, rfl⟩ := threeRegBits_iff.1 h
    simp [decodeWord, decodeRType, hop, hf]
  case j | jal =>
    obtain ⟨hop, rfl⟩ := targetBits_iff.1 h
    simp [decodeWord, hop]
  case lui =>
    obtain ⟨hop, rfl, rfl⟩ := luiBits_iff.1 h
    simp [decodeWord, hop]
  case beq | bne | addi | addiu | slti | sltiu | andi | ori | xori | lw | sw =>
    obtain ⟨hop, rfl, rfl, rfl⟩ := immBits_iff.1 h
    simp [decodeWord, hop]

/-- R157: the used bits of a word, and nothing else of it, decide which instruction it is. -/
theorem decodeWord_eq_some_iff {w : Word} {i : Instr} :
    decodeWord w = some i ↔ w &&& usedBits i = encode i :=
  ⟨usedBits_of_decodeWord, decodeWord_of_usedBits⟩

/-- Each field stands where the decoder reads it (R151). -/
@[simp] theorem decodeWord_encode (i : Instr) : decodeWord (encode i) = some i := by
  cases i <;> simp [encode, decodeWord, decodeRType]

/-- The decoder reads the big-endian bytes of a word at the head of memory, and gives back what follows
them (R71, R150). -/
theorem decode_beBytes {w : Word} {i : Instr} (h : decodeWord w = some i) (rest : List Byte) :
    decode (beBytes w ++ rest) = .ok (i, rest) := by
  have hw : be32 (w.extractLsb' 24 8) (w.extractLsb' 16 8) (w.extractLsb' 8 8) (w.extractLsb' 0 8) = w :=
    Machine.be32_beBytes w
  simp only [beBytes, List.cons_append, List.nil_append, decode, hw, h]

/-- Settles O1: `decodeWord_encode`, and `decode_beBytes` of the encoded word. -/
theorem encodeThenDecode : Obligations.EncodeThenDecode :=
  fun i => ⟨decodeWord_encode i, decode_beBytes (decodeWord_encode i)⟩

/-- Settles O4: the bytes are those `encode` gives for the five instructions. -/
theorem workedEncodingsDecode : Obligations.WorkedEncodingsDecode :=
  ⟨decode_beBytes (decodeWord_encode (.addi 1#5 0#5 5#16)) [],
    decode_beBytes (decodeWord_encode (.addi 2#5 0#5 7#16)) [],
    decode_beBytes (decodeWord_encode (.add 3#5 1#5 2#5)) [],
    decode_beBytes (decodeWord_encode (.sw 3#5 0#5 0#16)) [],
    decode_beBytes (decodeWord_encode (.lw 4#5 0#5 0#16)) []⟩

/-! ### The maps, and the rows of the table (R155 to R158) -/

/-- The function map rejects exactly the codes outside it (R156). -/
theorem decodeRType_eq_none_iff {w : Word} : decodeRType w = none ↔
    functField w ∉ [0x00#6, 0x02#6, 0x08#6, 0x20#6, 0x21#6, 0x22#6, 0x23#6, 0x24#6,
      0x25#6, 0x26#6, 0x27#6, 0x2A#6, 0x2B#6] := by
  unfold decodeRType
  split
  case h_14 => simp_all
  all_goals simp [*]

/-- Settles O3: opcode 0 leaves the choice to the function map (`decodeRType_eq_none_iff`); every other
listed opcode decodes, and no other opcode does. -/
theorem unsupportedOutsideTheMaps : Obligations.UnsupportedOutsideTheMaps := by
  intro w
  unfold decodeWord
  split
  case h_1 hop => simp [hop, decodeRType_eq_none_iff]
  case h_16 => simp_all
  all_goals simp [*]

/-- Selection reads the opcode and, for opcode 0, the function code: nothing else of the word (R154, R157). -/
theorem decodeWord_eq_none_congr {w v : Word} (hop : opField w = opField v)
    (hf : opField v = 0 → functField w = functField v) : decodeWord w = none ↔ decodeWord v = none := by
  rw [unsupportedOutsideTheMaps w, unsupportedOutsideTheMaps v, hop]
  exact or_congr_right (and_congr_right fun h0 => by rw [hf h0])

/-- The mask of a row with the given opcode (R157). -/
def rowMask (op : BitVec 6) : Word := if op = 0 then 0xFC00003F#32 else 0xFC000000#32

/-- Every row has the mask its opcode calls for, and its match is itself an instruction. -/
theorem opcodeRows_spec : ∀ r ∈ opcodeRows, r.2 = rowMask (opField r.1) ∧ (decodeWord r.1).isSome := by
  have h : opcodeRows.all fun r => r.2 = rowMask (opField r.1) ∧ (decodeWord r.1).isSome := by decide
  simpa using h

/-- A row and a word it matches have the same opcode, and the same function code where that is 0. -/
theorem selection_of_row {r : Word × Word} (hr : r ∈ opcodeRows) {w : Word} (h : w &&& r.2 = r.1) :
    opField w = opField r.1 ∧ (opField r.1 = 0 → functField w = functField r.1) := by
  obtain ⟨hm, -⟩ := opcodeRows_spec r hr
  have hop : opField r.2 = BitVec.allOnes 6 := by rw [hm, rowMask]; split <;> rfl
  refine ⟨?_, fun h0 => ?_⟩
  · rw [← h, opField_and, hop, BitVec.and_allOnes]
  · have hf : functField r.2 = BitVec.allOnes 6 := by rw [hm, h0]; rfl
    rw [← h, functField_and, hf, BitVec.and_allOnes]

/-- A word determines the row that matches it. -/
theorem row_eq_of_match {r : Word × Word} (hr : r ∈ opcodeRows) {w : Word} (h : w &&& r.2 = r.1) :
    r = (w &&& rowMask (opField w), rowMask (opField w)) := by
  have hm : r.2 = rowMask (opField w) := by
    rw [(selection_of_row hr h).1]
    exact (opcodeRows_spec r hr).1
  rw [← hm, h]

/-- A word some row matches is an instruction. -/
theorem decodeWord_of_row {r : Word × Word} (hr : r ∈ opcodeRows) {w : Word} (h : w &&& r.2 = r.1) :
    ∃ i, decodeWord w = some i := by
  obtain ⟨hop, hf⟩ := selection_of_row hr h
  obtain ⟨-, hsome⟩ := opcodeRows_spec r hr
  rw [← Option.isSome_iff_exists, ← Option.ne_none_iff_isSome, ne_eq, decodeWord_eq_none_congr hop hf]
  exact Option.ne_none_iff_isSome.2 hsome

/-- The encoder gives every instruction a word of its own row (R157). -/
theorem tableRow : ∀ i, Laws.TableRow.Statement i
  | .sll .. => Laws.TableRow.sll ..
  | .srl .. => Laws.TableRow.srl ..
  | .jr .. => Laws.TableRow.jr ..
  | .add .. => Laws.TableRow.add ..
  | .addu .. => Laws.TableRow.addu ..
  | .sub .. => Laws.TableRow.sub ..
  | .subu .. => Laws.TableRow.subu ..
  | .and .. => Laws.TableRow.and ..
  | .or .. => Laws.TableRow.or ..
  | .xor .. => Laws.TableRow.xor ..
  | .nor .. => Laws.TableRow.nor ..
  | .slt .. => Laws.TableRow.slt ..
  | .sltu .. => Laws.TableRow.sltu ..
  | .j .. => Laws.TableRow.j ..
  | .jal .. => Laws.TableRow.jal ..
  | .beq .. => Laws.TableRow.beq ..
  | .bne .. => Laws.TableRow.bne ..
  | .addi .. => Laws.TableRow.addi ..
  | .addiu .. => Laws.TableRow.addiu ..
  | .slti .. => Laws.TableRow.slti ..
  | .sltiu .. => Laws.TableRow.sltiu ..
  | .andi .. => Laws.TableRow.andi ..
  | .ori .. => Laws.TableRow.ori ..
  | .xori .. => Laws.TableRow.xori ..
  | .lui .. => Laws.TableRow.lui ..
  | .lw .. => Laws.TableRow.lw ..
  | .sw .. => Laws.TableRow.sw ..

/-- The bits that select an instruction are among those it uses. -/
theorem usedBits_and_tableMask (i : Instr) : usedBits i &&& tableMask i = tableMask i := by
  cases i <;> simp only [usedBits, tableMask, Instr.cls] <;> decide

/-- A decoded word lies in the row of its instruction (R157). -/
theorem row_of_decodeWord {w : Word} {i : Instr} (h : decodeWord w = some i) :
    (w &&& tableMask i, tableMask i) ∈ opcodeRows := by
  have e : w &&& tableMask i = encode i &&& tableMask i := by
    rw [← usedBits_of_decodeWord h, BitVec.and_assoc, usedBits_and_tableMask]
  rw [e]
  exact tableRow i

/-- Settles O2: the used bits decide (`decodeWord_eq_some_iff`), an instruction's word lies in its row
(`row_of_decodeWord`), a matched word decodes (`decodeWord_of_row`), by one row (`row_eq_of_match`). -/
theorem unusedFieldsAreIgnored : Obligations.UnusedFieldsAreIgnored := by
  refine ⟨fun w i => decodeWord_eq_some_iff, fun w i => row_of_decodeWord, fun w => ⟨?_, ?_⟩, ?_⟩
  · rintro ⟨i, h⟩
    exact ⟨_, row_of_decodeWord h, rfl⟩
  · rintro ⟨r, hr, h⟩
    exact decodeWord_of_row hr h
  · intro r hr q hq w hwr hwq
    exact (row_eq_of_match hr hwr).trans (row_eq_of_match hq hwq).symm

end Sys2Proof

namespace Sys2Proof.Machine

/-! ### One granted step: its checks, the fetch, and what it runs (R180 to R189) -/

/-- The fetch leaves registers, pc, run state, reports, configuration and `UNSPEC32` draws alone. -/
theorem fetchWord_frame (s : State) :
    s.fetchWord.state.cfg = s.cfg ∧ s.fetchWord.state.regs = s.regs ∧ s.fetchWord.state.pc = s.pc ∧
      s.fetchWord.state.run = s.run ∧ s.fetchWord.state.reports = s.reports ∧
      s.fetchWord.state.wordDraws = s.wordDraws :=
  transact_frame s.countInstr s.pc.toNat .read

/-- The fetch writes nothing into main memory but a victim (R107): it is a read. -/
theorem fetchWord_evictedOnly {s : State} (h : s.Inv) : EvictedOnly s s.fetchWord.state s.pc.toNat :=
  transact_evictedOnly (countInstr_inv h).1 s.pc.toNat .read nofun

/-- Settles O26: the step is the fetch followed by `State.unsupported`, which adds the record and moves the
pc; everything else is what the fetch leaves. -/
theorem unsupportedWordIsANoOp : Obligations.UnsupportedWordIsANoOp := by
  intro s h hready hpc hd
  obtain ⟨hword, -, harch, hstat⟩ := fetchWord_spec h hpc
  obtain ⟨hcfg, hregs, hfpc, hrun, hreports, hdraws⟩ := fetchWord_frame s
  obtain ⟨hmem, hcache, hways⟩ := fetchWord_cacheEffects hpc
  rw [← hword] at hd ⊢
  refine ⟨s.fetchWord.state.unsupported s.fetchWord.word,
    (step_ready hready).trans (runStep_undecoded hpc hd), ?_, congrArg nextPc hfpc, hregs, harch,
    fetchWord_evictedOnly h, ⟨hmem, hcache, hways⟩, hstat, hcfg, hrun.trans hready.2.2, hdraws⟩
  have hrecord : (s.fetchWord.state.unsupported s.fetchWord.word).reports =
    s.fetchWord.state.reports ++ [.unsupportedInstruction s.fetchWord.state.pc s.fetchWord.word] := rfl
  rw [hrecord, hreports, hfpc]

/-- Settles O31: the four cases of a grant exclude each other by the configuration and the shape of the
cache, and a running step always answers a next state (`runStep_next`). -/
theorem stepIsTotal : Obligations.StepIsTotal := by
  refine ⟨fun s hl hf => ?_, fun s => ?_, fun s hl hf => ?_⟩
  · by_cases hr : s.run = .running
    · rw [step_ready ⟨hl, hf, hr⟩]
      exact runStep_next s
    · exact ⟨s, step_stopped hl hf hr⟩
  · rcases step_cases s with ⟨hl, e⟩ | ⟨hl, -, e⟩ | ⟨hl, -, -, e⟩ | ⟨⟨hl, -⟩, e⟩
    · exact iff_of_true e hl
    · exact iff_of_false (by rw [e]; exact nofun) (not_not_intro hl)
    · exact iff_of_false (by rw [e]; exact nofun) (not_not_intro hl)
    · obtain ⟨t, ht⟩ := runStep_next s
      exact iff_of_false (by rw [e, ht]; exact nofun) (not_not_intro hl)
  · rcases step_cases s with ⟨h, -⟩ | ⟨-, -, e⟩ | ⟨-, h, -⟩ | ⟨⟨-, h, -⟩, -⟩
    · exact absurd hl h
    · exact e
    · exact absurd (h.symm.trans hf) nofun
    · exact absurd (h.symm.trans hf) nofun

/-- Settles O25: the state after the count and the fetch is the one the instruction runs in. -/
theorem stepRunsDecodedInstruction : Obligations.StepRunsDecodedInstruction := by
  intro s i h hready hpc hd
  obtain ⟨hword, -, harch, hstat⟩ := fetchWord_spec h hpc
  obtain ⟨hinv, h1⟩ := fetchWord_inv h hpc
  obtain ⟨hcfg, hregs, hfpc, hrun, hreports, hdraws⟩ := fetchWord_frame s
  refine ⟨s.fetchWord.state, ?_, hinv, h1, hcfg, hregs, hfpc, hrun, hreports, hdraws, harch,
    fetchWord_cacheEffects hpc, hstat⟩
  rw [step_ready hready, runStep_word hpc, hword, hd]

/-- Settles O27: the sentinel is the first check of a running step. -/
theorem sentinelHalt : Obligations.SentinelHalt :=
  fun _ hready hpc => (step_ready hready).trans (runStep_sentinel hpc)

/-- Settles O28: the range is the second check of a running step; the last aligned pc is 4 below 2^32. -/
theorem rangeHalt : Obligations.RangeHalt := by
  refine ⟨fun s hready hpc hrange => (step_ready hready).trans (runStep_outOfRange hpc hrange),
    fun s hmem ha => ?_⟩
  have hlt : s.pc.toNat < 2 ^ 32 := s.pc.isLt
  omega

/-- Settles O29: the alignment is the third check of a running step, and the fault stops the CORE with the
configuration and the cache as they were, so a further grant finds it stopped. -/
theorem misalignedFetchFaults : Obligations.MisalignedFetchFaults := by
  intro s hready hpc hrange ha
  refine ⟨_, rfl, (step_ready hready).trans (runStep_misaligned hpc (Nat.not_lt.2 hrange) ha), rfl, nofun, ?_⟩
  obtain ⟨hl, hf, -⟩ := hready
  exact step_stopped hl hf nofun

end Sys2Proof.Machine

namespace Sys2Proof.Machine

/-! ### The R-type instructions (R200 to R216) -/

/-! #### Results as numbers -/

/-- Shifting left multiplies by a power of 2, modulo `2^32` (R201). -/
theorem shiftLeft_eq_ofNat (a : Word) (n : Nat) : a <<< n = BitVec.ofNat 32 (a.toNat * 2 ^ n) := by
  rw [← Nat.shiftLeft_eq]
  rfl

/-- Shifting right divides by a power of 2 (R202). -/
theorem ushiftRight_eq_ofNat (a : Word) (n : Nat) : a >>> n = BitVec.ofNat 32 (a.toNat / 2 ^ n) := by
  have hlt : a.toNat / 2 ^ n < 2 ^ 32 := (Nat.div_le_self _ _).trans_lt a.isLt
  apply BitVec.eq_of_toNat_eq
  rw [BitVec.toNat_ushiftRight, Nat.shiftRight_eq_div_pow, BitVec.toNat_ofNat, Nat.mod_eq_of_lt hlt]

/-- Subtraction is the difference of the unsigned readings, modulo `2^32` (R205). -/
theorem sub_eq_ofInt (a b : Word) : a - b = BitVec.ofInt 32 (a.toNat - b.toNat : Int) := by
  apply BitVec.eq_of_toInt_eq
  rw [BitVec.toInt_sub, BitVec.toInt_ofInt, BitVec.toInt_eq_toNat_bmod, BitVec.toInt_eq_toNat_bmod]
  simp

/-- `slt` and `slti` write 1 exactly when the two's-complement readings compare (R211). -/
theorem truth_lessSigned (a b : Word) :
    truth (lessSigned a b) = if signed a < signed b then 1#32 else 0#32 := by
  simp only [truth, lessSigned, decide_eq_true_eq, signed_eq_toInt]

/-- `sltu` and `sltiu` write 1 exactly when the unsigned readings compare (R212). -/
theorem truth_lessUnsigned (a b : Word) :
    truth (lessUnsigned a b) = if a.toNat < b.toNat then 1#32 else 0#32 := by
  simp only [truth, lessUnsigned, decide_eq_true_eq]

/-! #### Encoding and execution -/

/-- A word with opcode 0 and the function code of a three-register instruction is that instruction, with its
operands from `rd`, `rs` and `rt` (R156, R160). -/
theorem decodeWord_threeReg {w : Word} {i : Instr} {funct : BitVec 6} (hused : usedBits i = 0xFFFFF83F#32)
    (henc : encode i = rWord (rsField w) (rtField w) (rdField w) 0 funct) (hop : opField w = 0)
    (hf : functField w = funct) : decodeWord w = some i := by
  apply decodeWord_of_usedBits
  rw [hused, henc]
  exact threeRegBits_iff.2 ⟨hop, hf, rfl, rfl, rfl⟩

section exec

variable {s : State} {i : Instr} {rd : Reg} {v v' : Word}

/-- An instruction that ends in `rResult` writes its result to `rd` and changes nothing else but the pc and
`nRType` (R200). -/
theorem exec_registerOnly (hi : exec i s = s.rResult rd v') (hv : v' = v) :
    ∃ t, exec i s = .next t ∧ RegisterOnly s t rd v { s.stat with nRType := s.stat.nRType + 1 } := by
  subst hv
  rw [hi]
  exact rResult_next s rd v'

/-- The same, for a result of which every bit is known. -/
theorem exec_bitwise (hi : exec i s = s.rResult rd v) {bit : Nat → Bool}
    (hv : ∀ n, n < 32 → v.getLsbD n = bit n) :
    ∃ t, exec i s = .next t ∧
      ∃ u, RegisterOnly s t rd u { s.stat with nRType := s.stat.nRType + 1 } ∧
        ∀ n, n < 32 → u.getLsbD n = bit n := by
  obtain ⟨t, ht, hr⟩ := exec_registerOnly hi rfl
  exact ⟨t, ht, v, hr, hv⟩

end exec

/-! #### The obligations -/

/-- Settles O6: the two results are those of `rResult`, as a product and a quotient. -/
theorem shiftResults : Obligations.ShiftResults :=
  ⟨fun _ hop hf => decodeWord_of_usedBits (shiftBits_iff.2 ⟨hop, hf, rfl, rfl, rfl⟩),
    fun _ hop hf => decodeWord_of_usedBits (shiftBits_iff.2 ⟨hop, hf, rfl, rfl, rfl⟩),
    fun _ _ shamt _ => ⟨exec_registerOnly rfl (shiftLeft_eq_ofNat _ shamt.toNat),
      exec_registerOnly rfl (ushiftRight_eq_ofNat _ shamt.toNat)⟩⟩

/-- Settles O7: `add` and `addu` are the one sum, `sub` and `subu` the one difference. -/
theorem addSubtractResults : Obligations.AddSubtractResults :=
  ⟨fun _ => decodeWord_threeReg rfl rfl, fun _ => decodeWord_threeReg rfl rfl,
    fun _ => decodeWord_threeReg rfl rfl, fun _ => decodeWord_threeReg rfl rfl,
    fun _ _ _ _ => ⟨exec_registerOnly rfl (BitVec.add_def _ _), exec_registerOnly rfl (BitVec.add_def _ _),
      exec_registerOnly rfl (sub_eq_ofInt _ _), exec_registerOnly rfl (sub_eq_ofInt _ _)⟩⟩

/-- Settles O8: the four results are the word operations, whose bits the library gives. -/
theorem logicResults : Obligations.LogicResults := by
  refine ⟨fun _ => decodeWord_threeReg rfl rfl, fun _ => decodeWord_threeReg rfl rfl,
    fun _ => decodeWord_threeReg rfl rfl, fun _ => decodeWord_threeReg rfl rfl,
    fun rd rs rt s => ⟨?_, ?_, ?_, ?_⟩⟩
  · exact exec_bitwise rfl fun n _ => BitVec.getLsbD_and
  · exact exec_bitwise rfl fun n _ => BitVec.getLsbD_or
  · exact exec_bitwise rfl fun n _ => BitVec.getLsbD_xor
  · refine exec_bitwise rfl fun n hn => ?_
    rw [BitVec.getLsbD_not, decide_eq_true hn, Bool.true_and, BitVec.getLsbD_or]

/-- Settles O9: the comparison of the sources as `truth` writes it. -/
theorem setOnLessResults : Obligations.SetOnLessResults :=
  ⟨fun _ => decodeWord_threeReg rfl rfl, fun _ => decodeWord_threeReg rfl rfl,
    fun _ _ _ _ => ⟨exec_registerOnly rfl (truth_lessSigned _ _),
      exec_registerOnly rfl (truth_lessUnsigned _ _)⟩⟩

/-- Counting a class and moving the pc leave a ready CORE ready. -/
theorem ready_setPc {s : State} (h : s.Ready) (k : InstrClass) (v : Word) :
    ((s.dispatched k).setPc v).Ready := h

/-- Settles O10: the jump leaves a ready CORE at the register's value, where the next step's checks are those
of `sentinelHalt`, `rangeHalt` and `misalignedFetchFaults`. -/
theorem jumpRegister : Obligations.JumpRegister := by
  refine ⟨fun w hop hf => decodeWord_of_usedBits (jrBits_iff.2 ⟨hop, hf, rfl⟩), fun rs s =>
    ⟨(s.dispatched .rType).setPc (s.reg rs), rfl, pcOnly_setPc s .rType (s.reg rs), fun hready => ?_⟩⟩
  have hr := ready_setPc hready .rType (s.reg rs)
  refine ⟨sentinelHalt _ hr, rangeHalt.1 _ hr, fun hpc hrange ha => ?_⟩
  obtain ⟨u, -, hstep, hfault, -⟩ := misalignedFetchFaults _ hr hpc hrange ha
  exact ⟨u, hstep, hfault⟩

end Sys2Proof.Machine

namespace Sys2Proof.Machine

/-! ### The jumps (R230, R231) -/

/-- A word is its bits 31..28, 27..2 and 1..0: the parts a jump target is put together from (R230). -/
theorem targetParts_append (w : Word) : w.extractLsb' 28 4 ++ w.extractLsb' 2 26 ++ w.extractLsb' 0 2 = w := by
  simp (disch := rfl) only [BitVec.extractLsb'_append_extractLsb'_eq_extractLsb', BitVec.extractLsb'_eq_self]

/-- The mask leaves the region bits, the shift puts the target field below them (R230). -/
theorem jumpTarget_eq (pc : Word) (target : Target) :
    jumpTarget pc target = (pc &&& 0xF0000000#32) ||| (target.zeroExtend 32 <<< 2) := by
  have hmask : 0xF0000000#32 = BitVec.allOnes 4 ++ 0#26 ++ 0#2 := rfl
  have hregion : pc &&& 0xF0000000#32 = pc.extractLsb' 28 4 ++ 0#26 ++ 0#2 := by
    nth_rw 1 [hmask, ← targetParts_append pc]
    rw [BitVec.and_append, BitVec.and_append, BitVec.and_allOnes, BitVec.and_zero, BitVec.and_zero]
  have hfield : target.zeroExtend 32 <<< 2 = 0#4 ++ target ++ 0#2 := by
    have hlt : target.toNat < 2 ^ 26 := target.isLt
    apply BitVec.eq_of_toNat_eq
    rw [toNat_append_eq, toNat_append_eq, BitVec.toNat_shiftLeft, Nat.shiftLeft_eq, BitVec.toNat_setWidth,
      BitVec.toNat_ofNat, BitVec.toNat_ofNat]
    omega
  rw [hregion, hfield, BitVec.or_append, BitVec.or_append, BitVec.or_zero, BitVec.zero_or, BitVec.or_zero,
    jumpTarget]

/-- Settles O11: `j` moves only the pc; `jal` also writes `pc + 4` to register 31, and its frame is that of
an effect without a data access. -/
theorem jumpResults : Obligations.JumpResults := by
  refine ⟨fun w hop => decodeWord_of_usedBits (targetBits_iff.2 ⟨hop, rfl⟩),
    fun w hop => decodeWord_of_usedBits (targetBits_iff.2 ⟨hop, rfl⟩), fun target s => ?_⟩
  rw [← jumpTarget_eq]
  obtain ⟨hmemory, hrest⟩ :=
    perform_internal_rest s .jump false linkReg (nextPc s.pc) (jumpTarget s.pc target)
  exact ⟨jumpTarget_aligned s.pc target, ⟨_, rfl, pcOnly_setPc s .jump _⟩,
    ⟨_, exec_eq_perform (.jal target) s, setReg_reg_same s linkReg (nextPc s.pc),
      fun q hq => setReg_reg_other s (nextPc s.pc) hq, rfl, hmemory, rfl, hrest⟩⟩

end Sys2Proof.Machine

namespace Sys2Proof.Machine

/-! ### The branches (R240 to R242) -/

/-- A sign-extended immediate is a number of 16 bits in two's complement (R11). -/
theorem signedImm_range (imm : Imm16) : -32768 ≤ signedImm imm ∧ signedImm imm ≤ 32767 := by
  rw [signedImm_eq_toInt]
  exact ⟨BitVec.le_toInt imm, Int.le_of_lt_add_one BitVec.toInt_lt⟩

section branch

variable {s : State} {i : Instr} {cond : Bool} {imm : Imm16}

/-- A branch whose condition holds moves `nBranch` and `nBranchTaken`, and sends the pc to its target (R240). -/
theorem exec_branch_taken (hi : exec i s = s.branchIf cond imm) (hc : cond = true) :
    ∃ t, exec i s = .next t ∧ PcOnly s t (BitVec.ofInt 32 (s.pc.toNat + 4 + signedImm imm * 4))
      { s.stat with nBranch := s.stat.nBranch + 1, nBranchTaken := s.stat.nBranchTaken + 1 } := by
  subst hc
  rw [hi, ← branchTarget_eq]
  exact ⟨_, rfl, pcOnly_taken s (branchTarget s.pc imm)⟩

/-- A branch whose condition fails moves `nBranch` only and advances (R240). -/
theorem exec_branch_notTaken (hi : exec i s = s.branchIf cond imm) (hc : cond = false) :
    ∃ t, exec i s = .next t ∧ PcOnly s t (s.pc + 4#32) { s.stat with nBranch := s.stat.nBranch + 1 } := by
  subst hc
  rw [hi]
  exact ⟨_, rfl, pcOnly_setPc s .branch (nextPc s.pc)⟩

end branch

/-- Settles O12: `beq` branches on `sameWord` of its sources, `bne` on its negation; the target is
`branchTarget`, which keeps the alignment of the pc. -/
theorem branchResults : Obligations.BranchResults := by
  refine ⟨fun w hop => decodeWord_of_usedBits (immBits_iff.2 ⟨hop, rfl, rfl, rfl⟩),
    fun w hop => decodeWord_of_usedBits (immBits_iff.2 ⟨hop, rfl, rfl, rfl⟩), fun rs rt imm s => ?_⟩
  obtain ⟨hlow, hhigh⟩ := signedImm_range imm
  refine ⟨by omega, by omega, fun ha => ?_, fun heq => ?_, fun hne => ?_⟩
  · rw [← branchTarget_eq]
    exact branchTarget_aligned imm ha
  · have hsame : sameWord (s.reg rs) (s.reg rt) = true := decide_eq_true heq
    exact ⟨exec_branch_taken rfl hsame, exec_branch_notTaken rfl (congrArg (!·) hsame)⟩
  · have hsame : sameWord (s.reg rs) (s.reg rt) = false := decide_eq_false hne
    exact ⟨exec_branch_notTaken rfl hsame, exec_branch_taken rfl (congrArg (!·) hsame)⟩

end Sys2Proof.Machine

namespace Sys2Proof.Machine

/-! ### The immediate ALU instructions (R250 to R258) -/

/-! #### Operands as numbers and bits (R11, R153) -/

/-- A sign-extended immediate reads in two's complement as the number it stands for. -/
@[simp] theorem signed_sext32 (imm : Imm16) : signed (sext32 imm) = signedImm imm := by
  rw [signed_eq_toInt, signedImm_eq_toInt, sext32, BitVec.toInt_signExtend_of_le (by decide)]

/-- The unsigned reading of a sign-extended immediate: a negative one has the upper 16 bits set (R254). -/
theorem toNat_sext32 (imm : Imm16) :
    (sext32 imm).toNat = if imm.toNat < 2 ^ 15 then imm.toNat else imm.toNat + (2 ^ 32 - 2 ^ 16) := by
  have hext : (sext32 imm).toNat = imm.toNat + if imm.msb then 2 ^ 32 - 2 ^ 16 else 0 := by
    rw [sext32, BitVec.toNat_signExtend, BitVec.toNat_setWidth_of_le (by decide)]
  by_cases hsign : imm.toNat < 2 ^ 15
  · have hmsb : imm.msb = false := BitVec.msb_eq_false_iff_two_mul_lt.2 (by omega)
    rw [hext, hmsb, if_pos hsign]
    rfl
  · have hmsb : imm.msb = true := BitVec.msb_eq_true_iff_two_mul_ge.2 (by omega)
    rw [hext, hmsb, if_neg hsign, if_pos rfl]

/-- Below bit 16 a zero-extended immediate has the immediate's bits. -/
theorem getLsbD_zext32_low (imm : Imm16) {n : Nat} (hn : n < 16) :
    (zext32 imm).getLsbD n = imm.getLsbD n := by
  have hn32 : n < 32 := by omega
  rw [zext32, BitVec.zeroExtend_eq_setWidth, BitVec.getLsbD_setWidth, decide_eq_true hn32, Bool.true_and]

/-- From bit 16 on a zero-extended immediate is 0. -/
theorem getLsbD_zext32_high (imm : Imm16) {n : Nat} (hn : 16 ≤ n) : (zext32 imm).getLsbD n = false := by
  rw [zext32, BitVec.zeroExtend_eq_setWidth, BitVec.getLsbD_setWidth, BitVec.getLsbD_of_ge imm n hn,
    Bool.and_false]

/-- The `lui` operand is the immediate times `2^16` (R258). -/
theorem upperImm_eq_ofNat (imm : Imm16) : upperImm imm = BitVec.ofNat 32 (imm.toNat * 2 ^ 16) := by
  have hlt : imm.toNat < 2 ^ 16 := imm.isLt
  apply BitVec.eq_of_toNat_eq
  rw [upperImm, toNat_append_eq, BitVec.toNat_ofNat, BitVec.toNat_ofNat]
  omega

/-! #### Encoding and execution -/

/-- A word with the opcode of an instruction of `rt`, `rs` and an immediate is that instruction (R151, R155). -/
theorem decodeWord_immediate {w : Word} {i : Instr} {op : BitVec 6} (hused : usedBits i = 0xFFFFFFFF#32)
    (henc : encode i = iWord op (rsField w) (rtField w) (immField w)) (hop : opField w = op) :
    decodeWord w = some i := by
  apply decodeWord_of_usedBits
  rw [hused, henc]
  exact immBits_iff.2 ⟨hop, rfl, rfl, rfl⟩

section exec

variable {s : State} {i : Instr} {rt : Reg} {v v' : Word}

/-- An instruction that ends in `iResult` writes its result to `rt` and changes nothing else but the pc and
`nImmAlu` (R250). -/
theorem exec_immAlu (hi : exec i s = s.iResult rt v') (hv : v' = v) :
    ∃ t, exec i s = .next t ∧ RegisterOnly s t rt v { s.stat with nImmAlu := s.stat.nImmAlu + 1 } := by
  subst hv
  rw [hi]
  exact iResult_next s rt v'

/-- The same for a result that combines `a` with a zero-extended immediate bit by bit by `op`: the low half is
`op` of the two, the upper half `op` of `a` and 0 (R255 to R257). -/
theorem exec_zext32_bitwise {a : Word} {imm : Imm16} {op : Bool → Bool → Bool} {high : Bool → Bool}
    (hi : exec i s = s.iResult rt v)
    (hv : ∀ n, v.getLsbD n = op (a.getLsbD n) ((zext32 imm).getLsbD n)) (hhigh : ∀ x, op x false = high x) :
    ∃ t, exec i s = .next t ∧
      ∃ u, RegisterOnly s t rt u { s.stat with nImmAlu := s.stat.nImmAlu + 1 } ∧
        (∀ n, n < 16 → u.getLsbD n = op (a.getLsbD n) (imm.getLsbD n)) ∧
        (∀ n, 16 ≤ n → n < 32 → u.getLsbD n = high (a.getLsbD n)) := by
  obtain ⟨t, ht, hr⟩ := exec_immAlu hi rfl
  refine ⟨t, ht, v, hr, fun n hn => ?_, fun n hn _ => ?_⟩
  · rw [hv, getLsbD_zext32_low imm hn]
  · rw [hv, getLsbD_zext32_high imm hn, hhigh]

end exec

/-! #### The obligations -/

/-- Settles O13: `addi` and `addiu` are the one sum with the sign-extended immediate. -/
theorem addImmediateResults : Obligations.AddImmediateResults :=
  ⟨fun _ => decodeWord_immediate rfl rfl, fun _ => decodeWord_immediate rfl rfl,
    fun _ _ imm _ => ⟨exec_immAlu rfl (add_sext32 _ imm), exec_immAlu rfl (add_sext32 _ imm)⟩⟩

/-- Settles O14: both compare with the sign-extended immediate, by its signed and its unsigned reading. -/
theorem setOnLessImmediateResults : Obligations.SetOnLessImmediateResults := by
  refine ⟨fun _ => decodeWord_immediate rfl rfl, fun _ => decodeWord_immediate rfl rfl,
    fun rt rs imm s => ⟨exec_immAlu rfl ?_, exec_immAlu rfl ?_⟩⟩
  · rw [truth_lessSigned, signed_sext32]
  · rw [truth_lessUnsigned, toNat_sext32]

/-- Settles O15: the word operations with the zero-extended immediate, whose upper half is 0. -/
theorem logicImmediateResults : Obligations.LogicImmediateResults := by
  refine ⟨fun _ => decodeWord_immediate rfl rfl, fun _ => decodeWord_immediate rfl rfl,
    fun _ => decodeWord_immediate rfl rfl, fun rt rs imm s => ⟨?_, ?_, ?_⟩⟩
  · exact exec_zext32_bitwise rfl (fun _ => BitVec.getLsbD_and) Bool.and_false
  · exact exec_zext32_bitwise rfl (fun _ => BitVec.getLsbD_or) Bool.or_false
  · exact exec_zext32_bitwise rfl (fun _ => BitVec.getLsbD_xor) Bool.xor_false

/-- Settles O16: the encoding leaves `rs` unused, and the operand is the immediate times `2^16`. -/
theorem loadUpperImmediate : Obligations.LoadUpperImmediate :=
  ⟨fun _ hop => decodeWord_of_usedBits (luiBits_iff.2 ⟨hop, rfl, rfl⟩),
    fun _ imm _ => exec_immAlu rfl (upperImm_eq_ofNat imm)⟩

end Sys2Proof.Machine

namespace Sys2Proof.Machine

/-! ### The memory instructions (R270 to R272) -/

/-- The state with the class, a completed access to `ea` and the access itself counted, before the register
write and the pc (R270). -/
def State.accessed (s : State) (ea : Word) (dir : Direction) : State :=
  ((s.dispatched .memory).transact ea.toNat dir).state.countMemAccess

/-! #### A completed access -/

/-- What `lw` and `sw` share once their access has completed: its effects, its counters and its frame (R270). -/
structure AccessDone (s t : State) (ea : Word) (dir : Direction) : Prop where
  pc : t.pc = s.pc + 4#32
  effects : CacheEffects (s.dispatched .memory) t ea dir
  justUsed : JustUsed t ea.toNat s.stat.nInstr
  stat : t.stat = accessStats { s.stat with nMemory := s.stat.nMemory + 1,
                                            nMemAccess := s.stat.nMemAccess + 1 }
    (s.lookup ea.toNat).isSome s.cfg.missPenalty
  cfg : t.cfg = s.cfg
  run : t.run = s.run
  reports : t.reports = s.reports
  wordDraws : t.wordDraws = s.wordDraws

/-- Which block was used last can be told from the configuration and the cache. -/
theorem justUsed_congr {u t : State} {a stamp : Nat} (hc : t.cfg = u.cfg) (hk : t.cache = u.cache)
    (h : JustUsed u a stamp) : JustUsed t a stamp := by
  unfold JustUsed State.lookup State.lineOf State.lineAt State.setAt at h ⊢
  rwa [hc, hk]

section accessed

variable {s : State} {ea : Word} {dir : Direction}

/-- The counter of data accesses is none of those a hit or a miss moves. -/
theorem accessStats_countMemAccess (st : Stats) (hit : Bool) (penalty : Nat) :
    { accessStats st hit penalty with nMemAccess := (accessStats st hit penalty).nMemAccess + 1 } =
      accessStats { st with nMemAccess := st.nMemAccess + 1 } hit penalty := by
  cases hit <;> rfl

/-- The counters of a memory instruction whose access completes (R105, R111, R270). -/
theorem accessed_stat (s : State) (ea : Word) (dir : Direction) :
    (s.accessed ea dir).stat = accessStats { s.stat with nMemory := s.stat.nMemory + 1,
                                                         nMemAccess := s.stat.nMemAccess + 1 }
      (s.lookup ea.toNat).isSome s.cfg.missPenalty := by
  rw [State.accessed, countMemAccess_stat, transact_accessStats]
  exact accessStats_countMemAccess _ _ _

/-- A register write and the move of the pc keep what the access left. -/
theorem accessed_done (h : s.Inv) (h1 : 1 ≤ s.stat.nInstr) (ok : AccessOk s.cfg ea) (r : Reg) (v : Word) :
    AccessDone s ((s.accessed ea dir).setReg r v).advance ea dir := by
  obtain ⟨hcfg, -, hpc, hrun, hreports, hwords⟩ := transact_frame (s.dispatched .memory) ea.toNat dir
  have hused : JustUsed (s.accessed ea dir) ea.toNat s.stat.nInstr :=
    transact_justUsed (dispatched_inv h .memory) h1 ok.1 ok.2
  exact
    { pc := (congrArg nextPc (setReg_pc _ r v)).trans (congrArg nextPc hpc)
      effects := cacheEffects_of_transact (s := s.dispatched .memory) ok (setReg_mem _ r v)
        (setReg_cache _ r v) (setReg_wayDraws _ r v)
      justUsed := justUsed_congr (setReg_cfg _ r v) (setReg_cache _ r v) hused
      stat := (setReg_stat _ r v).trans (accessed_stat s ea dir)
      cfg := (setReg_cfg _ r v).trans hcfg
      run := (setReg_run _ r v).trans hrun
      reports := (setReg_reports _ r v).trans hreports
      wordDraws := (setReg_wordDraws _ r v).trans hwords }

/-- A completed access writes no register. -/
theorem accessed_reg (s : State) (ea : Word) (dir : Direction) (q : Reg) :
    (s.accessed ea dir).reg q = s.reg q := by
  obtain ⟨-, hregs, -⟩ := transact_frame (s.dispatched .memory) ea.toNat dir
  exact reg_congr (s := s) hregs q

/-- A `lw` whose address is in range completes with the word a load sees there (R271). -/
theorem exec_lw_completed {rt rs : Reg} {imm : Imm16} (h : s.Inv) (h1 : 1 ≤ s.stat.nInstr)
    (hea : effectiveAddress (s.reg rs) imm = ea) (ok : AccessOk s.cfg ea) :
    exec (.lw rt rs imm) s =
      .next ((s.accessed ea .read).setReg rt (s.archWord ea.toNat)).advance := by
  have hword : ((s.dispatched .memory).transact ea.toNat .read).word = s.archWord ea.toNat :=
    transact_word_read (dispatched_inv h .memory) h1 ok.1 ok.2
  rw [exec_eq_perform, effectOf, State.perform, hea, cacheAccess_ok (s := s.dispatched .memory) ok,
    loadResult_completed, hword]
  rfl

/-- A completed `sw` moves the pc on from its counted access: a register write to register 0 (R22, R272). -/
theorem stored_done (h : s.Inv) (h1 : 1 ≤ s.stat.nInstr) (ok : AccessOk s.cfg ea) (w : Word) :
    AccessDone s (s.stored ea w) ea (.write w) :=
  accessed_done h h1 ok 0#5 0#32

/-- The line a completed `sw` leaves is dirty exactly under `WriteBack` (R112). -/
theorem stored_dirty (h : s.Inv) (h1 : 1 ≤ s.stat.nInstr) (ok : AccessOk s.cfg ea) (w : Word) :
    ∃ k, (s.stored ea w).lookup ea.toNat = some k ∧
      (((s.stored ea w).lineOf ea.toNat k).dirty = true ↔ s.cfg.wpol = .writeBack) := by
  obtain ⟨u, k, -, hu, hway, hk, hserved⟩ :=
    transact_servedLine (dir := .write w) (dispatched_inv h .memory) h1 ok.1 ok.2
  have hline : (s.stored ea w).lineOf ea.toNat k = servedLine u ea.toNat k (.write w) := hserved
  have hinv := stored_inv w h h1 ok
  have hcfg : (s.stored ea w).cfg = s.cfg := stored_cfg w
  refine ⟨k, hk, fun hdirty => ?_, fun hp => ?_⟩
  · exact hcfg ▸ (hinv.dirty _ _ (setIndexOf_lt hinv.legal _) (hcfg ▸ hway) hdirty).2
  · have hp' : u.cfg.wpol = .writeBack := hu ▸ hp
    rw [hline, servedLine_dirty, hp']

end accessed

/-! #### A rejected access -/

section rejected

variable {s : State} {rt rs : Reg} {imm : Imm16} {ea : Word} {kind : Rejection}

/-- A `lw` whose access is rejected emits its record and writes the next draw (R271). -/
theorem exec_lw_rejected (hea : effectiveAddress (s.reg rs) imm = ea)
    (e : rejectionOf s.cfg ea = some kind) : exec (.lw rt rs imm) s =
      .next ((((s.dispatched .memory).report (rejectionReport kind .load ea)).drawnWord.setReg rt
        s.unspec32).advance) := by
  rw [exec_eq_perform, effectOf, State.perform, hea, cacheAccess_rejected (s := s.dispatched .memory) e]
  rfl

/-- A `sw` whose access is rejected emits its record (R272). -/
theorem exec_sw_rejected (hea : effectiveAddress (s.reg rs) imm = ea)
    (e : rejectionOf s.cfg ea = some kind) : exec (.sw rt rs imm) s =
      .next ((s.dispatched .memory).report (rejectionReport kind .store ea)).advance := by
  rw [exec_eq_perform, effectOf, State.perform, hea, cacheAccess_rejected (s := s.dispatched .memory) e]
  rfl

end rejected

/-! #### The obligations -/

/-- Settles O17: the counted access (`accessed_done`) and the word it delivers (`exec_lw_completed`); a read
changes no byte a load sees, and main memory by its write-back only. -/
theorem loadWordCompletes : Obligations.LoadWordCompletes := by
  refine ⟨fun _ => decodeWord_immediate rfl rfl, ?_⟩
  intro rt rs imm s ea h h1 ok
  have hinv := dispatched_inv h .memory
  have hevict : EvictedOnly s (s.accessed ea .read) ea.toNat := transact_evictedOnly hinv _ .read nofun
  obtain ⟨hpc, heffects, hused, hstat, hcfg, hrun, hreports, hwords⟩ :=
    accessed_done (dir := .read) h h1 ok rt (s.archWord ea.toNat)
  refine ⟨_, exec_lw_completed h h1 (effectiveAddress_eq _ _) ok, setReg_reg_same _ _ _,
    fun q hq => ?_, hpc, fun b => ?_, fun b => ?_, heffects, hused, hstat, hcfg, hrun, hreports, hwords⟩
  · exact (setReg_reg_other _ _ hq).trans (accessed_reg s ea .read q)
  · exact (setReg_archMem _ _ _ b).trans (transact_archMem_other hinv h1 ok.1 ok.2 nofun)
  · rw [advance_mem, setReg_mem]
    exact hevict b

/-- Settles O18: both rejections end in the state of `exec_lw_rejected`. -/
theorem loadWordRejected : Obligations.LoadWordRejected := by
  intro rt rs imm s ea rejected
  have hrejected : ∀ kind, rejectionOf s.cfg ea = some kind → rejected (rejectionReport kind .load ea) := by
    intro kind e
    exact ⟨_, exec_lw_rejected (effectiveAddress_eq _ _) e, setReg_reg_same _ rt _,
      setReg_wordDraws _ rt _, fun _ hq => setReg_reg_other _ _ hq, congrArg nextPc (setReg_pc _ rt _),
      ⟨fun a => congrArg (Memory.read · a) (setReg_mem _ rt _), setReg_archMem _ rt _,
        setReg_cache _ rt _⟩,
      setReg_stat _ rt _, setReg_reports _ rt _, setReg_cfg _ rt _, setReg_run _ rt _,
      setReg_wayDraws _ rt _⟩
  exact ⟨fun ha => hrejected _ (rejectionOf_misaligned ha),
    fun ha hr => hrejected _ (rejectionOf_outside ha hr)⟩

/-- Settles O19: the counted access (`stored_done`), the bytes a load then sees, and main memory by the
write policy. -/
theorem storeWordCompletes : Obligations.StoreWordCompletes := by
  refine ⟨fun _ => decodeWord_immediate rfl rfl, ?_⟩
  intro rt rs imm s ea h h1 ok
  have hea : effectiveAddress (s.reg rs) imm = ea := effectiveAddress_eq _ _
  have hinv := dispatched_inv h .memory
  obtain ⟨hpc, heffects, hused, hstat, hcfg, hrun, hreports, hwords⟩ :=
    stored_done h h1 ok (s.reg rt)
  refine ⟨s.stored ea (s.reg rt), hea ▸ exec_sw_completed (hea ▸ ok), accessed_reg s ea _, hpc,
    fun j hj => transact_archMem_written hinv h1 ok.1 ok.2 hj,
    fun b hb => transact_archMem_other hinv h1 ok.1 ok.2 fun _ _ => hb,
    transact_writeThrough hinv ea.toNat (s.reg rt), fun hp => ?_, stored_dirty h h1 ok _,
    heffects, hused, hstat, hcfg, hrun, hreports, hwords⟩
  have hevict : EvictedOnly s (s.stored ea (s.reg rt)) ea.toNat :=
    transact_evictedOnly hinv ea.toNat _ fun _ _ => hp
  exact ⟨hevict, fun j hj => EvictedOnly_word h ok.1 hevict hj⟩

/-- Settles O20: both rejections end in the state of `exec_sw_rejected`. -/
theorem storeWordRejected : Obligations.StoreWordRejected := by
  intro rt rs imm s ea rejected
  have hrejected : ∀ kind, rejectionOf s.cfg ea = some kind → rejected (rejectionReport kind .store ea) :=
    fun kind e => ⟨_, exec_sw_rejected (effectiveAddress_eq _ _) e, fun _ => rfl, rfl,
      ⟨fun _ => rfl, fun _ => rfl, rfl⟩, rfl, rfl, rfl, rfl, rfl, rfl⟩
  exact ⟨fun ha => hrejected _ (rejectionOf_misaligned ha),
    fun ha hr => hrejected _ (rejectionOf_outside ha hr)⟩

end Sys2Proof.Machine

namespace Sys2Proof.Machine

/-! ### The counters a step moves (R280 to R283)

A step adds amounts to the counters and reads none of them but `nInstr`. `step_moves` says so once for every
step, with the relations of R283 between the amounts and the new records. -/

/-- The counters `x` after each has moved by its amount in `d`. -/
def Stats.plus (x d : Stats) : Stats :=
  ⟨x.nInstr + d.nInstr, x.nRType + d.nRType, x.nJump + d.nJump, x.nBranch + d.nBranch,
    x.nBranchTaken + d.nBranchTaken, x.nImmAlu + d.nImmAlu, x.nMemory + d.nMemory,
    x.nMemAccess + d.nMemAccess, x.nHit + d.nHit, x.nMiss + d.nMiss, x.cycles + d.cycles⟩

theorem plus_assoc (x d e : Stats) : (x.plus d).plus e = x.plus (d.plus e) := by
  simp only [Stats.plus, Nat.add_assoc]

/-- `s` with other counters. -/
def State.withStat (s : State) (x : Stats) : State := { s with stat := x }

/-! #### The relations of R283, for amounts -/

/-- The relations of R283 between the amounts `d` and the records `new`, under the configuration `c`. -/
def Balanced (c : Config) (d : Stats) (new : List Report) : Prop :=
  State.StatsBalanced { State.resetWith c with stat := d, reports := new }

/-- The relations of a state are those of its configuration, counters and records. -/
theorem statsBalanced_iff (s : State) : s.StatsBalanced ↔ Balanced s.cfg s.stat s.reports :=
  ⟨fun ⟨a, b, c, d, e⟩ => ⟨a, b, c, d, e⟩, fun ⟨a, b, c, d, e⟩ => ⟨a, b, c, d, e⟩⟩

theorem countUnsupported_append (rs new : List Report) :
    countUnsupported (rs ++ new) = countUnsupported rs + countUnsupported new := by
  induction rs with
  | nil => simp [countUnsupported]
  | cons r rs ih =>
    cases r <;> simp only [List.cons_append, countUnsupported, ih]
    omega

theorem countRejected_append (rs new : List Report) :
    countRejected (rs ++ new) = countRejected rs + countRejected new := by
  induction rs with
  | nil => simp [countRejected]
  | cons r rs ih =>
    rcases r with ⟨_ | d, a⟩ | ⟨d, a⟩ | ⟨pc, ir⟩ <;> simp only [List.cons_append, countRejected, ih]
    · omega
    · omega

/-- The relations are linear: balanced amounts keep balanced counters balanced. -/
theorem Balanced.plus {c : Config} {x d : Stats} {rs new : List Report} (hx : Balanced c x rs)
    (hd : Balanced c d new) : Balanced c (x.plus d) (rs ++ new) := by
  obtain ⟨i, a, cy, t, r⟩ := hx
  obtain ⟨i', a', cy', t', r'⟩ := hd
  dsimp only at i a cy t r i' a' cy' t' r'
  constructor <;>
    simp only [Stats.plus, countUnsupported_append, countRejected_append, Nat.add_mul] <;> omega


/-! #### An operation that moves counters -/

/-- `f` moves the counters of `s` by `d` and adds the records `new`; it reads no counter but `nInstr`. -/
structure Moves (f : State → State) (s : State) (d : Stats) (new : List Report) : Prop where
  stat : ∀ x : Stats, x.nInstr = s.stat.nInstr → f (s.withStat x) = (f s).withStat (x.plus d)
  reports : (f s).reports = s.reports ++ new

/-- The amounts of a completed access, hit or miss (R105, R111). -/
def Stats.ofAccess (hit : Bool) (penalty : Nat) : Stats := accessStats Stats.reset hit penalty

theorem accessStats_eq_plus (x : Stats) (hit : Bool) (penalty : Nat) :
    accessStats x hit penalty = x.plus (.ofAccess hit penalty) := by
  cases hit <;> simp [accessStats, Stats.ofAccess, Stats.plus, Stats.reset]

/-- The amounts of a fetch: an instruction and a completed access (R184, R185). -/
def Stats.ofFetch (hit : Bool) (penalty : Nat) : Stats :=
  { Stats.ofAccess hit penalty with nInstr := 1 }

theorem fetchStats_eq_plus (x : Stats) (hit : Bool) (penalty : Nat) :
    accessStats { x with nInstr := x.nInstr + 1 } hit penalty = x.plus (.ofFetch hit penalty) := by
  cases hit <;> simp [accessStats, Stats.ofFetch, Stats.ofAccess, Stats.plus, Stats.reset]

theorem countExec_eq_plus (x : Stats) (k : InstrClass) (taken : Bool) :
    x.countExec k taken = x.plus (Stats.reset.countExec k taken) := by
  cases k <;> simp [Stats.countExec, Stats.countClass, Stats.plus, Stats.reset]

theorem setReg_withStat (s : State) (x : Stats) (r : Reg) (v : Word) :
    (s.withStat x).setReg r v = (s.setReg r v).withStat x := by
  unfold State.setReg; split <;> rfl

/-- A completed access reads the instruction count, its recency stamp, and no other counter (R105, R108). -/
theorem transact_withStat (s : State) {x : Stats} (hx : x.nInstr = s.stat.nInstr) (a : Nat)
    (dir : Direction) :
    (s.withStat x).transact a dir =
      ⟨(s.transact a dir).hit, (s.transact a dir).word,
        (s.transact a dir).state.withStat (accessStats x (s.lookup a).isSome s.cfg.missPenalty)⟩ := by
  obtain ⟨n⟩ := x
  obtain rfl : n = s.stat.nInstr := hx
  have e : ∀ y, (s.withStat y).lookup a = s.lookup a := fun _ => rfl
  cases h : s.lookup a with
  | none => rw [transact_miss h, transact_miss ((e _).trans h)]; rfl
  | some k => rw [transact_hit h, transact_hit ((e _).trans h)]; rfl

theorem fetchWord_withStat (s : State) {x : Stats} (hx : x.nInstr = s.stat.nInstr) :
    (s.withStat x).fetchWord =
      ⟨s.fetchWord.hit, s.fetchWord.word, s.fetchWord.state.withStat
        (x.plus (.ofFetch (s.lookup s.pc.toNat).isSome s.cfg.missPenalty))⟩ := by
  rw [← fetchStats_eq_plus]
  exact transact_withStat s.countInstr (congrArg Nat.succ hx) s.pc.toNat .read

theorem fetchWord_nInstr (s : State) : s.fetchWord.state.stat.nInstr = s.stat.nInstr + 1 :=
  transact_nInstr s.countInstr _ _

/-! #### The memory instructions -/

/-- The accesses `nMemAccess` counts: those that complete (R270). -/
def AccessResult.completed : AccessResult → Nat
  | .hit _ | .miss _ => 1
  | .rejected _ => 0

/-- The amounts of an access with this result: a rejected one moves no counter (R284). -/
def AccessResult.amounts (penalty : Nat) : AccessResult → Stats
  | .hit _ => .ofAccess true penalty
  | .miss _ => .ofAccess false penalty
  | .rejected _ => Stats.reset

/-- The records of an access with this result (R302, R303). -/
def AccessResult.records (src : DataSource) (a : Word) : AccessResult → List Report
  | .hit _ | .miss _ => []
  | .rejected kind => [rejectionReport kind src a]

/-- The amounts of a memory instruction whose access has this result (R270, R281). -/
def AccessResult.instrAmounts (penalty : Nat) (r : AccessResult) : Stats :=
  { r.amounts penalty with nMemory := 1, nMemAccess := r.completed }

/-- `CacheAccess` moves the counters by the amounts of its result. -/
theorem cacheAccess_withStat (s : State) {x : Stats} (hx : x.nInstr = s.stat.nInstr) (a : Word)
    (dir : Direction) :
    (s.withStat x).cacheAccess a dir =
      ((s.cacheAccess a dir).1, (s.cacheAccess a dir).2.withStat
        (x.plus ((s.cacheAccess a dir).1.amounts s.cfg.missPenalty))) := by
  cases e : rejectionOf s.cfg a with
  | some kind => rw [cacheAccess_rejected e, cacheAccess_rejected (s := s.withStat x) e]; rfl
  | none =>
    have ok := rejectionOf_none e
    rw [cacheAccess_ok ok, cacheAccess_ok (s := s.withStat x) ok, transact_withStat s hx, transact_isHit,
      accessStats_eq_plus]
    cases (s.lookup a.toNat).isSome <;> rfl

theorem cacheAccess_reports (s : State) (a : Word) (dir : Direction) :
    (s.cacheAccess a dir).2.reports = s.reports ++ (s.cacheAccess a dir).1.records dir.source a := by
  cases e : rejectionOf s.cfg a with
  | some kind => rw [cacheAccess_rejected e]; rfl
  | none =>
    obtain ⟨-, -, -, -, hreports, -⟩ := transact_frame s a.toNat dir
    rw [cacheAccess_ok (rejectionOf_none e)]
    refine (hreports.trans (List.append_nil _).symm).trans ?_
    cases (s.transact a.toNat dir).hit <;> rfl

theorem loadResult_withStat (rt : Reg) (r : AccessResult) (u : State) (x : Stats) :
    loadResult rt (r, u.withStat x) =
      (loadResult rt (r, u)).withStat { x with nMemAccess := x.nMemAccess + r.completed } := by
  cases r with
  | hit v | miss v => exact congrArg State.advance (setReg_withStat u.countMemAccess _ rt v)
  | rejected kind => exact congrArg State.advance (setReg_withStat u.drawnWord x rt u.unspec32)

theorem storeResult_withStat (r : AccessResult) (u : State) (x : Stats) :
    storeResult (r, u.withStat x) =
      (storeResult (r, u)).withStat { x with nMemAccess := x.nMemAccess + r.completed } := by
  cases r <;> rfl

theorem loadResult_reports (rt : Reg) (p : AccessResult × State) : (loadResult rt p).reports = p.2.reports := by
  obtain ⟨v | v | kind, u⟩ := p <;> exact setReg_reports _ rt _

theorem storeResult_reports (p : AccessResult × State) : (storeResult p).reports = p.2.reports := by
  obtain ⟨v | v | kind, u⟩ := p <;> rfl

/-- A memory instruction moves its class counter, the counters of its access and that of data accesses. -/
theorem moves_memory {finish : AccessResult × State → State} (s : State) (a : Word) (dir : Direction)
    (hstat : ∀ r u x, finish (r, u.withStat x) =
      (finish (r, u)).withStat { x with nMemAccess := x.nMemAccess + r.completed })
    (hreports : ∀ p, (finish p).reports = p.2.reports) :
    Moves (fun u => finish ((u.dispatched .memory).cacheAccess a dir)) s
      (((s.dispatched .memory).cacheAccess a dir).1.instrAmounts s.cfg.missPenalty)
      (((s.dispatched .memory).cacheAccess a dir).1.records dir.source a) where
  reports := (hreports _).trans (cacheAccess_reports _ a dir)
  stat := fun x hx => by
    have haccess :=
      cacheAccess_withStat (s.dispatched .memory) (x := x.countClass .memory) hx a dir
    refine (congrArg finish haccess).trans ((hstat _ _ _).trans (congrArg (State.withStat _) ?_))
    cases ((s.dispatched .memory).cacheAccess a dir).1 <;> rfl

/-! #### From the fetch to the end of the step -/

/-- The relations of R283 between the amounts `d` and the records `new` of what follows a fetch: they owe a
class or a record to the instruction the fetch has counted. -/
structure Restores (c : Config) (d : Stats) (new : List Report) : Prop where
  instr : d.nInstr + 1 = d.nRType + d.nJump + d.nBranch + d.nImmAlu + d.nMemory + countUnsupported new
  accesses : d.nHit + d.nMiss = d.nInstr + d.nMemAccess
  cycles : d.cycles = d.nHit * Config.hitTime + d.nMiss * c.missPenalty
  taken : d.nBranchTaken ≤ d.nBranch
  rejected : d.nMemory = d.nMemAccess + countRejected new

/-- The cycles of an access are those of one hit or one miss (R286). -/
theorem ofAccess_cycles (hit : Bool) (p : Nat) : (Stats.ofAccess hit p).cycles =
    (Stats.ofAccess hit p).nHit * Config.hitTime + (Stats.ofAccess hit p).nMiss * p := by
  cases hit <;> simp [Stats.ofAccess, accessStats, Stats.reset, Config.hitTime]

/-- A fetch, whether it hit or missed, and what restores the relations are balanced together. -/
theorem balanced_fetch_plus {c : Config} {d : Stats} {new : List Report} (hit : Bool) (h : Restores c d new) :
    Balanced c ((Stats.ofFetch hit c.missPenalty).plus d) new := by
  obtain ⟨hi, ha, hc, ht, hr⟩ := h
  cases hit <;> constructor <;>
    simp [Stats.ofFetch, Stats.ofAccess, accessStats, Stats.plus, Stats.reset, State.resetWith, Nat.add_mul, hc,
      Config.hitTime] <;>
    omega

theorem restores_unsupported (c : Config) (pc ir : Word) :
    Restores c Stats.reset [.unsupportedInstruction pc ir] :=
  ⟨rfl, rfl, by simp [Stats.reset], Nat.le_refl _, rfl⟩

theorem restores_memory (c : Config) (r : AccessResult) (src : DataSource) (a : Word) :
    Restores c (r.instrAmounts c.missPenalty) (r.records src a) := by
  rcases r with v | v | kind
  · exact ⟨rfl, rfl, ofAccess_cycles true c.missPenalty, Nat.le_refl _, rfl⟩
  · exact ⟨rfl, rfl, ofAccess_cycles false c.missPenalty, Nat.le_refl _, rfl⟩
  · have hcycles : (0 : Nat) = 0 * Config.hitTime + 0 * c.missPenalty := by rw [Nat.zero_mul, Nat.zero_mul]
    cases kind <;> exact ⟨rfl, rfl, hcycles, Nat.le_refl _, rfl⟩

theorem restores_internal (c : Config) {k : InstrClass} {taken : Bool} (hk : k ≠ .memory)
    (ht : taken = true → k = .branch) : Restores c (Stats.reset.countExec k taken) [] := by
  have hbranch : (Stats.reset.countExec k taken).nBranchTaken ≤ (Stats.reset.countExec k taken).nBranch := by
    cases taken with
    | false => exact Nat.zero_le _
    | true => rw [ht rfl]; exact Nat.le_refl _
  cases k with
  | memory => exact absurd rfl hk
  | _ => exact ⟨rfl, rfl, by simp [Stats.countExec, Stats.countClass, Stats.reset], hbranch, rfl⟩

/-! #### What follows the fetch: an effect, or an unsupported word -/

/-- An effect without a data access is of another class than memory, and only a branch is taken. -/
theorem effectOf_internal {x : Reg → Word} {pc : Word} {i : Instr} {k : InstrClass} {taken : Bool} {r : Reg}
    {v npc : Word} (h : effectOf x pc i = .internal k taken r v npc) :
    k ≠ .memory ∧ (taken = true → k = .branch) := by
  have hcls : k = i.cls := by rw [← effectOf_cls x pc i, h]; rfl
  refine ⟨fun hk => ?_, fun ht => ?_⟩
  · rw [hcls] at hk
    cases i with
    | lw | sw => cases h
    | _ => cases hk
  · by_contra hk
    have hfalse := effectOf_taken x pc i (hcls ▸ hk)
    rw [h] at hfalse
    exact absurd (ht.symm.trans hfalse) nofun

theorem moves_internal (s : State) (k : InstrClass) (taken : Bool) (r : Reg) (v npc : Word) :
    Moves (·.perform (.internal k taken r v npc)) s (Stats.reset.countExec k taken) [] where
  reports := (setReg_reports s r v).trans (List.append_nil _).symm
  stat := fun x _ => by
    simp only [State.perform, setReg_withStat, ← countExec_eq_plus]
    rfl

/-- Every instruction moves counters and adds records that restore the relations. -/
theorem exists_moves_effectOf (s : State) (i : Instr) :
    ∃ d new, Restores s.cfg d new ∧ Moves (·.perform (effectOf s.reg s.pc i)) s d new := by
  cases e : effectOf s.reg s.pc i with
  | internal k taken r v npc =>
    obtain ⟨hk, ht⟩ := effectOf_internal e
    exact ⟨_, _, restores_internal s.cfg hk ht, moves_internal s k taken r v npc⟩
  | load rt ea =>
    exact ⟨_, _, restores_memory s.cfg _ _ ea,
      moves_memory s ea .read (loadResult_withStat rt) (loadResult_reports rt)⟩
  | store ea w =>
    exact ⟨_, _, restores_memory s.cfg _ _ ea,
      moves_memory s ea (.write w) storeResult_withStat storeResult_reports⟩

theorem moves_unsupported (s : State) (ir : Word) :
    Moves (·.unsupported ir) s Stats.reset [.unsupportedInstruction s.pc ir] :=
  ⟨fun _ _ => rfl, rfl⟩

/-! #### The whole step -/

/-- The fetch and what follows it move the counters by balanced amounts. -/
theorem moves_fetch_then {f : State → State} {s : State} {d : Stats} {new : List Report}
    (hd : Restores s.cfg d new) (hf : Moves f s.fetchWord.state d new) :
    ∃ d', Balanced s.cfg d' new ∧ Moves (fun u => f u.fetchWord.state) s d' new := by
  obtain ⟨-, -, -, -, hreports, -⟩ := fetchWord_frame s
  refine ⟨_, balanced_fetch_plus (s.lookup s.pc.toNat).isSome hd, fun x hx => ?_, ?_⟩
  · simp only [fetchWord_withStat s hx, ← plus_assoc]
    refine hf.stat _ ?_
    rw [fetchWord_nInstr, ← hx]
    rfl
  · rw [hf.reports, hreports]

/-- A halt check moves no counter; the record of a misaligned fetch is of no kind R283 counts. -/
theorem balanced_reset (c : Config) {new : List Report} (hu : countUnsupported new = 0)
    (hr : countRejected new = 0) : Balanced c Stats.reset new :=
  ⟨by simp [Stats.reset, hu], rfl, by simp [Stats.reset], Nat.le_refl _, by simp [Stats.reset, hr]⟩

/-- What a step does to the counters and the records: it adds amounts balanced with the new records, and reads
no counter but `nInstr`. -/
structure StepMoves (s t : State) (run : State → Host.Outcome State Fault Refusal) (d : Stats)
    (new : List Report) : Prop where
  balanced : Balanced s.cfg d new
  reports : t.reports = s.reports ++ new
  stat : ∀ x : Stats, x.nInstr = s.stat.nInstr → run (s.withStat x) = .next (t.withStat (x.plus d))

theorem runStep_moves {s t : State} (h : runStep s = .next t) : ∃ d new, StepMoves s t runStep d new := by
  rcases runStep_cases h with ⟨h1, rfl⟩ | ⟨h1, h2, rfl⟩ | ⟨h1, h2, h3, rfl⟩ | ⟨hpc, hd⟩
  · exact ⟨_, [], balanced_reset s.cfg rfl rfl, (List.append_nil _).symm,
      fun x _ => runStep_sentinel (s := s.withStat x) h1⟩
  · exact ⟨_, [], balanced_reset s.cfg rfl rfl, (List.append_nil _).symm,
      fun x _ => runStep_outOfRange (s := s.withStat x) h1 h2⟩
  · exact ⟨_, [.alignmentError .fetch s.pc], balanced_reset s.cfg rfl rfl, rfl,
      fun x _ => runStep_misaligned (s := s.withStat x) h1 h2 h3⟩
  have hcfg := fetchWord_cfg s
  rcases hd with ⟨i, hd, he⟩ | ⟨hd, rfl⟩
  · rw [exec_eq_perform] at he
    cases he
    obtain ⟨d, new, hr, hm⟩ := exists_moves_effectOf s.fetchWord.state i
    obtain ⟨d', hb, hstat, hreports⟩ := moves_fetch_then (hcfg ▸ hr) hm
    refine ⟨d', new, hb, hreports, fun x hx => ?_⟩
    have hd' : decodeWord (s.withStat x).fetchWord.word = some i := by rwa [fetchWord_withStat s hx]
    rw [← hstat x hx, runStep_decoded (s := s.withStat x) hpc hd', fetchWord_withStat s hx]
    rfl
  · obtain ⟨d', hb, hstat, hreports⟩ :=
      moves_fetch_then (restores_unsupported s.cfg _ _) (moves_unsupported s.fetchWord.state s.fetchWord.word)
    refine ⟨d', _, hb, hreports, fun x hx => ?_⟩
    have hd' : decodeWord (s.withStat x).fetchWord.word = none := by rwa [fetchWord_withStat s hx]
    rw [← hstat x hx, runStep_undecoded (s := s.withStat x) hpc hd', fetchWord_withStat s hx]

/-- Every step that answers a next state moves the counters by balanced amounts (R280 to R283). -/
theorem step_moves {s t : State} (h : step s = .next t) : ∃ d new, StepMoves s t step d new := by
  rcases step_next_cases h with ⟨hl, hf, hr, rfl⟩ | ⟨hready, hrun⟩
  · exact ⟨_, [], balanced_reset t.cfg rfl rfl, (List.append_nil _).symm,
      fun x _ => step_stopped (s := t.withStat x) hl hf hr⟩
  · obtain ⟨d, new, hb, hreports, hstat⟩ := runStep_moves hrun
    exact ⟨d, new, hb, hreports, fun x hx => (step_ready (s := s.withStat x) hready).trans (hstat x hx)⟩

/-- The counters after the step are those before it and the amounts. -/
theorem StepMoves.stat_eq {s t : State} {d : Stats} {new : List Report} (hm : StepMoves s t step d new)
    (h : step s = .next t) : t.stat = s.stat.plus d := by
  have hself : step s = .next (t.withStat (s.stat.plus d)) := hm.stat s.stat rfl
  rw [h] at hself
  injection hself with hself
  exact congrArg State.stat hself

/-- Settles O52: the amounts of a step are balanced with its records (`step_moves`), and the relations are
linear (`Balanced.plus`). -/
theorem stepKeepsStatisticsBalanced : Obligations.StepKeepsStatisticsBalanced := by
  intro s t hs h
  obtain ⟨d, new, hm⟩ := step_moves h
  rw [statsBalanced_iff] at hs ⊢
  rw [configurationIsConstant s t h, hm.stat_eq h, hm.reports]
  exact hs.plus hm.balanced

/-- Settles O34: both runs add the same amounts. -/
theorem onlyTheInstructionCountIsRead : Obligations.OnlyTheInstructionCountIsRead := by
  intro s t st hn h
  obtain ⟨d, new, hm⟩ := step_moves h
  have both : ∀ a b e : Nat, a + e + b = b + e + a := fun a b e => by omega
  refine ⟨t.withStat (st.plus d), hm.stat st hn, rfl, ?_⟩
  rw [hm.stat_eq h]
  exact ⟨congrArg (· + d.nInstr) hn, both _ _ _, both _ _ _, both _ _ _, both _ _ _, both _ _ _, both _ _ _,
    both _ _ _, both _ _ _, both _ _ _, both _ _ _⟩

/-- Settles O35: a step adds to the counters. -/
theorem countersNeverFall : Obligations.CountersNeverFall := by
  intro s t h
  obtain ⟨d, new, hm⟩ := step_moves h
  rw [hm.stat_eq h]
  simp only [Stats.plus, Nat.le_add_right, and_self]

end Sys2Proof.Machine

namespace Sys2Proof.Machine

/-! ### AMAT (R288) -/

/-- Settles O56: the miss rate times the accesses is the misses. -/
theorem averageMemoryAccessTime : Obligations.AverageMemoryAccessTime := by
  have hit : (Config.hitTime : Rat) = 1 := by norm_num [Config.hitTime]
  refine ⟨fun s h => ?_, fun s h => ?_, fun s hh hm hp => ?_⟩
  · rw [State.amat, if_pos h, hit]
  · have hne : (s.stat.nHit : Rat) + s.stat.nMiss ≠ 0 := by exact_mod_cast h
    rw [State.amat, if_neg h, hit, Nat.cast_add]
    field_simp
    ring
  · rw [State.amat, if_neg (by omega), hit, hh, hm, hp]
    norm_num

/-! ### The moves of a host (R54, R325, R330) -/

theorem Performed.nInstr {s t : State} {e : Effect} (h : Performed s t e) : t.stat.nInstr = s.stat.nInstr := by
  obtain ⟨n, hh, m, c, hstat⟩ := h.stat
  rw [hstat]
  exact (countExec_counters s.stat e.cls e.taken).1

/-- A running step counts an instruction and runs on, or is stopped by a check before the fetch (R181 to R184). -/
theorem runStep_counts_or_stops {s t : State} (h : runStep s = .next t) :
    (t.run = s.run ∧ t.stat.nInstr = s.stat.nInstr + 1) ∨
      (t.run ≠ .running ∧ t = { s with run := t.run, reports := t.reports }) := by
  obtain ⟨-, -, -, hrun, -⟩ := fetchWord_frame s
  rcases runStep_cases h with ⟨-, rfl⟩ | ⟨-, -, rfl⟩ | ⟨-, -, -, rfl⟩ | ⟨-, ⟨i, -, he⟩ | ⟨-, rfl⟩⟩
  · exact .inr ⟨nofun, rfl⟩
  · exact .inr ⟨nofun, rfl⟩
  · exact .inr ⟨nofun, rfl⟩
  · rw [exec_eq_perform] at he
    cases he
    have hp := perform_performed s.fetchWord.state (effectOf s.fetchWord.state.reg s.fetchWord.state.pc i)
    exact .inl ⟨hp.run.trans hrun, hp.nInstr.trans (fetchWord_nInstr s)⟩
  · exact .inl ⟨hrun, fetchWord_nInstr s⟩

/-- Two series that do the same from every state do the same after one more move. -/
theorem onMoves_cons_congr {ms ms' : List HostMove} (h : ∀ t : State, t.onMoves ms = t.onMoves ms')
    (s : State) (m : HostMove) : s.onMoves (m :: ms) = s.onMoves (m :: ms') := by
  simp only [State.onMoves, h]

/-- Withheld grants may be left out wherever they stand (R325). -/
theorem onMoves_filter_withhold (s : State) (ms : List HostMove) :
    s.onMoves ms = s.onMoves (ms.filter fun m => decide (m ≠ .withhold)) := by
  induction ms generalizing s with
  | nil => rfl
  | cons m ms ih =>
    cases m with
    | withhold => exact (onMoves_withhold s ms).trans (ih s)
    | grant => exact onMoves_cons_congr ih s .grant
    | reset c => exact onMoves_cons_congr ih s (.reset c)

/-- A series that answers `u` hands `u` on to the moves after it. -/
theorem onMoves_append {s u : State} {before : List HostMove} (h : s.onMoves before = .next u)
    (rest : List HostMove) : s.onMoves (before ++ rest) = u.onMoves rest := by
  induction before generalizing s with
  | nil => cases h; rfl
  | cons m ms ih =>
    obtain ⟨v, hv, hm⟩ := onMoves_cons_cases h
    exact (onMoves_cons_next hv _).trans (ih hm)

/-- Without a reset no series of moves changes a stopped CORE (R54). -/
theorem onMoves_stopped {s : State} (hl : s.cfg.Legal) (hf : s.cacheFits = true) (hr : s.run ≠ .running)
    {ms : List HostMove} (hms : ∀ c, .reset c ∉ ms) : s.onMoves ms = .next s := by
  induction ms with
  | nil => rfl
  | cons m ms ih =>
    have hrest := ih fun c hc => hms c (.tail _ hc)
    cases m with
    | grant => exact (onMoves_cons_next (m := .grant) (step_stopped hl hf hr) ms).trans hrest
    | withhold => exact (onMoves_withhold s ms).trans hrest
    | reset c => exact absurd (.head _) (hms c)

/-- Settles O57: the values of `run`, the ends of a running step (`runStep_counts_or_stops`), and withheld grants
in a series (`onMoves_filter_withhold`). -/
theorem noPowerStates : Obligations.NoPowerStates := by
  refine ⟨fun s => ?_, fun s hready => ?_, onMove_withhold, onMoves_filter_withhold⟩
  · rcases s.run with _ | ⟨_ | _⟩ | _ <;> simp
  · obtain ⟨t, ht⟩ := runStep_next s
    have hrun : s.run = .running := hready.2.2
    exact ⟨t, (step_ready hready).trans ht, hrun ▸ runStep_counts_or_stops ht⟩

/-- Settles O58: grants leave a stopped CORE alone (`onMoves_stopped`), and a series goes on from what its first
part leaves (`onMoves_append`). -/
theorem onlyResetRestartsTheCore : Obligations.OnlyResetRestartsTheCore :=
  ⟨fun _ _ hl hf hr hms => onMoves_stopped hl hf hr hms,
    fun _ _ _ c _ h => ⟨(onMoves_append h _).trans (onMoves_cons_next (onMove_reset _ c) _), rfl⟩⟩

end Sys2Proof.Machine
